-- ==== Sys2Proof/Word.lean ====
section
/-! DEFINITION. The word types of the engine (00_scope.md R10, R12) and the groups of four
that the spec numbers 0..3: ARG0-ARG3, RES0-RES3 and the four lanes of a vector context. -/

namespace Sys2Proof

/-- One byte of host memory. -/
abbrev Byte := BitVec 8
/-- A 32-bit word: a command word, `STATUS`, `PARAM`, or one vector lane (R10 `VW`). -/
abbrev Word32 := BitVec 32
/-- A 64-bit word: an operand, a result, or a scalar-generator word (R10 `W`). -/
abbrev Word64 := BitVec 64

/-- Four like things numbered 0 to 3. -/
structure Quad (α : Type) where
  v0 : α
  v1 : α
  v2 : α
  v3 : α
deriving DecidableEq, Repr

/-- Entry `i` of four. -/
def Quad.get {α : Type} (q : Quad α) (i : Fin 4) : α :=
  match i with
  | 0 => q.v0
  | 1 => q.v1
  | 2 => q.v2
  | 3 => q.v3

/-- Four with entry `i` replaced. -/
def Quad.set {α : Type} (q : Quad α) (i : Fin 4) (x : α) : Quad α :=
  match i with
  | 0 => { q with v0 := x }
  | 1 => { q with v1 := x }
  | 2 => { q with v2 := x }
  | 3 => { q with v3 := x }

/-- Four equal entries. -/
def Quad.all {α : Type} (x : α) : Quad α := ⟨x, x, x, x⟩

/-- Apply `f` to each entry; no entry sees another. -/
def Quad.map {α β : Type} (f : α → β) (q : Quad α) : Quad β :=
  ⟨f q.v0, f q.v1, f q.v2, f q.v3⟩

/-- Combine two groups of four, entry by entry. -/
def Quad.zip {α β γ : Type} (f : α → β → γ) (q : Quad α) (r : Quad β) : Quad γ :=
  ⟨f q.v0 r.v0, f q.v1 r.v1, f q.v2 r.v2, f q.v3 r.v3⟩

end Sys2Proof
end

