-- ==== Sys2Proof/Machine/Float64.lean ====
section
/-! DEFINITION. Binary64 as AUTOCORR needs it (44_autocorr.md R95; PRESUMED by the spec itself, log 24):
one rounding of an exact rational, to nearest, ties to even, and what a finite encoding stands for. -/

namespace Sys2Proof.Machine

/-- `2^e <= a / d`, for integers, without division. -/
def powLeRatio (e : Int) (a d : Nat) : Bool := decide (d * 2 ^ e.toNat ≤ a * 2 ^ (-e).toNat)

/-- The exponent `e` with `2^e <= a/d < 2^(e+1)`, for positive `a` and `d`. -/
def ratioExponent (a d : Nat) : Int :=
  let e : Int := (Nat.log2 a : Int) - (Nat.log2 d : Int)
  if powLeRatio e a d then e else e - 1

/-- `x / y` rounded to the nearest integer, ties to even. -/
def divRoundEven (x y : Nat) : Nat :=
  let q := x / y
  let r := x % y
  if y < 2 * r ∨ (2 * r = y ∧ q % 2 = 1) then q + 1 else q

/-- The encoding, sign bit aside, of the binary64 value nearest to `a / d`, for positive `a` and `d`:
a significand of 53 bits, fewer below the normal range, infinity above it. A carry out of the significand
runs into the exponent field, as it should. -/
def roundMagnitude (a d : Nat) : Nat :=
  let e := max (ratioExponent a d) (-1022)
  let m := divRoundEven (a * 2 ^ (52 - e).toNat) (d * 2 ^ (e - 52).toNat)
  min ((e + 1022).toNat * 2 ^ 52 + m) (2047 * 2 ^ 52)

/-- `RNE64(num / den)` (R95), `den` positive; `+0.0` where `num = 0`. -/
def rne64 (num : Int) (den : Nat) : Word64 :=
  if num = 0 then 0
  else BitVec.ofBool (decide (num < 0)) ++ BitVec.ofNat 63 (roundMagnitude num.natAbs den)

/-- The encoding, sign bit aside, as a number; encodings of the same sign are ordered as it is. -/
def magnitude64 (w : Word64) : Nat := (w.setWidth 63).toNat

/-- The encoding of 1.0 (R95). -/
def one64 : Word64 := 0x3FF0000000000000

/-- `f < -1.0 or f > 1.0` (R96). -/
def outsideUnit (w : Word64) : Bool := decide (magnitude64 one64 < magnitude64 w)

/-- The number a finite encoding stands for. -/
def value64 (w : Word64) : Rat :=
  let expo := (w.extractLsb' 52 11).toNat
  let frac := (w.extractLsb' 0 52).toNat
  let mag : Rat := if expo = 0 then (frac : Rat) / 2 ^ 1074
    else ((2 ^ 52 + frac : Nat) : Rat) * 2 ^ expo / 2 ^ 1075
  if w.getLsbD 63 then -mag else mag

/-- The encoding is of a finite number: neither an infinity nor a NaN. -/
def finite64 (w : Word64) : Bool := decide ((w.extractLsb' 52 11).toNat ≠ 2047)

end Sys2Proof.Machine
end

