-- ==== Sys2Proof/Config.lean ====
section
/-! DEFINITION. The configuration of one engine (00_scope.md R10) and the free values.
An OPEN function of the spec is named here by plain data: either the reference instance of the
spec or another function, which is an opaque constant, so that no proof can see what it computes.
A statement about every state is then a statement about every configuration. -/

namespace Sys2Proof.Config

/-- Which instance of an OPEN function an engine has: the spec's reference instance, or some other
total function, told apart by a number (R61, R64, R73; log 1). -/
inductive Choice where
  | reference
  | other (k : Nat)
deriving DecidableEq, Repr

/-- `MIX64` of an engine that does not have `mix_ref` (R61: nothing is assumed of it; log 1). -/
opaque otherMix64 : Nat → Word64 → Word64
/-- `PERM64` of an engine that does not have `perm64_ref` (R64; log 1). -/
opaque otherPerm64 : Nat → Word64 → Word64
/-- `PERM32` of an engine that does not have `perm32_ref` (R73; log 1). -/
opaque otherPerm32 : Nat → Word32 → Word32

/-- Free bit number `i` of draw `n`: a bit of a buffer word that reads as any value (R43, R49; logs 13, 14). -/
opaque freeBit : Nat → Nat → Bool
/-- Choice number `i` of draw `n`: which of its earlier and present values a source byte reads as, whose
stores no barrier orders before the command (R127; log 13). -/
opaque freeChoice : Nat → Nat → Nat
/-- The same for the destination byte at address `a` (R127; log 13). -/
opaque freeDestChoice : Nat → Nat → Nat
/-- Free word number `i` of draw `n`: a `RESi` read while BUSY (R23), a destination word after a bus
error, a reset or a store while BUSY (R45, R49, R123); logs 12, 13, 16, 18. -/
opaque freeWord : Nat → Nat → Word64
/-- Free number of draw `n`: how many entropy answers an aborted command had used (R123; log 16). -/
opaque freeCount : Nat → Nat
/-- Whether, at draw `n`, the engine makes an access that R44 allows it but its result does not need
(R43: the number of accesses is unspecified; log 11). -/
opaque extraAccess : Nat → Bool
/-- Success of entropy attempt `n`, where State lists no answer for it (R31: a draw; log 9). -/
opaque entropyOk : Nat → Bool
/-- Value of entropy attempt `n`, where State lists no answer for it (R31: a draw; log 9). -/
opaque entropyValue : Nat → Word64

/-- The OPEN parameters of R10 that are not the number of contexts (`NS` and `NV` are the lengths of
the context files in State; log 2). -/
structure Params where
  /-- `MIX64` (R61). -/
  mix64 : Choice
  /-- `PERM64` (R64). -/
  perm64 : Choice
  /-- `PERM32` (R73). -/
  perm32 : Choice
  /-- `MULT32` (R72). The spec advises `MULT32 mod 4 = 1` for full period; every value is admitted here
  (DESIGN CHOICE, log 2). -/
  mult32 : Word32
  /-- `ADDR_W`, 32 to 64 (R39). -/
  addrW : Nat
  /-- `MMIO_BASE`, 256-byte aligned (R20). -/
  mmioBase : Word64
  /-- `MMIO_ERR_RESPONSE` (R38): the value the host sees for a refused access, or none where the host
  takes a fault (log 4). -/
  mmioErr : Option Word64
deriving DecidableEq, Repr

/-- The reference configuration of R10. `MMIO_BASE` and `MMIO_ERR_RESPONSE` have no reference value:
0xFFFFFFFFFFFF0000 and 'a host fault' are DESIGN CHOICES (logs 3, 4). -/
def Params.reference : Params where
  mix64 := .reference
  perm64 := .reference
  perm32 := .reference
  mult32 := 0x2C9277B5
  addrW := 64
  mmioBase := 0xFFFFFFFFFFFF0000
  mmioErr := none

/-- The ranges R10 gives: `32 <= ADDR_W <= 64`, `MMIO_BASE` a multiple of 256. R72's `MULT32 mod 4 = 1`,
which is advice, is not among them (DESIGN CHOICE, log 2). -/
def Params.wellFormed (p : Params) : Bool :=
  decide (32 ≤ p.addrW) && decide (p.addrW ≤ 64) && decide (p.mmioBase.toNat % 256 = 0)

end Sys2Proof.Config
end

