-- ==== Sys2Proof/Syntax.lean ====
section
/-! DEFINITION. The ten commands of 30_encoding.md R55, one constructor for each row of the opcode
table. A command carries only its `CTX` field; its other operands stand in ARG0-ARG3 (R53). -/

namespace Sys2Proof

/-- The 8-bit context index of a command word (R53 `CTX`). -/
abbrev Ctx := BitVec 8

inductive Instr where
  /-- Seed mixer (R69). -/
  | mix
  /-- Initialise a scalar context (R70). -/
  | init (c : Ctx)
  /-- One 64-bit draw (R71). -/
  | next (c : Ctx)
  /-- Uniform integer in a range (R102). -/
  | bounded (c : Ctx)
  /-- Word of Bernoulli bits (R84). -/
  | bias (c : Ctx)
  /-- Number of successes in trials (R105). -/
  | binomial (c : Ctx)
  /-- Von Neumann debiasing pass (R90). -/
  | debias
  /-- Cyclic autocorrelation (R97). -/
  | autocorr
  /-- Initialise a vector context (R77). -/
  | vinit (c : Ctx)
  /-- One draw from each of four lanes (R78). -/
  | vnext (c : Ctx)
deriving DecidableEq, Repr

/-- Which context file a command's `CTX` field indexes (R55, column 'ctx'). -/
inductive CtxFile where
  | scalar
  | vector
deriving DecidableEq, Repr

/-- The context file and index a command names; none where `CTX` must be 0. -/
def Instr.ctx? : Instr → Option (CtxFile × Ctx)
  | .mix => none
  | .init c => some (.scalar, c)
  | .next c => some (.scalar, c)
  | .bounded c => some (.scalar, c)
  | .bias c => some (.scalar, c)
  | .binomial c => some (.scalar, c)
  | .debias => none
  | .autocorr => none
  | .vinit c => some (.vector, c)
  | .vnext c => some (.vector, c)

/-- The mnemonic of R55. -/
def Instr.mnemonic : Instr → String
  | .mix => "MIX"
  | .init _ => "INIT"
  | .next _ => "NEXT"
  | .bounded _ => "BOUNDED"
  | .bias _ => "BIAS"
  | .binomial _ => "BINOMIAL"
  | .debias => "DEBIAS"
  | .autocorr => "AUTOCORR"
  | .vinit _ => "VINIT"
  | .vnext _ => "VNEXT"

/-- Assembler syntax (R58): `MNEMONIC` or `MNEMONIC cN`, `N` decimal. -/
def Instr.asm (i : Instr) : String :=
  match i.ctx? with
  | none => i.mnemonic
  | some (_, c) => i.mnemonic ++ " c" ++ toString c.toNat

end Sys2Proof
end

