-- ==== Sys2Proof/Machine/State.lean ====
section
/-! DEFINITION. The state of the engine and of the agents around it, as plain data (10_state.md), the
reasons a step can stop, and the state right after reset (10_state.md R37). -/

namespace Sys2Proof.Machine

/-- Reasons to stop. No command raises one: every error of a command is a status code (R107). -/
inductive Fault where
  /-- Raised by a host turn: a load or store of host memory where no memory answers, or past the end of
  the address space. The spec says only what the engine's own port sees there. Safe: the model stops
  (log 19). -/
  | hostMemoryAbsent
deriving DecidableEq, Repr

/-- Reasons to refuse. -/
inductive Refusal where
  /-- Raised by exec for a command that has no meaning yet; no arm does. Safe. -/
  | notModelled (mnemonic : String)
deriving DecidableEq, Repr

/-- The status codes of 60_exceptions.md R106; codes 8 to 15 are never written and have no name. -/
inductive StatusCode where
  | ok
  | entropyUnavailable
  | preconditionViolation
  | degenerateAutocorrelation
  | illegalCommand
  | contextInvalid
  | busError
  | internalConsistency
deriving DecidableEq, Repr

/-- The fields of `STATUS` (R22); its reserved bits read 0 and hold nothing. -/
structure Status where
  busy : Bool
  ovr : Bool
  err : StatusCode
deriving DecidableEq, Repr

/-- A scalar context (R27). -/
structure ScalarCtx where
  cur : Word64
  inc : Word64
  valid : Bool
deriving DecidableEq, Repr

/-- A vector context: four lanes (R28). -/
structure VectorCtx where
  cur : Quad Word32
  inc : Quad Word32
  valid : Bool
deriving DecidableEq, Repr

/-- The transient state of a running command, a constructor for each row of R33. It does not survive
the end of the command. -/
inductive Transient where
  | none
  /-- BIAS: accumulator and bit index. -/
  | bias (acc : Word64) (pc : Nat)
  /-- BINOMIAL: those of the last BIAS word, the running sum and the block counter. -/
  | binomial (acc : Word64) (pc : Nat) (sum : Nat) (block : Nat)
  /-- BOUNDED: span, mask and the current candidate. -/
  | bounded (span mask candidate : Word64)
  /-- DEBIAS: read cursor and write cursor. -/
  | debias (used filled : Nat)
  /-- AUTOCORR: the two counters. -/
  | autocorr (x1 x2 : Nat)
  /-- INIT and VINIT: the entropy attempts made. -/
  | entropy (attempts : Nat)
deriving DecidableEq, Repr

/-- One answer of the entropy source (R31). -/
structure EntropyAnswer where
  ok : Bool
  value : Word64
deriving DecidableEq, Repr

/-- The entropy port (R31): the answers to the coming attempts, first one first, and the number of
attempts ever made. An attempt past the list takes an opaque draw (log 9). -/
structure EntropyPort where
  answers : List EntropyAnswer
  attempts : Nat
deriving DecidableEq, Repr

/-- What is special about a range of host memory (R43, R45, R47; logs 11, 14). -/
inductive RegionKind where
  /-- No memory: every access gets an error response. -/
  | absent
  /-- The platform denies the engine's port every access (R47). -/
  | denied
  /-- The platform denies the engine's port writes (R47). -/
  | writeDenied
  /-- Device registers: reads have side effects or do not return what was written (R43). -/
  | device
deriving DecidableEq, Repr

/-- A range of byte addresses of one kind; ordinary memory is in no region. -/
structure Region where
  base : Nat
  size : Nat
  kind : RegionKind
deriving DecidableEq, Repr

/-- Width of a host access. -/
inductive Width where
  | w8
  | w16
  | w32
  | w64
deriving DecidableEq, Repr

/-- An operand of the host notation: a number or a host variable (R58). -/
inductive HostVal where
  | imm (v : Word64)
  | var (r : Nat)
deriving DecidableEq, Repr

/-- The host forms of 30_encoding.md R58. `store` and `load` act on one host address space that holds
both the register window and host memory, so they cover `wr32`, `wr64`, `rd32`, `rd64`, `mw64`,
`mr64` and the accesses R38 refuses. Branch targets are positions in the program. -/
inductive HostInstr where
  | store (w : Width) (addr v : HostVal)
  | load (w : Width) (rX : Nat) (addr : HostVal)
  | li (rX : Nat) (v : HostVal)
  | and (rX : Nat) (x y : HostVal)
  | shr (rX : Nat) (x y : HostVal)
  | add (rX : Nat) (x y : HostVal)
  | bnz (x : HostVal) (target : Nat)
  | bz (x : HostVal) (target : Nat)
  | b (target : Nat)
  | fence
deriving DecidableEq, Repr

/-- The host: its program, the position it stands at, its variables (an unlisted one is 0), and
whether it stands at a host fault (R38). -/
structure HostState where
  prog : List HostInstr
  pos : Nat
  vars : List Word64
  stopped : Bool
deriving DecidableEq, Repr

/-- Who moves next (R19; log 6). -/
inductive Turn where
  | engine
  | host
  /-- The platform asserts the reset input (R122, R123). -/
  | assertReset
  /-- The platform releases it (R122). -/
  | releaseReset
  /-- The platform changes which memory answers how (R47). -/
  | remap (regions : List Region)
deriving DecidableEq, Repr

/-- A byte of host memory the host has stored to since its last barrier: its address, and the values it had
before and after each of those stores (R127; log 13). -/
structure StaleByte where
  addr : Nat
  seen : List Byte
deriving DecidableEq, Repr

/-- Host memory: (byte address, byte) pairs in the canonical form of `Memory.wf` (Machine/Memory.lean). -/
abbrev Memory := List Host.Cell

/-- Everything the spec gives the machine, and the model's own `turns` and `free`. -/
structure State where
  /-- `CMD` (R21). -/
  cmd : Word32
  /-- `STATUS` (R22). -/
  status : Status
  /-- `ARG0`-`ARG3` (R25). -/
  args : Quad Word64
  /-- `RES0`-`RES3` (R26). -/
  res : Quad Word64
  /-- `SCTX[0..NS-1]` (R27); `NS` is its length. -/
  sctx : List ScalarCtx
  /-- `VCTX[0..NV-1]` (R28); `NV` is its length. -/
  vctx : List VectorCtx
  /-- Transient state of the running command (R33). -/
  transient : Transient
  /-- The reset input is asserted (R122). -/
  inReset : Bool
  /-- The OPEN parameters of R10; no step changes them. -/
  params : Config.Params
  /-- Host memory (R39-R41). -/
  mem : Memory
  /-- Ranges of host memory that are not ordinary (R43, R45). -/
  regions : List Region
  /-- The bytes the host has stored to since its last barrier (R48 a, R127; log 13). -/
  unfenced : List StaleByte
  /-- Those at the acceptance of the running command: it may read an earlier value there (R127; log 13). -/
  stale : List StaleByte
  /-- Addresses of the words the host has stored to while the running command ran (R49; log 13). -/
  disturbed : List Nat
  /-- The entropy port (R31). -/
  entropy : EntropyPort
  /-- The host agent (R19 a, R58). -/
  host : HostState
  /-- Who moves next, first turn first; past its end a running engine moves, else the host (log 6). -/
  turns : List Turn
  /-- Number of draws taken; the free values are opaque functions of it (log 15). -/
  free : Nat
deriving DecidableEq, Repr

/-- A scalar context after reset (R37). CUR and INC are unspecified there; 0 is a DESIGN CHOICE
(log 8). -/
def ScalarCtx.reset : ScalarCtx := ⟨0, 0, false⟩

/-- A vector context after reset (R37). CUR and INC are unspecified there; 0 is a DESIGN CHOICE
(log 8). -/
def VectorCtx.reset : VectorCtx := ⟨Quad.all 0, Quad.all 0, false⟩

/-- The machine right after reset is released (R37, R122), in the reference configuration of R10, with
no host program loaded. -/
def State.reset : State where
  cmd := 0
  status := ⟨false, false, .ok⟩
  args := Quad.all 0
  res := Quad.all 0
  sctx := List.replicate 8 ScalarCtx.reset
  vctx := List.replicate 2 VectorCtx.reset
  transient := .none
  inReset := false
  params := Config.Params.reference
  mem := []
  regions := []
  unfenced := []
  stale := []
  disturbed := []
  entropy := ⟨[], 0⟩
  host := ⟨[], 0, [], false⟩
  turns := []
  free := 0

end Sys2Proof.Machine
end

