-- ==== Sys2Proof/Machine/Flags.lean ====
section
/-! DEFINITION. The `STATUS` and `PARAM` words (10_state.md R22, R24; 60_exceptions.md R106). These are
the only status bits; no command reads one (R35). -/

namespace Sys2Proof.Machine

/-- The number of a status code (R106). -/
def codeBits : StatusCode → BitVec 4
  | .ok => 0
  | .entropyUnavailable => 1
  | .preconditionViolation => 2
  | .degenerateAutocorrelation => 3
  | .illegalCommand => 4
  | .contextInvalid => 5
  | .busError => 6
  | .internalConsistency => 7

/-- `STATUS` as a word: ERR in 11:8, OVR in bit 1, BUSY in bit 0, the rest 0 (R22). -/
def statusWord (st : Status) : Word32 :=
  (0 : BitVec 20) ++ codeBits st.err ++ (0 : BitVec 6) ++ BitVec.ofBool st.ovr ++ BitVec.ofBool st.busy

/-- A host write of `v` to `STATUS`: a 1 in bit 1 clears OVR, nothing else changes (R22). -/
def writeStatus (st : Status) (v : Word32) : Status :=
  if v.getLsbD 1 then { st with ovr := false } else st

/-- `ENTROPY_ATTEMPTS` (R10, R68). -/
def entropyAttempts : Nat := 10

/-- The command-set version (R3). -/
def commandSetVersion : BitVec 8 := 1

/-- `NS` (R27). -/
def numScalar (s : State) : Nat := s.sctx.length

/-- `NV` (R28). -/
def numVector (s : State) : Nat := s.vctx.length

/-- `PARAM`: VERSION, ENTROPY_ATTEMPTS, NV - 1, NS - 1 (R24). -/
def paramWord (s : State) : Word32 :=
  commandSetVersion ++ BitVec.ofNat 8 entropyAttempts ++ BitVec.ofNat 8 (numVector s - 1)
    ++ BitVec.ofNat 8 (numScalar s - 1)

end Sys2Proof.Machine
end

