-- ==== Sys2Proof/Machine/Bits.lean ====
section
/-! DEFINITION. The bit-counting primitives of 00_scope.md R14, and the bounded loop that every
algorithm of the spec is written with. -/

namespace Sys2Proof.Machine

/-- Number of 1 bits. -/
def popcount (v : Word64) : Nat := (List.range 64).countP (fun i => v.getLsbD i)

/-- Number of trailing zero bits; no rule applies it to 0 (R14). -/
def ctz (v : Word64) : Nat := ((List.range 64).takeWhile (fun i => !v.getLsbD i)).length

/-- Position of the highest set bit plus one; no rule applies it to 0 (R14). -/
def bitlen (v : Word64) : Nat := if v = 0 then 0 else Nat.log2 v.toNat + 1

/-- Number of 64-bit words that hold `bits` bits (R41). -/
def wordCount (bits : Nat) : Nat := (bits + 63) / 64

/-- `while cond do body`, at most `fuel` times round. Each use gives fuel enough for the loop to end
by its condition. -/
def repeatWhile {α : Type} (cond : α → Bool) (body : α → α) : Nat → α → α
  | 0, a => a
  | fuel + 1, a => if cond a then repeatWhile cond body fuel (body a) else a

end Sys2Proof.Machine
end

