-- ==== Sys2Proof/Machine/Memory.lean ====
section
/-! DEFINITION. Host memory and the data port (20_memory.md R39-R45): bytes, little-endian words, the
bits of a BitBuffer, error responses, and the words a command leaves with any value. -/

namespace Sys2Proof.Machine

/-- What an address that memory does not list reads as. The spec gives host memory no contents at
power-on: DESIGN CHOICE (log 10). -/
def unlistedByte : Byte := 0

/-- The canonical form: addresses strictly rising, no entry equal to what an unlisted address reads as. -/
abbrev Memory.wf (m : Memory) : Prop :=
  m.Pairwise (fun x y => x.1 < y.1) ∧ ∀ c ∈ m, c.2 ≠ unlistedByte

/-- The byte at address `a`. -/
def readByte : Memory → Nat → Byte
  | [], _ => unlistedByte
  | (k, v) :: t, a => if k = a then v else readByte t a

/-- Put `v` before the cells of `t`, or nothing where it is what an unlisted address reads as. -/
def consByte (a : Nat) (v : Byte) (t : Memory) : Memory :=
  if v = unlistedByte then t else (a, v) :: t

/-- Store one byte, keeping the canonical form. -/
def writeByte : Memory → Nat → Byte → Memory
  | [], a, v => consByte a v []
  | (k, w) :: t, a, v =>
    if a < k then consByte a v ((k, w) :: t)
    else if a = k then consByte a v t
    else (k, w) :: writeByte t a v

/-- The `n` bytes from `a` on as a number, the byte at `a` least significant (R40). -/
def readLE (m : Memory) (a : Nat) : Nat → Nat
  | 0 => 0
  | n + 1 => (readByte m a).toNat + 256 * readLE m (a + 1) n

/-- Store the low `n` bytes of `v` from `a` on, the least significant at `a` (R40). -/
def writeLE (m : Memory) (a : Nat) : Nat → Nat → Memory
  | 0, _ => m
  | n + 1, v => writeLE (writeByte m a (BitVec.ofNat 8 v)) (a + 1) n (v / 256)

/-- `MemRead(a, 8)` (R40). -/
def readWord (m : Memory) (a : Nat) : Word64 := BitVec.ofNat 64 (readLE m a 8)

/-- `MemWrite(a, 8, w)` (R40). -/
def writeWord (m : Memory) (a : Nat) (w : Word64) : Memory := writeLE m a 8 w.toNat

/-- The address of the word that holds bit `i` of a BitBuffer at `base` (R41). -/
def bitWord (base i : Nat) : Nat := base + 8 * (i / 64)

/-- `BitRead(base, i)` (R41). -/
def bitRead (m : Memory) (base i : Nat) : Bool := (readWord m (bitWord base i)).getLsbD (i % 64)

/-- The word with bit `i` alone set, for bit `i` of a BitBuffer. -/
def bitMask (i : Nat) : Word64 := 1#64 <<< (i % 64)

/-- OR a 1 into bit `i` of the BitBuffer at `base` (R87). -/
def orBit (base : Nat) (m : Memory) (i : Nat) : Memory :=
  writeWord m (bitWord base i) (readWord m (bitWord base i) ||| bitMask i)

/-- Some byte of `[a, a+len)` lies in the region. -/
def Region.meets (r : Region) (a len : Nat) : Bool :=
  decide (a < r.base + r.size) && decide (r.base < a + len)

/-- Some byte of `[a, a+len)` lies in a region whose kind `p` picks. -/
def meetsKind (rs : List Region) (p : RegionKind → Bool) (a len : Nat) : Bool :=
  rs.any (fun r => p r.kind && r.meets a len)

/-- A data-port read of these bytes gets an error response (R45, R47). -/
def readErrs (rs : List Region) (a len : Nat) : Bool :=
  meetsKind rs (fun k => match k with
    | .absent => true | .denied => true | .writeDenied => false | .device => false) a len

/-- A data-port write of these bytes gets an error response (R45, R47). -/
def writeErrs (rs : List Region) (a len : Nat) : Bool :=
  meetsKind rs (fun k => match k with
    | .absent => true | .denied => true | .writeDenied => true | .device => false) a len

/-- Some of these bytes are no memory at all, for any agent: in a region without memory, or past the end of
the host address space. -/
def noMemory (rs : List Region) (a len : Nat) : Bool :=
  decide (2 ^ 64 < a + len) || meetsKind rs (fun k => match k with
    | .absent => true | .denied => false | .writeDenied => false | .device => false) a len

/-- Some of these bytes are device registers. -/
def deviceAt (rs : List Region) (a len : Nat) : Bool :=
  meetsKind rs (fun k => match k with
    | .absent => false | .denied => false | .writeDenied => false | .device => true) a len

/-- Some byte of `[a, a+len)` lies in the register window (R20). -/
def meetsWindow (p : Config.Params) (a len : Nat) : Bool :=
  decide (a < p.mmioBase.toNat + 256) && decide (p.mmioBase.toNat < a + len)

/-- The word at `a` reads as any value for the running command: another agent wrote it meanwhile (R49), or
it is a device register or one of the engine's own registers (R43). Logs 13, 14. -/
def unsteady (s : State) (a : Nat) : Bool :=
  s.disturbed.contains a || deviceAt s.regions a 8 || meetsWindow s.params a 8

/-- The record of the byte at `a`, if the host has stored to it without a barrier. -/
def staleAt? (l : List StaleByte) (a : Nat) : Option StaleByte := l.find? (fun r => decide (r.addr = a))

/-- The values the byte at `a` may still read as, beside the one it has now. -/
def staleValues (l : List StaleByte) (a : Nat) : List Byte :=
  match staleAt? l a with
  | none => []
  | some r => r.seen

/-- One of the values of a byte: what it is now, or one of `seen` (R127). -/
def pickByte (now : Byte) (seen : List Byte) (choice : Nat) : Byte :=
  (now :: seen).getD (choice % (seen.length + 1)) now

/-- Bit `i` of a source buffer as the running command reads it: any value where the word is unsteady, one of
the values of its byte where that is stale, else the bit in memory. `role` tells two readings of the same
bit apart (R43: a word may be read more than once). -/
def sourceBit (s : State) (base role i : Nat) : Bool :=
  if unsteady s (bitWord base i) then Config.freeBit s.free (2 * i + role)
  else match staleAt? s.stale (base + i / 8) with
    | none => bitRead s.mem base i
    | some r =>
      (pickByte (readByte s.mem (base + i / 8)) r.seen (Config.freeChoice s.free (2 * i + role))).getLsbD (i % 8)

/-- Give each of the first `k` words at `base` that `pick` picks the value `draw` has for it. -/
def overwriteWords (draw : Nat → Word64) (pick : Nat → Bool) (base : Nat) : Nat → Memory → Memory
  | 0, m => m
  | k + 1, m =>
    let m' := overwriteWords draw pick base k m
    if pick (base + 8 * k) then writeWord m' (base + 8 * k) (draw k) else m'

end Sys2Proof.Machine
end

