-- ==== Sys2Proof/Machine/Ops.lean ====
section
/-! DEFINITION. The named operations over the registers, acceptance of a command (10_state.md R21), and
its completion with a status code (60_exceptions.md R107), the one operation by which every error of
this hardware is taken. There is nothing to return from (R116). -/

namespace Sys2Proof.Machine

/-- `ARG[i]` (R15). -/
def State.arg (s : State) (i : Fin 4) : Word64 := s.args.get i

/-- `RES[i] <- v` (R15). -/
def State.setRes (s : State) (i : Fin 4) (v : Word64) : State := { s with res := s.res.set i v }

/-- Write all four of `RES0`-`RES3`. -/
def State.setAllRes (s : State) (q : Quad Word64) : State := { s with res := q }

/-- Replace scalar context `c`. -/
def State.setScalar (s : State) (c : Ctx) (x : ScalarCtx) : State :=
  { s with sctx := s.sctx.set c.toNat x }

/-- Replace vector context `c`. -/
def State.setVector (s : State) (c : Ctx) (x : VectorCtx) : State :=
  { s with vctx := s.vctx.set c.toNat x }

/-- Replace the entropy port. -/
def State.setEntropy (s : State) (p : EntropyPort) : State := { s with entropy := p }

/-- Replace host memory. -/
def State.setMem (s : State) (m : Memory) : State := { s with mem := m }

/-- Count one draw, so that the next one is fresh (log 15). -/
def State.countDraw (s : State) : State := { s with free := s.free + 1 }

/-- The transient state the running command stands at (R33). -/
def State.running (s : State) (t : Transient) : State := { s with transient := t }

/-- The command ends with code `e`: in one step `STATUS.ERR <- e` and `STATUS.BUSY <- 0` (R107). Its
transient state is gone (R33), and no byte is stale and no word disturbed any more (R49; log 28). -/
def State.complete (s : State) (e : StatusCode) : State :=
  { s with
    status := { s.status with busy := false, err := e }
    transient := .none
    stale := []
    disturbed := [] }

/-- `finish` (R107). -/
def State.finish (s : State) : State := s.complete .ok

/-- `raise e` (R107): the error is reported through `ERR` and in no other way. -/
def State.raise (s : State) (e : StatusCode) : State := s.complete e

/-- A host write of `w` to `CMD` is accepted: `CMD` takes the word, `BUSY <- 1`, `ERR <- 0`, `OVR` is
not changed (R21). Bytes stored since the host's last barrier are not ordered before it (R48 a, R127). -/
def State.accept (s : State) (w : Word32) : State :=
  { s with
    cmd := w
    status := { s.status with busy := true, err := .ok }
    transient := .none
    stale := s.unfenced
    disturbed := [] }

/-- The command word the engine decodes (R21: the word is decoded only after it is accepted). -/
def State.command (s : State) : Word32 := s.cmd

/-- Who moves next (R19; log 6). -/
def State.nextTurn (s : State) : Turn :=
  match s.turns with
  | t :: _ => t
  | [] => if s.status.busy then .engine else .host

/-- The turn is taken. -/
def State.popTurn (s : State) : State := { s with turns := s.turns.tail }

/-- Let `t` move before everyone else. -/
def State.pushTurn (s : State) (t : Turn) : State := { s with turns := t :: s.turns }

end Sys2Proof.Machine
end

