-- ==== Sys2Proof/Machine/Operands.lean ====
section
/-! DEFINITION. Operands: every `ARGi` is a full unsigned 64-bit value (30_encoding.md R56), a context
is named by CTX, and each command checks its operands before it does anything (60_exceptions.md R109). -/

namespace Sys2Proof.Machine

/-- The four operand registers, as the rules read them (R55). -/
def State.arg0 (s : State) : Word64 := s.arg 0
def State.arg1 (s : State) : Word64 := s.arg 1
def State.arg2 (s : State) : Word64 := s.arg 2
def State.arg3 (s : State) : Word64 := s.arg 3

/-- `SCTX[c]`; none where `c >= NS`. -/
def State.scalar? (s : State) (c : Ctx) : Option ScalarCtx := s.sctx[c.toNat]?

/-- `VCTX[c]`; none where `c >= NV`. -/
def State.vector? (s : State) (c : Ctx) : Option VectorCtx := s.vctx[c.toNat]?

/-- A command on an existing scalar context, whether valid or not; R57 (c) where there is none. -/
def withScalar (s : State) (c : Ctx) (k : ScalarCtx → State) : State :=
  match s.scalar? c with
  | none => s.raise .illegalCommand
  | some x => k x

/-- A command that reads scalar context `c`: R57 (c), then R111, in the order of R114. -/
def withValidScalar (s : State) (c : Ctx) (k : ScalarCtx → State) : State :=
  withScalar s c (fun x => if x.valid then k x else s.raise .contextInvalid)

/-- A command on an existing vector context, whether valid or not; R57 (d) where there is none. -/
def withVector (s : State) (c : Ctx) (k : VectorCtx → State) : State :=
  match s.vector? c with
  | none => s.raise .illegalCommand
  | some x => k x

/-- A command that reads vector context `c`: R57 (d), then R111, in the order of R114. -/
def withValidVector (s : State) (c : Ctx) (k : VectorCtx → State) : State :=
  withVector s c (fun x => if x.valid then k x else s.raise .contextInvalid)

/-- The command goes on where its operands are in range (R109). -/
def requireOperands (s : State) (ok : Bool) (k : State) : State :=
  if ok then k else s.raise .preconditionViolation

/-- `ValidNM(n, m)` (R80). -/
def validNM (n m : Word64) : Bool :=
  decide (n ≠ 0) && (decide (1 ≤ m.toNat) && (decide (m.toNat ≤ 64) &&
    (decide (m.toNat = 64) || decide (n.toNat < 2 ^ m.toNat))))

/-- `min < max`, unsigned (R98). -/
def boundedOK (lo hi : Word64) : Bool := decide (lo.toNat < hi.toNat)

/-- The checks of BINOMIAL (R103). -/
def binomialOK (k n m : Word64) : Bool := decide (k ≠ 0) && validNM n m

/-- A BitBuffer of `n` bits may stand at `base`: the address fits the port (R39), is 8-byte aligned, and
the extent ends inside the address space (R42). -/
def bufferOK (p : Config.Params) (base n : Word64) : Bool :=
  decide (base.toNat < 2 ^ p.addrW) && decide (base.toNat % 8 = 0)
    && decide (base.toNat + 8 * wordCount n.toNat ≤ 2 ^ p.addrW)

/-- The word extents of two buffers share an address (R85). -/
def overlaps (src n dest m : Word64) : Bool :=
  decide (src.toNat < dest.toNat + 8 * wordCount m.toNat)
    && decide (dest.toNat < src.toNat + 8 * wordCount n.toNat)

/-- `DebiasOK` (R85), with the address check of R39. -/
def debiasOK (p : Config.Params) (src n dest m : Word64) : Bool :=
  decide (n ≠ 0) && decide (n.toNat % 2 = 0) && decide (m ≠ 0)
    && bufferOK p src n && bufferOK p dest m && !overlaps src n dest m

/-- `AutocorrOK` (R91), with the address check of R39. -/
def autocorrOK (p : Config.Params) (src n k : Word64) : Bool :=
  decide (n ≠ 0) && decide (k.toNat < n.toNat) && bufferOK p src n

/-- The operand check of the DEBIAS whose operands stand in ARG0-ARG3. -/
def State.debiasOK (s : State) : Bool := Machine.debiasOK s.params s.arg0 s.arg1 s.arg2 s.arg3

/-- All four seeds are non-zero: VINIT's deterministic path (R77). -/
def seedsNonzero (q : Quad Word64) : Bool :=
  decide (q.v0 ≠ 0) && decide (q.v1 ≠ 0) && decide (q.v2 ≠ 0) && decide (q.v3 ≠ 0)

/-- All four seeds are zero: VINIT's entropy path (R77). -/
def seedsZero (q : Quad Word64) : Bool :=
  decide (q.v0 = 0) && decide (q.v1 = 0) && decide (q.v2 = 0) && decide (q.v3 = 0)

end Sys2Proof.Machine
end

