-- ==== Sys2Proof/Machine/Autocorr.lean ====
section
/-! DEFINITION. AUTOCORR (44_autocorr.md R91-R97). -/

namespace Sys2Proof.Machine

/-- The count in the middle of its loop: the position and the two counters. -/
structure CountRun where
  pos : Nat
  x1 : Nat
  x2 : Nat
deriving DecidableEq, Repr

/-- One position (R92): `one i` reads `src[i]`, `shifted j` reads `src[j]` for `j = (i+k) mod n`. -/
def countPosition (one shifted : Nat → Bool) (n k : Nat) (r : CountRun) : CountRun where
  pos := r.pos + 1
  x1 := if one r.pos && shifted ((r.pos + k) % n) then r.x1 + 1 else r.x1
  x2 := if one r.pos then r.x2 + 1 else r.x2

/-- The counts of R92. -/
def autocorrCounts (one shifted : Nat → Bool) (n k : Nat) : CountRun :=
  repeatWhile (fun r => decide (r.pos < n)) (countPosition one shifted n k) n ⟨0, 0, 0⟩

/-- `num` of R93, exact. -/
def autocorrNum (n x1 x2 : Nat) : Int := (n : Int) * x1 - (x2 : Int) * x2

/-- `den` of R93, exact: `x2 * (n - x2)`. -/
def autocorrDen (n x2 : Nat) : Nat := x2 * (n - x2)

/-- What AUTOCORR writes to RES0 and reports (R96). -/
def autocorrResult (n x1 x2 : Nat) : Word64 × StatusCode :=
  if autocorrDen n x2 = 0 then (0, .degenerateAutocorrelation)
  else
    let f := rne64 (autocorrNum n x1 x2) (autocorrDen n x2)
    if outsideUnit f then (0, .internalConsistency) else (f, .ok)

/-- The counts as the running command makes them, its operands in ARG0-ARG2. It reads each source bit twice: once
as `src[i]`, for both counts, and once as the shifted bit (R43 gives no number; DESIGN CHOICE, log 32). On a stale
or unsteady source the two can differ, so the result can be INTERNAL_CONSISTENCY there, which R94 excludes on a
source that keeps its bits (log 32). -/
def State.autocorrCounts (s : State) : CountRun :=
  Machine.autocorrCounts (sourceBit s s.arg0.toNat 0) (sourceBit s s.arg0.toNat 1) s.arg1.toNat
    s.arg2.toNat

/-- A read AUTOCORR needs gets an error response; it needs every source word (R45, R92). -/
def autocorrBusError (s : State) : Bool :=
  readErrs s.regions s.arg0.toNat (8 * wordCount s.arg1.toNat)

/-- AUTOCORR (R97). -/
def autocorrEffect (s : State) : State :=
  requireOperands s (autocorrOK s.params s.arg0 s.arg1 s.arg2) (
    let r := s.autocorrCounts
    let s' := (s.running (.autocorr r.x1 r.x2)).countDraw
    if autocorrBusError s then s'.raise .busError
    else
      let out := autocorrResult s.arg1.toNat r.x1 r.x2
      (s'.setRes 0 out.1).complete out.2)

def execAutocorr (s : State) : Host.Outcome State Fault Refusal := .next (autocorrEffect s)

end Sys2Proof.Machine
end

