-- ==== Sys2Proof/Machine/Generator.lean ====
section
/-! DEFINITION. The functions of the two generators: the seed mixer, the congruential steps and the
output permutations (40_mixer_scalar.md R61-R66, 41_vector.md R72-R76). A product is written with the
constant first, which the product of words allows: the kernel then never unfolds it along the constant. -/

namespace Sys2Proof.Machine

/-- The reference instance of `MIX64` (R62). -/
def mixRef (z : Word64) : Word64 :=
  let z := 0xBF58476D1CE4E5B9 * (z ^^^ (z >>> 30))
  let z := 0x94D049BB133111EB * (z ^^^ (z >>> 27))
  z ^^^ (z >>> 31)

/-- `MIX64` (R61). -/
def mix64 (p : Config.Params) (z : Word64) : Word64 :=
  match p.mix64 with
  | .reference => mixRef z
  | .other k => Config.otherMix64 k z

/-- `MULT64` (R10). -/
def mult64 : Word64 := 0x5851F42D4C957F2D

/-- The scalar congruential step (R63). -/
def step64 (cur inc : Word64) : Word64 := mult64 * cur + inc

/-- The reference instance of `PERM64` (R65). -/
def perm64Ref (x : Word64) : Word64 :=
  let sh := (x >>> 59).toNat + 5
  let word := 0xAEF17502108EF2D9 * ((x >>> sh) ^^^ x)
  (word >>> 43) ^^^ word

/-- `PERM64` (R64). -/
def perm64 (p : Config.Params) (x : Word64) : Word64 :=
  match p.perm64 with
  | .reference => perm64Ref x
  | .other k => Config.otherPerm64 k x

/-- The lane step (R72). -/
def step32 (p : Config.Params) (cur inc : Word32) : Word32 := p.mult32 * cur + inc

/-- The reference instance of `PERM32` (R74). -/
def perm32Ref (x : Word32) : Word32 :=
  let sh := (x >>> 28).toNat + 4
  let word := 0x108EF2D9 * ((x >>> sh) ^^^ x)
  (word >>> 22) ^^^ word

/-- `PERM32` (R73). -/
def perm32 (p : Config.Params) (x : Word32) : Word32 :=
  match p.perm32 with
  | .reference => perm32Ref x
  | .other k => Config.otherPerm32 k x

/-- `trunc_32` (R13). -/
def trunc32 (v : Word64) : Word32 := v.setWidth 32

/-- The first state of a scalar stream from a non-zero seed (R70). -/
def seedScalar (p : Config.Params) (seed : Word64) : ScalarCtx :=
  ⟨mix64 p seed, mix64 p (mix64 p seed) ||| 1, true⟩

/-- `seed32_cur` (R75). -/
def seed32Cur (p : Config.Params) (seed : Word64) : Word32 := trunc32 (mix64 p seed)

/-- `seed32_inc` (R75). -/
def seed32Inc (p : Config.Params) (seed : Word64) : Word32 := trunc32 (mix64 p (mix64 p seed)) ||| 1

/-- The first state of a vector stream from four non-zero seeds (R77). -/
def seedVector (p : Config.Params) (seeds : Quad Word64) : VectorCtx :=
  ⟨seeds.map (seed32Cur p), seeds.map (seed32Inc p), true⟩

/-- The word `Draw64` returns (R66): the permutation of the value before the step. -/
def ScalarCtx.out (p : Config.Params) (x : ScalarCtx) : Word64 := perm64 p x.cur

/-- The context after one `Draw64` (R66). -/
def ScalarCtx.advance (x : ScalarCtx) : ScalarCtx := { x with cur := step64 x.cur x.inc }

/-- `Draw32` of the 32-bit reference generator (R76): output, and the next state. -/
def draw32 (p : Config.Params) (cur inc : Word32) : Word32 × Word32 :=
  (perm32 p cur, step32 p cur inc)

/-- One lane of VNEXT (R78): two outputs, the first in the low half, and the state two steps on. -/
def laneOut (p : Config.Params) (cur inc : Word32) : Word64 :=
  perm32 p (step32 p cur inc) ++ perm32 p cur

def laneAdvance (p : Config.Params) (cur inc : Word32) : Word32 :=
  step32 p (step32 p cur inc) inc

/-- The four results of VNEXT (R78). -/
def VectorCtx.out (p : Config.Params) (x : VectorCtx) : Quad Word64 := Quad.zip (laneOut p) x.cur x.inc

/-- The context after VNEXT (R78). -/
def VectorCtx.advance (p : Config.Params) (x : VectorCtx) : VectorCtx :=
  { x with cur := Quad.zip (laneAdvance p) x.cur x.inc }

end Sys2Proof.Machine
end

