-- ==== Sys2Proof/Machine/Bias.lean ====
section
/-! DEFINITION. BIAS (42_bias.md R80-R84). -/

namespace Sys2Proof.Machine

/-- The bitcode VM in the middle of its loop: accumulator, bit index, and the context it draws from. -/
structure BiasRun where
  acc : Word64
  pc : Nat
  ctx : ScalarCtx
deriving DecidableEq, Repr

/-- One instruction of the VM (R81): a 1 bit of `n` ORs a draw in, a 0 bit ANDs it. -/
def biasStep (p : Config.Params) (n : Word64) (r : BiasRun) : BiasRun where
  acc := if n.getLsbD r.pc then r.acc ||| r.ctx.out p else r.acc &&& r.ctx.out p
  pc := r.pc + 1
  ctx := r.ctx.advance

/-- `BiasCore(c, n, m)` (R81), `x` being context `c`: from bit `ctz(n)` up to bit `m-1`. The bit index
rises from at least 0 to at most 64, so 64 rounds are enough. -/
def biasCore (p : Config.Params) (n m : Word64) (x : ScalarCtx) : BiasRun :=
  repeatWhile (fun r => decide (r.pc < m.toNat)) (biasStep p n) 64 ⟨0, ctz n, x⟩

/-- BIAS (R84). -/
def biasEffect (c : Ctx) (s : State) : State :=
  withValidScalar s c (fun x =>
    requireOperands s (validNM s.arg0 s.arg1) (
      let r := biasCore s.params s.arg0 s.arg1 x
      (((s.running (.bias r.acc r.pc)).setScalar c r.ctx).setRes 0 r.acc).finish))

def execBias (c : Ctx) (s : State) : Host.Outcome State Fault Refusal := .next (biasEffect c s)

end Sys2Proof.Machine
end

