-- ==== Sys2Proof/Machine/Bounded.lean ====
section
/-! DEFINITION. BOUNDED and BINOMIAL (45_bounded_binomial.md R98-R105). -/

namespace Sys2Proof.Machine

/-- `mask = 2^bitlen(span) - 1`, exact (R99). -/
def maskOf (span : Word64) : Word64 := BitVec.ofNat 64 (2 ^ bitlen span - 1)

/-- The rejection loop of R100, at most `fuel` draws: the first masked draw that is at most `span`, and
the context after it. -/
def rejectionLoop (p : Config.Params) (span mask : Word64) : Nat → ScalarCtx → Option (Word64 × ScalarCtx)
  | 0, _ => none
  | fuel + 1, x =>
    let v := x.out p &&& mask
    if v.toNat ≤ span.toNat then some (v, x.advance)
    else rejectionLoop p span mask fuel x.advance

/-- The number of values CUR has. A loop that has drawn that often without success has come back to a
CUR it has seen, and goes round for ever (R101; DEDUCED, log 7). -/
def drawsBeforeRepeat : Nat := 2 ^ 64

/-- BOUNDED (R102). Where no draw is ever accepted the command never completes: BUSY stays 1 (R101). -/
def boundedEffect (c : Ctx) (s : State) : State :=
  withValidScalar s c (fun x =>
    requireOperands s (boundedOK s.arg0 s.arg1) (
      let span := s.arg1 - s.arg0
      let mask := maskOf span
      match rejectionLoop s.params span mask drawsBeforeRepeat x with
      | some (v, x') =>
        (((s.running (.bounded span mask v)).setScalar c x').setRes 0 (v + s.arg0)).finish
      | none => s.running (.bounded span mask (x.out s.params &&& mask))))

def execBounded (c : Ctx) (s : State) : Host.Outcome State Fault Refusal := .next (boundedEffect c s)

/-- The binomial counter in the middle of its loop: the running sum, the number of full blocks done,
and the VM as the last block left it. -/
structure BinomialRun where
  sum : Nat
  block : Nat
  last : BiasRun
deriving DecidableEq, Repr

/-- One full block of 64 trials (R104). -/
def binomialBlock (p : Config.Params) (n m : Word64) (r : BinomialRun) : BinomialRun :=
  let b := biasCore p n m r.last.ctx
  ⟨r.sum + popcount b.acc, r.block + 1, b⟩

/-- The final partial block of `k mod 64` trials, if there is one: the top bits of one more word
(R104, conflict C3). -/
def binomialTail (p : Config.Params) (k n m : Word64) (r : BinomialRun) : BinomialRun :=
  if k.toNat % 64 = 0 then r
  else
    let b := biasCore p n m r.last.ctx
    ⟨r.sum + popcount (b.acc >>> (64 - k.toNat % 64)), r.block + 1, b⟩

/-- The block loop of R104. -/
def binomialCore (p : Config.Params) (k n m : Word64) (x : ScalarCtx) : BinomialRun :=
  binomialTail p k n m
    (repeatWhile (fun r => decide (r.block < k.toNat / 64)) (binomialBlock p n m) (k.toNat / 64)
      ⟨0, 0, ⟨0, 0, x⟩⟩)

/-- BINOMIAL (R105). -/
def binomialEffect (c : Ctx) (s : State) : State :=
  withValidScalar s c (fun x =>
    requireOperands s (binomialOK s.arg0 s.arg1 s.arg2) (
      let r := binomialCore s.params s.arg0 s.arg1 s.arg2 x
      (((s.running (.binomial r.last.acc r.last.pc r.sum r.block)).setScalar c r.last.ctx).setRes 0
        (BitVec.ofNat 64 r.sum)).finish))

def execBinomial (c : Ctx) (s : State) : Host.Outcome State Fault Refusal := .next (binomialEffect c s)

end Sys2Proof.Machine
end

