-- ==== Sys2Proof/Machine/Debias.lean ====
section
/-! DEFINITION. DEBIAS (43_debias.md R85-R90). -/

namespace Sys2Proof.Machine

/-- The pass in the middle of its loop: the two cursors, and the write positions that got a 1, the
latest first. -/
structure DebiasRun where
  used : Nat
  filled : Nat
  ones : List Nat
deriving DecidableEq, Repr

/-- Read one pair (R87): `01` emits a 1, `10` emits a 0, equal bits are discarded. -/
def debiasPair (bit : Nat → Bool) (r : DebiasRun) : DebiasRun :=
  match bit r.used, bit (r.used + 1) with
  | false, true => ⟨r.used + 2, r.filled + 1, r.filled :: r.ones⟩
  | true, false => ⟨r.used + 2, r.filled + 1, r.ones⟩
  | _, _ => ⟨r.used + 2, r.filled, r.ones⟩

/-- The pass of R87 over `n` source bits into `m` destination bits; `n` rounds are enough, since each
reads two bits. -/
def debiasPass (bit : Nat → Bool) (n m : Nat) : DebiasRun :=
  repeatWhile (fun r => decide (r.used < n) && decide (r.filled < m)) (debiasPair bit) n ⟨0, 0, []⟩

/-- Memory with every emitted 1 ORed in (R86, R87). -/
def orOnes (dest : Nat) (ones : List Nat) (m : Memory) : Memory :=
  ones.foldr (fun w m => orBit dest m w) m

/-- The pass as the running command makes it, its operands in ARG0-ARG3. -/
def State.debiasPass (s : State) : DebiasRun :=
  Machine.debiasPass (sourceBit s s.arg0.toNat 0) s.arg1.toNat s.arg3.toNat

/-- The address lies in a destination word (R44). -/
def State.inDest (s : State) (a : Nat) : Bool :=
  decide (s.arg2.toNat ≤ a) && decide (a < s.arg2.toNat + 8 * wordCount s.arg3.toNat)

/-- Memory with one stale byte taken as the engine reads it. -/
def State.settleByte (s : State) (r : StaleByte) (m : Memory) : Memory :=
  writeByte m r.addr (pickByte (readByte s.mem r.addr) r.seen (Config.freeDestChoice s.free r.addr))

/-- Memory with the stale bytes of the destination words as the engine reads them: the emitted bits are
ORed into those (R127). -/
def State.destSettled (s : State) : Memory :=
  (s.stale.filter (fun r => s.inDest r.addr)).foldr s.settleByte s.mem

/-- An access the result needs gets an error response: a source word that was read, a destination word
that a 1 goes to, a destination word whose contents surely change (R45; log 11). -/
def debiasNeedsBadAccess (s : State) (r : DebiasRun) (after : Memory) : Bool :=
  readErrs s.regions s.arg0.toNat (8 * wordCount r.used)
    || r.ones.any (fun w =>
      let a := bitWord s.arg2.toNat w
      readErrs s.regions a 8
        || (writeErrs s.regions a 8 && !unsteady s a && decide (readWord after a ≠ readWord s.destSettled a)))

/-- An access R44 allows gets an error response. -/
def debiasMayMakeBadAccess (s : State) : Bool :=
  readErrs s.regions s.arg0.toNat (8 * wordCount s.arg1.toNat)
    || writeErrs s.regions s.arg2.toNat (8 * wordCount s.arg3.toNat)

/-- The pass meets an error response: surely on an access it needs, possibly on one it need not make
(R43, R45; log 11). -/
def debiasBusError (s : State) (r : DebiasRun) (after : Memory) : Bool :=
  debiasNeedsBadAccess s r after || (debiasMayMakeBadAccess s && Config.extraAccess s.free)

/-- The destination words `pick` picks hold any value (R43, R45, R49, R123). -/
def State.destAnyValue (s : State) (pick : Nat → Bool) (m : Memory) : Memory :=
  overwriteWords (Config.freeWord s.free) pick s.arg2.toNat (wordCount s.arg3.toNat) m

/-- DEBIAS (R90). -/
def debiasEffect (s : State) : State :=
  requireOperands s s.debiasOK (
    let r := s.debiasPass
    let after := orOnes s.arg2.toNat r.ones s.destSettled
    let s' := (s.running (.debias r.used r.filled)).countDraw
    if debiasBusError s r after then
      (s'.setMem (s.destAnyValue (fun _ => true) s.mem)).raise .busError
    else
      (((s'.setMem (s.destAnyValue (unsteady s) after)).setRes 0 (BitVec.ofNat 64 r.used)).setRes 1
        (BitVec.ofNat 64 r.filled)).finish)

def execDebias (s : State) : Host.Outcome State Fault Refusal := .next (debiasEffect s)

end Sys2Proof.Machine
end

