-- ==== Sys2Proof/Machine/Entropy.lean ====
section
/-! DEFINITION. The entropy port and the bounded draws from it (10_state.md R31, 40_mixer_scalar.md
R68, R70, 41_vector.md R77). A failed draw is never turned into a value. -/

namespace Sys2Proof.Machine

/-- The answer the next attempt gets: the first listed one, or a draw (R31; log 9). -/
def EntropyPort.nextAnswer (p : EntropyPort) : EntropyAnswer :=
  match p.answers with
  | a :: _ => a
  | [] => ⟨Config.entropyOk p.attempts, Config.entropyValue p.attempts⟩

/-- The port after one attempt. -/
def EntropyPort.afterAttempt (p : EntropyPort) : EntropyPort := ⟨p.answers.tail, p.attempts + 1⟩

/-- At most `n` attempts, stopping at the first success (R68). -/
def entropyDrawIn : Nat → EntropyPort → Option Word64 × EntropyPort
  | 0, p => (none, p)
  | n + 1, p =>
    if p.nextAnswer.ok then (some p.nextAnswer.value, p.afterAttempt)
    else entropyDrawIn n p.afterAttempt

/-- `EntropyDraw64()` (R68). -/
def entropyDraw64 (p : EntropyPort) : Option Word64 × EntropyPort := entropyDrawIn entropyAttempts p

/-- Draw, and go on with the value; a failure ends the whole. -/
def afterDraw {α β : Type} (d : EntropyPort → Option α × EntropyPort)
    (k : α → EntropyPort → Option β × EntropyPort) (p : EntropyPort) : Option β × EntropyPort :=
  match d p with
  | (none, q) => (none, q)
  | (some v, q) => k v q

/-- A scalar stream from entropy: `current`, then `increment`, forced odd (R70). -/
def entropyScalar (p : EntropyPort) : Option ScalarCtx × EntropyPort :=
  afterDraw entropyDraw64 (fun cur =>
    afterDraw entropyDraw64 (fun inc q => (some ⟨cur, inc ||| 1, true⟩, q))) p

/-- One lane from entropy (R77): the low halves of two draws, the increment forced odd. -/
def entropyLane (p : EntropyPort) : Option (Word32 × Word32) × EntropyPort :=
  afterDraw entropyDraw64 (fun cur =>
    afterDraw entropyDraw64 (fun inc q => (some (trunc32 cur, trunc32 inc ||| 1), q))) p

/-- A vector stream from entropy, lanes 0, 1, 2, 3 in this order (R77). -/
def entropyVector (p : EntropyPort) : Option VectorCtx × EntropyPort :=
  afterDraw entropyLane (fun l0 => afterDraw entropyLane (fun l1 => afterDraw entropyLane (fun l2 =>
    afterDraw entropyLane (fun l3 q =>
      (some ⟨⟨l0.1, l1.1, l2.1, l3.1⟩, ⟨l0.2, l1.2, l2.2, l3.2⟩, true⟩, q))))) p

end Sys2Proof.Machine
end

