-- ==== Sys2Proof/Machine/Scalar.lean ====
section
/-! DEFINITION. MIX, INIT and NEXT (40_mixer_scalar.md R69-R71). -/

namespace Sys2Proof.Machine

/-- MIX: `RES0 <- MIX64(ARG0)` (R69). -/
def mixEffect (s : State) : State := (s.setRes 0 (mix64 s.params s.arg0)).finish

def execMix (s : State) : Host.Outcome State Fault Refusal := .next (mixEffect s)

/-- INIT's entropy path (R70): both draws succeed and the context is valid, or it becomes invalid and
keeps its old CUR and INC. -/
def initFromEntropy (s : State) (c : Ctx) (old : ScalarCtx) : State :=
  let (fresh, port) := entropyScalar s.entropy
  let s := (s.setEntropy port).running (.entropy (port.attempts - s.entropy.attempts))
  match fresh with
  | none => (s.setScalar c { old with valid := false }).raise .entropyUnavailable
  | some x => (s.setScalar c x).finish

/-- INIT (R70). -/
def initEffect (c : Ctx) (s : State) : State :=
  withScalar s c (fun old =>
    if s.arg0 ≠ 0 then (s.setScalar c (seedScalar s.params s.arg0)).finish
    else initFromEntropy s c old)

def execInit (c : Ctx) (s : State) : Host.Outcome State Fault Refusal := .next (initEffect c s)

/-- NEXT: `RES0 <- Draw64(c)` (R71). -/
def nextEffect (c : Ctx) (s : State) : State :=
  withValidScalar s c (fun x => ((s.setScalar c x.advance).setRes 0 (x.out s.params)).finish)

def execNext (c : Ctx) (s : State) : Host.Outcome State Fault Refusal := .next (nextEffect c s)

end Sys2Proof.Machine
end

