-- ==== Sys2Proof/Machine/Vector.lean ====
section
/-! DEFINITION. VINIT and VNEXT (41_vector.md R77, R78). -/

namespace Sys2Proof.Machine

/-- VINIT's entropy path (R77): all eight draws succeed, or the context becomes invalid and keeps its
old lanes. -/
def vinitFromEntropy (s : State) (c : Ctx) (old : VectorCtx) : State :=
  let (fresh, port) := entropyVector s.entropy
  let s := (s.setEntropy port).running (.entropy (port.attempts - s.entropy.attempts))
  match fresh with
  | none => (s.setVector c { old with valid := false }).raise .entropyUnavailable
  | some x => (s.setVector c x).finish

/-- VINIT (R77). -/
def vinitEffect (c : Ctx) (s : State) : State :=
  withVector s c (fun old =>
    if seedsNonzero s.args then (s.setVector c (seedVector s.params s.args)).finish
    else if seedsZero s.args then vinitFromEntropy s c old
    else s.raise .preconditionViolation)

def execVinit (c : Ctx) (s : State) : Host.Outcome State Fault Refusal := .next (vinitEffect c s)

/-- VNEXT (R78). -/
def vnextEffect (c : Ctx) (s : State) : State :=
  withValidVector s c (fun x =>
    ((s.setVector c (x.advance s.params)).setAllRes (x.out s.params)).finish)

def execVnext (c : Ctx) (s : State) : Host.Outcome State Fault Refusal := .next (vnextEffect c s)

end Sys2Proof.Machine
end

