-- ==== Sys2Proof/Machine/Dispatch.lean ====
section
/-! DEFINITION. One arm for each command of the opcode table. -/

namespace Sys2Proof.Machine

def exec (i : Instr) (s : State) : Host.Outcome State Fault Refusal :=
  match i with
  | .mix => Sys2Proof.Machine.execMix s
  | .init c => Sys2Proof.Machine.execInit c s
  | .next c => Sys2Proof.Machine.execNext c s
  | .bounded c => Sys2Proof.Machine.execBounded c s
  | .bias c => Sys2Proof.Machine.execBias c s
  | .binomial c => Sys2Proof.Machine.execBinomial c s
  | .debias => Sys2Proof.Machine.execDebias s
  | .autocorr => Sys2Proof.Machine.execAutocorr s
  | .vinit c => Sys2Proof.Machine.execVinit c s
  | .vnext c => Sys2Proof.Machine.execVnext c s

end Sys2Proof.Machine
end

