-- ==== Sys2Proof/WellFormed.lean ====
section
/-! DEFINITION. Well-formed commands for an engine with `ns` scalar and `nv` vector contexts:
30_encoding.md R57 (c) and (d). R57 (a), (b) and (e) are the decoder's: no term of Instr has an
illegal opcode, a non-zero RSV field, or a CTX field that must be 0 and is not. -/

namespace Sys2Proof

/-- R57 (c), (d): the context a command names exists. -/
def Instr.wellFormed (ns nv : Nat) (i : Instr) : Bool :=
  match i.ctx? with
  | none => true
  | some (.scalar, c) => decide (c.toNat < ns)
  | some (.vector, c) => decide (c.toNat < nv)

end Sys2Proof
end

