-- ==== Sys2Proof/Decode.lean ====
section
/-! DEFINITION. Decoding of a command word, total and rejecting by name, and the encoder
(30_encoding.md R53-R57). `CTX >= NS` and `CTX >= NV` depend on the engine, not on the word; each
meaning checks them first (R57 (c), (d); log 17). -/

namespace Sys2Proof

/-- Why a command word is illegal (R57), or why bytes hold no command word. -/
inductive DecodeError where
  /-- R57 (a): OPC is 0x00 or in 0x0B-0xFF. -/
  | illegalOpcode (opc : BitVec 8)
  /-- R57 (b): RSV is not 0. -/
  | reservedNonzero (rsv : BitVec 16)
  /-- R57 (e): CTX is not 0 in a command that uses no context. -/
  | ctxNonzero (c : Ctx)
  /-- Fewer than four bytes were given (R54: every command is 32 bits). -/
  | truncated
deriving DecidableEq, Repr

/-- What decoding answers. -/
inductive Decoded where
  | ok (i : Instr)
  | illegal (e : DecodeError)
deriving DecidableEq, Repr

/-- The fields of format CW (R53). -/
def fieldOpc (w : Word32) : BitVec 8 := w.extractLsb' 0 8
def fieldCtx (w : Word32) : Ctx := w.extractLsb' 8 8
def fieldRsv (w : Word32) : BitVec 16 := w.extractLsb' 16 16

/-- A command whose CTX field must be 0 (R57 (e)). -/
def withoutCtx (c : Ctx) (i : Instr) : Decoded :=
  if c = 0 then .ok i else .illegal (.ctxNonzero c)

/-- The opcode map of R55. -/
def decodeFields (opc : BitVec 8) (c : Ctx) : Decoded :=
  match opc.toNat with
  | 0x01 => withoutCtx c .mix
  | 0x02 => .ok (.init c)
  | 0x03 => .ok (.next c)
  | 0x04 => .ok (.bounded c)
  | 0x05 => .ok (.bias c)
  | 0x06 => .ok (.binomial c)
  | 0x07 => withoutCtx c .debias
  | 0x08 => withoutCtx c .autocorr
  | 0x09 => .ok (.vinit c)
  | 0x0A => .ok (.vnext c)
  | _ => .illegal (.illegalOpcode opc)

/-- Decode a command word (R53, R55, R57). -/
def decode (w : Word32) : Decoded :=
  if fieldRsv w = 0 then decodeFields (fieldOpc w) (fieldCtx w)
  else .illegal (.reservedNonzero (fieldRsv w))

/-- A 32-bit word from its bytes, the byte at the lowest address first (R38: little-endian). -/
def wordOfBytes (b0 b1 b2 b3 : Byte) : Word32 := b3 ++ b2 ++ b1 ++ b0

/-- Decode from the bytes of a command word, lowest address first; further bytes are not part of it
(R54). -/
def decodeBytes : List Byte → Decoded
  | b0 :: b1 :: b2 :: b3 :: _ => decode (wordOfBytes b0 b1 b2 b3)
  | _ => .illegal .truncated

/-- The opcode of a command (R55). -/
def Instr.opcode : Instr → BitVec 8
  | .mix => 0x01
  | .init _ => 0x02
  | .next _ => 0x03
  | .bounded _ => 0x04
  | .bias _ => 0x05
  | .binomial _ => 0x06
  | .debias => 0x07
  | .autocorr => 0x08
  | .vinit _ => 0x09
  | .vnext _ => 0x0A

/-- The CTX field of a command: its context index, or 0 (R53). -/
def Instr.ctxField (i : Instr) : Ctx :=
  match i.ctx? with
  | none => 0
  | some (_, c) => c

/-- The command word of a command: `(N << 8) | OPC` with RSV = 0 (R53, R58). -/
def encode (i : Instr) : Word32 := (0 : BitVec 16) ++ i.ctxField ++ i.opcode

/-- One row of the opcode table: the bits `mask` selects must equal `pattern`. -/
structure OpcodeRow where
  mnemonic : String
  mask : Word32
  pattern : Word32
deriving DecidableEq, Repr

/-- The rows of spec/opcode_table.json, 'mask' and 'match' as the table has them. -/
def opcodeRows : List OpcodeRow :=
  [⟨"MIX", 0xFFFFFFFF, 0x00000001⟩, ⟨"INIT", 0xFFFF00FF, 0x00000002⟩,
   ⟨"NEXT", 0xFFFF00FF, 0x00000003⟩, ⟨"BOUNDED", 0xFFFF00FF, 0x00000004⟩,
   ⟨"BIAS", 0xFFFF00FF, 0x00000005⟩, ⟨"BINOMIAL", 0xFFFF00FF, 0x00000006⟩,
   ⟨"DEBIAS", 0xFFFFFFFF, 0x00000007⟩, ⟨"AUTOCORR", 0xFFFFFFFF, 0x00000008⟩,
   ⟨"VINIT", 0xFFFF00FF, 0x00000009⟩, ⟨"VNEXT", 0xFFFF00FF, 0x0000000A⟩]

/-- The row of the table a word fits, if any. -/
def rowOf? (w : Word32) : Option OpcodeRow :=
  opcodeRows.find? (fun r => decide (w &&& r.mask = r.pattern))

/-- The command word the table's numbering gives: `w` in its low `nbits` bits, 0 above. -/
def tableWord (nbits w : Nat) : Word32 := BitVec.ofNat 32 (w % 2 ^ nbits)

/-- The instruction the decoder reads from an instruction whose bits are `w`, numbered as the opcode
table numbers them: the four bytes are laid out little-endian (R38) and decoded. -/
def decodeTableWord (nbits w : Nat) : Option Instr :=
  let v := tableWord nbits w
  match decodeBytes [v.extractLsb' 0 8, v.extractLsb' 8 8, v.extractLsb' 16 8, v.extractLsb' 24 8] with
  | .ok i => some i
  | .illegal _ => none

end Sys2Proof
end

