-- ==== Sys2Proof/Machine/Window.lean ====
section
/-! DEFINITION. The register window as the host sees it (10_state.md R20-R26, 20_memory.md R38). -/

namespace Sys2Proof.Machine

/-- What stands at an offset of the window (R20). -/
inductive WindowReg where
  | cmd
  | status
  | param
  | arg (i : Fin 4)
  | res (i : Fin 4)
  | reserved
deriving DecidableEq, Repr

/-- The map of R20, by 32-bit slot. -/
def windowReg (off : Nat) : WindowReg :=
  match off / 4 with
  | 0 => .cmd
  | 1 => .status
  | 2 => .param
  | 4 => .arg 0
  | 5 => .arg 0
  | 6 => .arg 1
  | 7 => .arg 1
  | 8 => .arg 2
  | 9 => .arg 2
  | 10 => .arg 3
  | 11 => .arg 3
  | 12 => .res 0
  | 13 => .res 0
  | 14 => .res 1
  | 15 => .res 1
  | 16 => .res 2
  | 17 => .res 2
  | 18 => .res 3
  | 19 => .res 3
  | _ => .reserved

/-- The accesses of R38 that are not refused: 32-bit at a multiple of 4, 64-bit at a multiple of 8 from
0x010 on. -/
def accessAllowed (w : Width) (off : Nat) : Bool :=
  match w with
  | .w8 => false
  | .w16 => false
  | .w32 => decide (off % 4 = 0)
  | .w64 => decide (off % 8 = 0) && decide (0x10 ≤ off)

/-- Offset `+4` of a 64-bit register reaches its bits 63:32 (R38). -/
def isHighHalf (off : Nat) : Bool := decide (off % 8 = 4)

/-- The part of a 64-bit register that a read of width `w` at `off` returns, zero-extended (R38). -/
def readPart (w : Width) (off : Nat) (v : Word64) : Word64 :=
  match w with
  | .w64 => v
  | .w8 | .w16 | .w32 => if isHighHalf off then v >>> 32 else v &&& 0xFFFFFFFF

/-- A 64-bit register after a write of width `w` at `off`: each half is written alone (R38). -/
def writePart (w : Width) (off : Nat) (old v : Word64) : Word64 :=
  match w with
  | .w64 => v
  | .w8 | .w16 | .w32 =>
    if isHighHalf off then trunc32 v ++ trunc32 old else old.extractLsb' 32 32 ++ trunc32 v

/-- The host wrote `CMD` or an `ARGi` while BUSY: dropped, `OVR <- 1` (R23). -/
def State.overrun (s : State) : State := { s with status := { s.status with ovr := true } }

/-- Replace `ARG[i]`. -/
def State.setArg (s : State) (i : Fin 4) (v : Word64) : State := { s with args := s.args.set i v }

/-- A host read of the window: the value and the state after it; none where it is refused (R38), as every
access is while reset is asserted (R122). A `RESi` read while BUSY is a draw (R23). -/
def windowRead (s : State) (w : Width) (off : Nat) : Option (Word64 × State) :=
  if accessAllowed w off && !s.inReset then
    match windowReg off with
    | .cmd => some (s.cmd.setWidth 64, s)
    | .status => some ((statusWord s.status).setWidth 64, s)
    | .param => some ((paramWord s).setWidth 64, s)
    | .arg i => some (readPart w off (s.args.get i), s)
    | .res i =>
      if s.status.busy then some (readPart w off (Config.freeWord s.free off), s.countDraw)
      else some (readPart w off (s.res.get i), s)
    | .reserved => some (0, s)
  else none

/-- A host write to the window; none where it is refused (R38, R122). -/
def windowWrite (s : State) (w : Width) (off : Nat) (v : Word64) : Option State :=
  if accessAllowed w off && !s.inReset then
    match windowReg off with
    | .cmd => some (if s.status.busy then s.overrun else s.accept (trunc32 v))
    | .status => some { s with status := writeStatus s.status (trunc32 v) }
    | .param => some s
    | .arg i =>
      some (if s.status.busy then s.overrun else s.setArg i (writePart w off (s.args.get i) v))
    | .res _ => some s
    | .reserved => some s
  else none

end Sys2Proof.Machine
end

