-- ==== Sys2Proof/Machine/HostAgent.lean ====
section
/-! DEFINITION. The host agent: its loads and stores, its ordering against the engine, and the notation
of its programs (10_state.md R19, 20_memory.md R38, R48, R49, 30_encoding.md R58, R59; log 19). -/

namespace Sys2Proof.Machine

/-- Bytes of an access. -/
def Width.bytes : Width → Nat
  | .w8 => 1
  | .w16 => 2
  | .w32 => 4
  | .w64 => 8

/-- What a host load answers: a value, an error response (R38), or a stop of the model. -/
inductive Loaded where
  | value (v : Word64) (s : State)
  | refused
  | stops (f : Fault)

/-- What a host store answers. -/
inductive Stored where
  | done (s : State)
  | refused
  | stops (f : Fault)

/-- The address lies in the register window (R20). An access that starts below it and reaches into it is
misaligned, and is refused as a window access (`hostLoad`, `hostStore`; DESIGN CHOICE, log 29). -/
def inWindow (p : Config.Params) (a : Nat) : Bool :=
  decide (p.mmioBase.toNat ≤ a) && decide (a < p.mmioBase.toNat + 256)

/-- The running command is a DEBIAS that names some of the `len` bytes at `a` as its destination, whether or not its
checks will refuse it (R49, R128, R129). Which bytes operands out of range name is settled in log 30 (DESIGN
CHOICE). -/
def destBusy (s : State) (a len : Nat) : Bool :=
  s.status.busy && decide (decode s.command = .ok .debias) && decide (s.arg2.toNat < a + len)
    && decide (a < s.arg2.toNat + 8 * wordCount s.arg3.toNat)

/-- The low `n` bytes of a word: a narrow load is zero-extended (DESIGN CHOICE, log 26). -/
def lowBytes (n : Nat) (v : Word64) : Word64 := BitVec.ofNat 64 (v.toNat % 256 ^ n)

/-- A host load at address `a` of the host address space, at any alignment outside the window (R20, R58). A
device register, and a destination word of the running DEBIAS, read as a draw (R43, R49); so does the whole of a
load that has one byte there (DESIGN CHOICE, logs 14, 31). -/
def hostLoad (s : State) (w : Width) (a : Nat) : Loaded :=
  if meetsWindow s.params a w.bytes then
    if inWindow s.params a then
      match windowRead s w (a - s.params.mmioBase.toNat) with
      | some (v, s') => .value v s'
      | none => .refused
    else .refused
  else if noMemory s.regions a w.bytes then .stops .hostMemoryAbsent
  else if deviceAt s.regions a w.bytes || destBusy s a w.bytes then
    .value (lowBytes w.bytes (Config.freeWord s.free a)) s.countDraw
  else .value (BitVec.ofNat 64 (readLE s.mem a w.bytes)) s

/-- The word that holds the byte at `a`; a store marks all of it while a command runs (log 27). -/
def wordAddress (a : Nat) : Nat := a - a % 8

/-- Add an address to a list of addresses without repeats. -/
def addAddress (a : Nat) (l : List Nat) : List Nat := if l.contains a then l else a :: l

/-- The byte at `a` went from `old` to `new` without a barrier: it may read as either, and as what it could
read as before (R127). -/
def noteByte (a : Nat) (old new : Byte) : List StaleByte → List StaleByte
  | [] => [⟨a, [new, old]⟩]
  | r :: t => if r.addr = a then ⟨a, new :: old :: r.seen⟩ :: t else r :: noteByte a old new t

/-- The `n` bytes from `a` on are stored to, with the low bytes of `v`; `m` is memory before. -/
def noteBytes (m : Memory) (a : Nat) : Nat → Nat → List StaleByte → List StaleByte
  | 0, _, l => l
  | n + 1, v, l => noteBytes m (a + 1) n (v / 256) (noteByte a (readByte m a) (BitVec.ofNat 8 v) l)

/-- The words that hold the `n` bytes from `a` on, at most eight bytes, are disturbed. -/
def disturbWords (a n : Nat) (l : List Nat) : List Nat :=
  addAddress (wordAddress a) (addAddress (wordAddress (a + n - 1)) l)

/-- The low `n` bytes of `v` are about to be stored at `a`: not ordered before the next command until a
barrier (R48 a, R127), and disturbing for a command that runs now (R49). -/
def State.noteStore (s : State) (a n v : Nat) : State :=
  { s with
    unfenced := noteBytes s.mem a n v s.unfenced
    disturbed := if s.status.busy then disturbWords a n s.disturbed else s.disturbed }

/-- A host store at address `a` of the host address space, at any alignment outside the window. A device's own
behaviour is not modelled (R43; log 14). -/
def hostStore (s : State) (w : Width) (a : Nat) (v : Word64) : Stored :=
  if meetsWindow s.params a w.bytes then
    if inWindow s.params a then
      match windowWrite s w (a - s.params.mmioBase.toNat) v with
      | some s' => .done s'
      | none => .refused
    else .refused
  else if noMemory s.regions a w.bytes then .stops .hostMemoryAbsent
  else if deviceAt s.regions a w.bytes then .done s
  else .done ((s.noteStore a w.bytes v.toNat).setMem (writeLE s.mem a w.bytes v.toNat))

/-- The host's store barrier (R48 a, R58 `fence`): its stores so far are ordered before the next command. It
stands for the cleaning of a non-coherent cache too (R52; DESIGN CHOICE, log 21). -/
def State.fence (s : State) : State := { s with unfenced := [] }

/-- Host variable `r` (R58). -/
def State.hostVar (s : State) (r : Nat) : Word64 := s.host.vars.getD r 0

/-- The value of a host operand. -/
def State.hostVal (s : State) : HostVal → Word64
  | .imm v => v
  | .var r => s.hostVar r

/-- A list of variables with number `r` replaced, padded with 0. -/
def setVar : Nat → Word64 → List Word64 → List Word64
  | 0, v, [] => [v]
  | 0, v, _ :: t => v :: t
  | r + 1, v, [] => 0 :: setVar r v []
  | r + 1, v, x :: t => x :: setVar r v t

/-- The host goes on at position `pos` of its program. -/
def State.hostAt (s : State) (pos : Nat) : State := { s with host := { s.host with pos := pos } }

/-- The host goes on with the next instruction. -/
def State.hostNext (s : State) : State := s.hostAt (s.host.pos + 1)

/-- The host writes variable `r` and goes on. -/
def State.hostSet (s : State) (r : Nat) (v : Word64) : State :=
  { s with host := { s.host with vars := setVar r v s.host.vars, pos := s.host.pos + 1 } }

/-- The host takes a fault and stands there; the engine is not touched (R38). -/
def State.hostStop (s : State) : State := { s with host := { s.host with stopped := true } }

/-- A load was refused: the host sees `MMIO_ERR_RESPONSE` (R38). -/
def State.loadRefused (s : State) (r : Nat) : State :=
  match s.params.mmioErr with
  | some v => s.hostSet r v
  | none => s.hostStop

/-- A store was refused: the host goes on, or takes a fault, as `MMIO_ERR_RESPONSE` says (R38). -/
def State.storeRefused (s : State) : State :=
  match s.params.mmioErr with
  | some _ => s.hostNext
  | none => s.hostStop

/-- One instruction of the host's program (R58). -/
def hostExec (i : HostInstr) (s : State) : Host.Outcome State Fault Refusal :=
  match i with
  | .store w addr v =>
    match hostStore s w (s.hostVal addr).toNat (s.hostVal v) with
    | .done s' => .next s'.hostNext
    | .refused => .next s.storeRefused
    | .stops f => .fault f
  | .load w r addr =>
    match hostLoad s w (s.hostVal addr).toNat with
    | .value v s' => .next (s'.hostSet r v)
    | .refused => .next (s.loadRefused r)
    | .stops f => .fault f
  | .li r v => .next (s.hostSet r (s.hostVal v))
  | .and r x y => .next (s.hostSet r (s.hostVal x &&& s.hostVal y))
  | .shr r x y => .next (s.hostSet r (s.hostVal x >>> (s.hostVal y).toNat))
  | .add r x y => .next (s.hostSet r (s.hostVal x + s.hostVal y))
  | .bnz x t => .next (if s.hostVal x ≠ 0 then s.hostAt t else s.hostNext)
  | .bz x t => .next (if s.hostVal x = 0 then s.hostAt t else s.hostNext)
  | .b t => .next (s.hostAt t)
  | .fence => .next s.fence.hostNext

/-- A host turn: one instruction of its program; nothing past its end or at a host fault. Stores of other
bus masters are host stores too (log 23). -/
def hostTurn (s : State) : Host.Outcome State Fault Refusal :=
  if s.host.stopped then .next s
  else match s.host.prog[s.host.pos]? with
    | none => .next s
    | some i => hostExec i s

/-! The window forms of R58, `base` being `MMIO_BASE`, and the pseudo-instructions of R59, `at_` being
the position the expansion stands at in the program and `t` the host variable WAIT polls into. -/

def hostWr32 (base : Word64) (off : Nat) (v : HostVal) : HostInstr :=
  .store .w32 (.imm (base + BitVec.ofNat 64 off)) v
def hostWr64 (base : Word64) (off : Nat) (v : HostVal) : HostInstr :=
  .store .w64 (.imm (base + BitVec.ofNat 64 off)) v
def hostRd32 (base : Word64) (rX off : Nat) : HostInstr :=
  .load .w32 rX (.imm (base + BitVec.ofNat 64 off))
def hostRd64 (base : Word64) (rX off : Nat) : HostInstr :=
  .load .w64 rX (.imm (base + BitVec.ofNat 64 off))
def hostMw64 (addr v : HostVal) : HostInstr := .store .w64 addr v
def hostMr64 (rX : Nat) (addr : HostVal) : HostInstr := .load .w64 rX addr

/-- `ISSUE OP cN`. -/
def hostIssue (base : Word64) (i : Instr) : List HostInstr :=
  [hostWr32 base 0x000 (.imm ((encode i).setWidth 64))]

/-- `WAIT`. -/
def hostWait (base : Word64) (at_ t : Nat) : List HostInstr :=
  [hostRd32 base t 0x004, .and t (.var t) (.imm 1), .bnz (.var t) at_]

/-- `ERR rX`. -/
def hostErr (base : Word64) (rX : Nat) : List HostInstr :=
  [hostRd32 base rX 0x004, .shr rX (.var rX) (.imm 8), .and rX (.var rX) (.imm 0xF)]

/-- `RUN OP cN, a0, ...`: the listed operands, at most four, then ISSUE and WAIT. -/
def hostRun (base : Word64) (at_ t : Nat) (i : Instr) (operands : List HostVal) : List HostInstr :=
  let writes := (operands.zip [0x010, 0x018, 0x020, 0x028]).map (fun p => hostWr64 base p.2 p.1)
  writes ++ hostIssue base i ++ hostWait base (at_ + writes.length + 1) t

end Sys2Proof.Machine
end

