-- ==== Sys2Proof/Machine/Reset.lean ====
section
/-! DEFINITION. The reset input (70_reset_and_hazards.md R122-R124; log 16). -/

namespace Sys2Proof.Machine

/-- An entropy path that would leave the port at `whole` is abandoned after any number of its attempts, the
last of them perhaps in progress (R68, R123). -/
def State.abandonAttempts (s : State) (whole : EntropyPort) : State :=
  let n := min (Config.freeCount s.free) (whole.attempts - s.entropy.attempts)
  (s.setEntropy ⟨s.entropy.answers.drop n, s.entropy.attempts + n⟩).countDraw

/-- What the abandoned command leaves outside the registers (R123): DEBIAS's destination words any value,
the entropy attempts made so far used up, else nothing. A command that its checks turn away accesses no
port, and leaves nothing (R57, R108, R109; DEDUCED, log 16). -/
def abortEffect (i : Instr) (s : State) : State :=
  match i with
  | .mix => s
  | .init c =>
    if (s.scalar? c).isSome && decide (s.arg0 = 0) then s.abandonAttempts (entropyScalar s.entropy).2 else s
  | .next _ => s
  | .bounded _ => s
  | .bias _ => s
  | .binomial _ => s
  | .debias =>
    if s.debiasOK then (s.setMem (s.destAnyValue (fun _ => true) s.mem)).countDraw else s
  | .autocorr => s
  | .vinit c =>
    if (s.vector? c).isSome && seedsZero s.args then s.abandonAttempts (entropyVector s.entropy).2 else s
  | .vnext _ => s

/-- A command that runs when reset is asserted ends at once (R123). -/
def State.abort (s : State) : State :=
  if s.status.busy then
    match decode s.command with
    | .ok i => abortEffect i s
    | .illegal _ => s
  else s

/-- Reset is asserted: the running command ends, no status is reported (R122, R123). The registers keep
their values until the release, where nothing can see them (DESIGN CHOICE, log 25). -/
def State.assertReset (s : State) : State :=
  let s := s.abort
  { s with
    inReset := true
    status := { s.status with busy := false }
    transient := .none
    stale := []
    disturbed := [] }

/-- Every piece of engine state takes its value of R37; host memory, the entropy source and the host are
not touched (R124). -/
def State.resetRegisters (s : State) : State :=
  { s with
    cmd := 0
    status := ⟨false, false, .ok⟩
    args := Quad.all 0
    res := Quad.all 0
    sctx := s.sctx.map (fun _ => ScalarCtx.reset)
    vctx := s.vctx.map (fun _ => VectorCtx.reset)
    transient := .none
    stale := []
    disturbed := [] }

/-- Reset is released: the engine is idle with the values of R37 (R122). -/
def State.releaseReset (s : State) : State :=
  if s.inReset then { s.resetRegisters with inReset := false } else s

/-- The platform changes which memory answers how (R47). -/
def State.remap (s : State) (rs : List Region) : State := { s with regions := rs }

end Sys2Proof.Machine
end

