-- ==== Sys2Proof/Machine/Step.lean ====
section
/-! DEFINITION. One step: the agent whose turn it is moves (10_state.md R19; log 6). -/

namespace Sys2Proof.Machine

/-- The engine's turn: it runs the accepted command to its end (logs 5, 22). An idle engine, and one held in
reset, does nothing (R122, R124). -/
def engineTurn (s : State) : Host.Outcome State Fault Refusal :=
  if s.status.busy && !s.inReset then
    match decode s.command with
    | .ok i => exec i s
    | .illegal _ => .next (s.raise .illegalCommand)
  else .next s

def step (s : State) : Host.Outcome State Fault Refusal :=
  match s.nextTurn with
  | .engine => engineTurn s.popTurn
  | .host => hostTurn s.popTurn
  | .assertReset => .next s.popTurn.assertReset
  | .releaseReset => .next s.popTurn.releaseReset
  | .remap rs => .next (s.popTurn.remap rs)

/-- `s` with the command of bits `w` accepted, reset not asserted, and the engine to move: the very next
step decodes and runs it (log 20). -/
def State.withFetchWord (s : State) (nbits w : Nat) : State :=
  ({ s with inReset := false }.accept (tableWord nbits w)).pushTurn .engine

end Sys2Proof.Machine
end

