-- ==== Sys2Proof/Safety.lean ====
section
/-! DEFINITION. What claims are stated with: the invariant of every reachable state, ordinary buffers,
and which parts of the state a command leaves alone. -/

namespace Sys2Proof.Machine

/-- A valid scalar context has an odd increment (R27). -/
abbrev ScalarCtx.Odd (x : ScalarCtx) : Prop := x.valid = true → x.inc.getLsbD 0 = true

/-- Every lane of a valid vector context has an odd increment (R28). -/
abbrev VectorCtx.Odd (x : VectorCtx) : Prop :=
  x.valid = true → x.inc.v0.getLsbD 0 = true ∧ x.inc.v1.getLsbD 0 = true ∧ x.inc.v2.getLsbD 0 = true
    ∧ x.inc.v3.getLsbD 0 = true

/-- What holds in every state the machine reaches. -/
structure State.Inv (s : State) : Prop where
  /-- `1 <= NS <= 256` (R10). -/
  scalarCount : 1 ≤ s.sctx.length ∧ s.sctx.length ≤ 256
  /-- `1 <= NV <= 256` (R10). -/
  vectorCount : 1 ≤ s.vctx.length ∧ s.vctx.length ≤ 256
  /-- The ranges of `ADDR_W` and `MMIO_BASE` (R10). -/
  paramsInRange : s.params.wellFormed = true
  /-- The oddness invariant of R27. -/
  scalarOdd : ∀ x ∈ s.sctx, x.Odd
  /-- The oddness invariant of R28. -/
  vectorOdd : ∀ x ∈ s.vctx, x.Odd
  /-- Host memory keeps its canonical form. -/
  memCanonical : s.mem.wf
  /-- Host memory lies in the address space. -/
  memInSpace : ∀ c ∈ s.mem, c.1 < 2 ^ 64
  /-- `ERR` is 0 while a command is running (R22). -/
  busyErrOk : s.status.busy = true → s.status.err = .ok
  /-- Transient state exists only while a command runs (R33). -/
  idleNoTransient : s.status.busy = false → s.transient = .none
  /-- No command runs while reset is asserted (R123). -/
  resetIdle : s.inReset = true → s.status.busy = false

/-- The words of the buffer of `n` bits at `base` are what is in memory, as the running command sees them:
none is unsteady, and none has a stale byte. -/
def SteadyBuffer (s : State) (base n : Nat) : Prop :=
  (∀ k, k < wordCount n → unsteady s (base + 8 * k) = false) ∧
    ∀ r ∈ s.stale, ¬(base ≤ r.addr ∧ r.addr < base + 8 * wordCount n)

/-- No read of the buffer of `n` bits at `base` gets an error response. -/
def ReadableBuffer (s : State) (base n : Nat) : Prop := readErrs s.regions base (8 * wordCount n) = false

/-- No access to the buffer of `n` bits at `base` gets an error response. -/
def ErrorFreeBuffer (s : State) (base n : Nat) : Prop :=
  readErrs s.regions base (8 * wordCount n) = false ∧ writeErrs s.regions base (8 * wordCount n) = false

/-- `t` is `s` with a command ended with code `e`, apart from RES, the contexts, memory, the entropy port
and the draw counter: BUSY is 0, ERR is `e`, nothing else of the engine, the host or the platform has
changed. -/
structure CompletedFrom (s t : State) (e : StatusCode) : Prop where
  busy : t.status.busy = false
  err : t.status.err = e
  ovr : t.status.ovr = s.status.ovr
  cmd : t.cmd = s.cmd
  args : t.args = s.args
  transient : t.transient = .none
  stale : t.stale = []
  disturbed : t.disturbed = []
  inReset : t.inReset = s.inReset
  params : t.params = s.params
  regions : t.regions = s.regions
  unfenced : t.unfenced = s.unfenced
  host : t.host = s.host
  turns : t.turns = s.turns

/-- `t` has the scalar contexts of `s`, but for context `c`. -/
def SameScalarBut (c : Ctx) (s t : State) : Prop :=
  t.sctx.length = s.sctx.length ∧ ∀ k, k ≠ c.toNat → t.sctx[k]? = s.sctx[k]?

/-- `t` has the vector contexts of `s`, but for context `c`. -/
def SameVectorBut (c : Ctx) (s t : State) : Prop :=
  t.vctx.length = s.vctx.length ∧ ∀ k, k ≠ c.toNat → t.vctx[k]? = s.vctx[k]?

/-- Every byte of memory reads as before. -/
def SameBytes (s t : State) : Prop := ∀ a, readByte t.mem a = readByte s.mem a

/-- Every byte outside `[base, base+len)` reads as before. -/
def SameBytesOutside (base len : Nat) (s t : State) : Prop :=
  ∀ a, ¬(base ≤ a ∧ a < base + len) → readByte t.mem a = readByte s.mem a

/-- The scalar context after `n` draws (R66). -/
def advanceBy (n : Nat) (x : ScalarCtx) : ScalarCtx := ScalarCtx.advance^[n] x

/-- The word that draw number `i`, counted from 0, returns (R66). -/
def drawWord (p : Config.Params) (x : ScalarCtx) (i : Nat) : Word64 := (advanceBy i x).out p

/-- Draw number `i` of BOUNDED, masked (R100). -/
def maskedDraw (p : Config.Params) (x : ScalarCtx) (mask : Word64) (i : Nat) : Word64 :=
  drawWord p x i &&& mask

/-! ## Terms of the rules, written without the model's own checks -/

/-- R57: the command word `w` is illegal for the engine of `s`. -/
def IllegalWord (s : State) (w : Word32) : Prop :=
  let opc := w.toNat % 256
  let ctx := w.toNat / 256 % 256
  let rsv := w.toNat / 65536
  (opc = 0 ∨ 0x0B ≤ opc) ∨ rsv ≠ 0 ∨ (2 ≤ opc ∧ opc ≤ 6 ∧ s.sctx.length ≤ ctx) ∨
    ((opc = 9 ∨ opc = 10) ∧ s.vctx.length ≤ ctx) ∨ ((opc = 1 ∨ opc = 7 ∨ opc = 8) ∧ ctx ≠ 0)

/-- The context a command names exists, and is valid where the command reads it (R57, R111). -/
def ContextReady (s : State) : Instr → Prop
  | .mix => True
  | .init c => ∃ x, s.scalar? c = some x
  | .next c => ∃ x, s.scalar? c = some x ∧ x.valid = true
  | .bounded c => ∃ x, s.scalar? c = some x ∧ x.valid = true
  | .bias c => ∃ x, s.scalar? c = some x ∧ x.valid = true
  | .binomial c => ∃ x, s.scalar? c = some x ∧ x.valid = true
  | .debias => True
  | .autocorr => True
  | .vinit c => ∃ x, s.vector? c = some x
  | .vnext c => ∃ x, s.vector? c = some x ∧ x.valid = true

/-- Not `ValidNM(n, m)`, as R109 lists it. -/
def BadNM (n m : Word64) : Prop :=
  n.toNat = 0 ∨ m.toNat = 0 ∨ 64 < m.toNat ∨ (m.toNat < 64 ∧ 2 ^ m.toNat ≤ n.toNat)

/-- A buffer of `n` bits at `base` is misplaced, as R109 lists it. -/
def BadBuffer (p : Config.Params) (base n : Word64) : Prop :=
  base.toNat % 8 ≠ 0 ∨ 2 ^ p.addrW ≤ base.toNat ∨ 2 ^ p.addrW < base.toNat + 8 * ((n.toNat + 63) / 64)

/-- The checks of R109, command by command. -/
def PreconditionFails (s : State) : Instr → Prop
  | .mix => False
  | .init _ => False
  | .next _ => False
  | .bounded _ => s.args.v1.toNat ≤ s.args.v0.toNat
  | .bias _ => BadNM s.args.v0 s.args.v1
  | .binomial _ => s.args.v0.toNat = 0 ∨ BadNM s.args.v1 s.args.v2
  | .debias =>
    s.args.v1.toNat = 0 ∨ s.args.v1.toNat % 2 = 1 ∨ s.args.v3.toNat = 0 ∨
      BadBuffer s.params s.args.v0 s.args.v1 ∨ BadBuffer s.params s.args.v2 s.args.v3 ∨
      (s.args.v0.toNat < s.args.v2.toNat + 8 * ((s.args.v3.toNat + 63) / 64) ∧
        s.args.v2.toNat < s.args.v0.toNat + 8 * ((s.args.v1.toNat + 63) / 64))
  | .autocorr =>
    s.args.v1.toNat = 0 ∨ s.args.v1.toNat ≤ s.args.v2.toNat ∨ BadBuffer s.params s.args.v0 s.args.v1
  | .vinit _ => (∃ i, s.args.get i = 0) ∧ ∃ i, s.args.get i ≠ 0
  | .vnext _ => False

/-- Contexts, memory, the entropy port and the draw counter are as before. -/
structure KeepsRest (s t : State) : Prop where
  sctx : t.sctx = s.sctx
  vctx : t.vctx = s.vctx
  mem : t.mem = s.mem
  entropy : t.entropy = s.entropy
  free : t.free = s.free

/-- The other scalar contexts, the vector contexts, memory and the draw counter are as before. -/
structure KeepsButScalar (c : Ctx) (s t : State) : Prop where
  sctx : SameScalarBut c s t
  vctx : t.vctx = s.vctx
  mem : t.mem = s.mem
  free : t.free = s.free

/-- The scalar contexts, the other vector contexts, memory and the draw counter are as before. -/
structure KeepsButVector (c : Ctx) (s t : State) : Prop where
  sctx : t.sctx = s.sctx
  vctx : SameVectorBut c s t
  mem : t.mem = s.mem
  free : t.free = s.free

/-- Entropy answers that make up successful draws: for each draw its failed attempts and then its value
(R68). -/
def drawScript (draws : List (List EntropyAnswer × Word64)) : List EntropyAnswer :=
  draws.flatMap (fun d => d.1 ++ [⟨true, d.2⟩])

/-- All these attempts fail (R31). -/
def AllFail (l : List EntropyAnswer) : Prop := ∀ a ∈ l, a.ok = false

/-- Each draw succeeds within its ten attempts (R68). -/
def WithinAttempts (draws : List (List EntropyAnswer × Word64)) : Prop :=
  ∀ d ∈ draws, AllFail d.1 ∧ d.1.length < 10

/-- The bits the first `pairs` pairs of a source emit (R87): 1 for `01`, 0 for `10`, nothing else. -/
def emittedBits (bit : Nat → Bool) (pairs : Nat) : List Bool :=
  (List.range pairs).filterMap (fun j =>
    match bit (2 * j), bit (2 * j + 1) with
    | false, true => some true
    | true, false => some false
    | _, _ => none)

/-- One bit column of the AND/OR chain of R83: the bits of `n` from `start` on choose OR or AND, `draw i`
is the column's bit of draw `i`, counted from 0. -/
def columnBit (n : Word64) (start : Nat) (draw : Nat → Bool) : Nat → Bool
  | 0 => false
  | i + 1 =>
    if n.getLsbD (start + i) then columnBit n start draw i || draw i
    else columnBit n start draw i && draw i

/-- `x1` of R92: positions `i < n` with `bit i` and `bit ((i+k) mod n)` both 1. -/
def pairCount (bit : Nat → Bool) (n k : Nat) : Nat :=
  ((Finset.range n).filter (fun i => bit i = true ∧ bit ((i + k) % n) = true)).card

/-- `x2` of R92: positions `i < n` with `bit i` 1. -/
def oneCount (bit : Nat → Bool) (n : Nat) : Nat :=
  ((Finset.range n).filter (fun i => bit i = true)).card

/-- The number of set bits of a word (R14). -/
def setBits (v : Word64) : Nat := ((Finset.range 64).filter (fun i => v.getLsbD i = true)).card

/-- Output `k`, counted from 0, of the 32-bit reference generator of R76. -/
def referenceOutput (p : Config.Params) (cur inc : Word32) (k : Nat) : Word32 :=
  (draw32 p ((fun u => (draw32 p u inc).2)^[k] cur) inc).1

/-- The same scalar context, as far as anyone can tell: an invalid one holds no value (R30). -/
def ScalarCtx.Similar (x y : ScalarCtx) : Prop := x.valid = y.valid ∧ (x.valid = true → x = y)

/-- The same vector context, as far as anyone can tell (R30). -/
def VectorCtx.Similar (x y : VectorCtx) : Prop := x.valid = y.valid ∧ (x.valid = true → x = y)

/-- The states differ at most in the CUR and INC of invalid contexts. -/
def State.Similar (s t : State) : Prop :=
  t = { s with sctx := t.sctx, vctx := t.vctx } ∧ List.Forall₂ ScalarCtx.Similar s.sctx t.sctx ∧
    List.Forall₂ VectorCtx.Similar s.vctx t.vctx

/-- The access is one of those R38 refuses. -/
abbrev RefusedAccess (w : Width) (off : Nat) : Prop :=
  w = .w8 ∨ w = .w16 ∨ (w = .w32 ∧ off % 4 ≠ 0) ∨ (w = .w64 ∧ (off % 8 ≠ 0 ∨ off = 0x000 ∨ off = 0x008))

end Sys2Proof.Machine
end

