-- ==== Sys2Proof/Certificates/Slice0/Obligations.lean ====
section
/-! DEFINITION. What the model claims of the engine, rule by rule. Statements about a command say what
its next state is, and what it leaves unchanged. -/

open Sys2Proof Sys2Proof.Machine

/-! ## Encoding (30_encoding.md) -/

/-- Decoding the word of a command gives the command back, in the numbering of the opcode table too; the
word is `(N << 8) | OPC` (R53, R55, R58). -/
def Obligations.DecodeOfEncode : Prop :=
  ∀ i : Instr, decode (encode i) = .ok i ∧ decodeTableWord 32 (encode i).toNat = some i ∧
    (encode i).toNat = i.ctxField.toNat * 256 + i.opcode.toNat

/-- A word that decodes to a command is that command's word: no bit of a word is ignored (R53, R57). -/
def Obligations.EncodeOfDecode : Prop :=
  ∀ (w : Word32) (i : Instr), decode w = .ok i → encode i = w

/-- Words of the encoding vectors (95_test_vectors.md section 8) and what they stand for. -/
def Obligations.EncodingVectorsDecode : Prop :=
  decode 0x00000001 = .ok .mix ∧ decode 0x00000302 = .ok (.init 3) ∧ decode 0x00000703 = .ok (.next 7) ∧
  decode 0x00000104 = .ok (.bounded 1) ∧ decode 0x00000005 = .ok (.bias 0) ∧
  decode 0x00000206 = .ok (.binomial 2) ∧ decode 0x00000007 = .ok .debias ∧
  decode 0x00000008 = .ok .autocorr ∧ decode 0x00000109 = .ok (.vinit 1) ∧
  decode 0x0000000A = .ok (.vnext 0) ∧ decode 0x00000000 = .illegal (.illegalOpcode 0x00) ∧
  decode 0x0000000B = .illegal (.illegalOpcode 0x0B) ∧ decode 0x000000FF = .illegal (.illegalOpcode 0xFF) ∧
  decode 0x00000108 = .illegal (.ctxNonzero 1) ∧ decode 0x80000001 = .illegal (.reservedNonzero 0x8000)

/-- R57, R108: an illegal word completes with ILLEGAL_COMMAND and changes nothing else. -/
def Obligations.IllegalWordReported : Prop :=
  ∀ s : State, s.nextTurn = .engine → s.status.busy = true → s.inReset = false → IllegalWord s s.cmd →
    ∃ t, step s = .next t ∧ CompletedFrom s.popTurn t .illegalCommand ∧ t.res = s.res ∧ KeepsRest s t

/-- No other word is reported as illegal (R57: exactly these cases). -/
def Obligations.LegalWordNotReportedIllegal : Prop :=
  ∀ s t : State, s.nextTurn = .engine → s.status.busy = true → s.inReset = false → s.status.err = .ok →
    ¬IllegalWord s s.cmd → step s = .next t → t.status.err ≠ .illegalCommand

/-! ## Steps -/

/-- When the engine moves and its command word decodes to `i`, the step is the meaning of `i`; that one step runs
the whole command is the model's choice (log 5). A command word placed by `withFetchWord` is the very next one
to run; that function, which stands for a host's write to CMD, is the model's choice too (log 20). -/
def Obligations.StepRunsDecodedCommand : Prop :=
  (∀ (s : State) (i : Instr), s.nextTurn = .engine → s.status.busy = true → s.inReset = false →
    decode s.cmd = .ok i → step s = exec i s.popTurn) ∧
  ∀ (s : State) (i : Instr),
    step (s.withFetchWord 32 (encode i).toNat) = exec i ({ s with inReset := false }.accept (encode i))

/-- An idle engine, and one held in reset, does nothing in its turn (R122, R124). -/
def Obligations.IdleEngineDoesNothing : Prop :=
  ∀ s : State, s.nextTurn = .engine → (s.status.busy = false ∨ s.inReset = true) →
    step s = .next s.popTurn

/-! ## Reset (70_reset_and_hazards.md) -/

/-- The reset state has the values R37 gives, in the reference configuration of R10, which is the model's choice
for it (log 2). CUR and INC, which R37 leaves unspecified, are not part of the statement. -/
def Obligations.ResetStateHasTableValues : Prop :=
  State.reset.cmd = 0 ∧ State.reset.status = ⟨false, false, .ok⟩ ∧ State.reset.args = Quad.all 0 ∧
  State.reset.res = Quad.all 0 ∧ State.reset.sctx.length = 8 ∧ State.reset.vctx.length = 2 ∧
  (∀ x ∈ State.reset.sctx, x.valid = false) ∧ (∀ x ∈ State.reset.vctx, x.valid = false) ∧
  State.reset.transient = .none ∧ paramWord State.reset = 0x010A0107

/-- When reset is released every piece of engine state takes its value of R37 in one step, and host
memory, the entropy source and the host are not touched (R37, R122, R124). -/
def Obligations.ReleasedResetGivesTableValues : Prop :=
  ∀ s : State, s.nextTurn = .releaseReset → s.inReset = true →
    ∃ t, step s = .next t ∧ t.cmd = 0 ∧ t.status = ⟨false, false, .ok⟩ ∧ t.args = Quad.all 0 ∧
      t.res = Quad.all 0 ∧ t.sctx.length = s.sctx.length ∧ (∀ x ∈ t.sctx, x.valid = false) ∧
      t.vctx.length = s.vctx.length ∧ (∀ x ∈ t.vctx, x.valid = false) ∧ t.transient = .none ∧
      t.inReset = false ∧ paramWord t = paramWord s ∧ t.mem = s.mem ∧ t.entropy = s.entropy ∧
      t.host = s.host ∧ t.params = s.params ∧ t.regions = s.regions

/-- Asserting reset ends the running command; the window then refuses every access; memory changes at most
in the destination words of a DEBIAS that was running (R122, R123). That a DEBIAS its checks would have turned
away leaves even those as they were, since the checks of R109 come before any access, is the model's choice
(log 16). -/
def Obligations.AssertedResetEndsCommand : Prop :=
  ∀ s : State, s.nextTurn = .assertReset →
    ∃ t, step s = .next t ∧ t.inReset = true ∧ t.status.busy = false ∧ t.transient = .none ∧
      (∀ w off v, windowRead t w off = none ∧ windowWrite t w off v = none) ∧
      (¬(s.status.busy = true ∧ decode s.cmd = .ok .debias ∧ ¬PreconditionFails s .debias) →
        t.mem = s.mem) ∧
      SameBytesOutside s.args.v2.toNat (8 * wordCount s.args.v3.toNat) s t

/-! ## The register window (10_state.md, 20_memory.md R38) -/

/-- A write to CMD while idle is accepted: CMD takes the word, BUSY is 1, ERR is 0, OVR is as before, and CMD reads
back the word (R21). Everything else of the machine is as before; of the model's own lists, the bytes stored since
the host's last barrier become stale for the command, and no word is disturbed yet (the model's choice,
log 13). -/
def Obligations.CmdWriteAccepted : Prop :=
  ∀ (s : State) (v : Word64), s.status.busy = false → s.inReset = false →
    ∃ t, windowWrite s .w32 0x000 v = some t ∧ t.cmd.toNat = v.toNat % 2 ^ 32 ∧
      t.status = ⟨true, s.status.ovr, .ok⟩ ∧
      t = { s with cmd := t.cmd, status := t.status, transient := .none, stale := s.unfenced, disturbed := [] } ∧
      windowRead t .w32 0x000 = some (BitVec.ofNat 64 (v.toNat % 2 ^ 32), t)

/-- Exactly the accesses R38 names are refused, and all of them while reset is asserted (R38, R122). -/
def Obligations.RefusedAccessesExactly : Prop :=
  ∀ (s : State) (w : Width) (off : Nat) (v : Word64), off < 256 →
    (windowRead s w off = none ↔ s.inReset = true ∨ RefusedAccess w off) ∧
    (windowWrite s w off v = none ↔ s.inReset = true ∨ RefusedAccess w off)

/-- Host loads and stores at MMIO_BASE + off reach the window at off, and a refused one has no effect on
anything but the host (R20, R38). -/
def Obligations.HostAccessReachesWindow : Prop :=
  ∀ (s : State) (w : Width) (off : Nat) (v : Word64) (r : Nat), off < 256 →
    s.params.mmioBase.toNat + off < 2 ^ 64 →
    hostExec (.store w (.imm (s.params.mmioBase + BitVec.ofNat 64 off)) (.imm v)) s =
      (match windowWrite s w off v with
       | some t => .next t.hostNext
       | none => .next s.storeRefused) ∧
    hostExec (.load w r (.imm (s.params.mmioBase + BitVec.ofNat 64 off))) s =
      (match windowRead s w off with
       | some (x, t) => .next (t.hostSet r x)
       | none => .next (s.loadRefused r)) ∧
    { s.storeRefused with host := s.host } = s ∧ { s.loadRefused r with host := s.host } = s

/-- While BUSY = 1: writes to CMD and to ARGi, in either width and either half, only set OVR; CMD, STATUS,
PARAM and ARGi read as they are; a RESi read answers some value (R23). -/
def Obligations.BusyAccesses : Prop :=
  ∀ s : State, s.status.busy = true → s.inReset = false →
    (∀ (w : Width) (off : Nat) (v : Word64), ¬RefusedAccess w off →
      (off = 0x000 ∨ (0x010 ≤ off ∧ off < 0x030)) →
      windowWrite s w off v = some { s with status := ⟨true, true, s.status.err⟩ }) ∧
    windowRead s .w32 0x000 = some (s.cmd.setWidth 64, s) ∧
    windowRead s .w32 0x004 = some ((statusWord s.status).setWidth 64, s) ∧
    windowRead s .w32 0x008 = some ((paramWord s).setWidth 64, s) ∧
    (∀ i : Fin 4, windowRead s .w64 (0x010 + 8 * i.val) = some (s.args.get i, s) ∧
      windowRead s .w32 (0x010 + 8 * i.val) = some (BitVec.ofNat 64 ((s.args.get i).toNat % 2 ^ 32), s) ∧
      windowRead s .w32 (0x014 + 8 * i.val) = some (BitVec.ofNat 64 ((s.args.get i).toNat / 2 ^ 32), s)) ∧
    ∀ (w : Width) (off : Nat), ¬RefusedAccess w off → 0x030 ≤ off → off < 0x050 →
      ∃ v, windowRead s w off = some (v, s.countDraw)

/-- While idle an ARGi is written whole or either half alone, and reads back so (R25, R38). -/
def Obligations.ArgHalvesWrittenAlone : Prop :=
  ∀ (s : State) (i : Fin 4) (v : Word64), s.status.busy = false → s.inReset = false →
    windowWrite s .w64 (0x010 + 8 * i.val) v = some (s.setArg i v) ∧
    (∃ x, windowWrite s .w32 (0x010 + 8 * i.val) v = some (s.setArg i x) ∧
      x.toNat = (s.args.get i).toNat / 2 ^ 32 * 2 ^ 32 + v.toNat % 2 ^ 32) ∧
    (∃ x, windowWrite s .w32 (0x014 + 8 * i.val) v = some (s.setArg i x) ∧
      x.toNat = v.toNat % 2 ^ 32 * 2 ^ 32 + (s.args.get i).toNat % 2 ^ 32) ∧
    windowRead s .w64 (0x010 + 8 * i.val) = some (s.args.get i, s) ∧
    windowRead s .w32 (0x010 + 8 * i.val) = some (BitVec.ofNat 64 ((s.args.get i).toNat % 2 ^ 32), s) ∧
    windowRead s .w32 (0x014 + 8 * i.val) = some (BitVec.ofNat 64 ((s.args.get i).toNat / 2 ^ 32), s)

/-- STATUS reads BUSY in bit 0, OVR in bit 1, the number of the code in bits 11:8 and 0 elsewhere; the numbers are
those of R106; a write of 1 to bit 1 clears OVR and nothing else is written (R22, R106). -/
def Obligations.StatusReadAndClear : Prop :=
  (codeBits .ok = 0 ∧ codeBits .entropyUnavailable = 1 ∧ codeBits .preconditionViolation = 2 ∧
    codeBits .degenerateAutocorrelation = 3 ∧ codeBits .illegalCommand = 4 ∧ codeBits .contextInvalid = 5 ∧
    codeBits .busError = 6 ∧ codeBits .internalConsistency = 7) ∧
  ∀ (s : State) (v : Word64), s.inReset = false →
    windowRead s .w32 0x004 =
      some (BitVec.ofNat 64 ((codeBits s.status.err).toNat * 256 + s.status.ovr.toNat * 2
        + s.status.busy.toNat), s) ∧
    windowWrite s .w32 0x004 v =
      some { s with status := ⟨s.status.busy, s.status.ovr && !v.getLsbD 1, s.status.err⟩ }

/-- PARAM is NS - 1, NV - 1, ENTROPY_ATTEMPTS = 10 and VERSION = 1, and writes to it are ignored (R24). -/
def Obligations.ParamReadOnlyConstant : Prop :=
  ∀ (s : State) (v : Word64), s.inReset = false → 1 ≤ s.sctx.length → s.sctx.length ≤ 256 →
    1 ≤ s.vctx.length → s.vctx.length ≤ 256 →
    windowRead s .w32 0x008 =
      some (BitVec.ofNat 64 (1 * 2 ^ 24 + 10 * 2 ^ 16 + (s.vctx.length - 1) * 2 ^ 8
        + (s.sctx.length - 1)), s) ∧
    windowWrite s .w32 0x008 v = some s

/-- While idle RESi reads its contents, whole or by halves; host writes to RESi are ignored, and reserved
offsets read 0 and ignore writes (R20, R26, R38). -/
def Obligations.ResultsReadOnly : Prop :=
  ∀ (s : State) (w : Width) (off : Nat) (v : Word64) (i : Fin 4), s.inReset = false →
    (s.status.busy = false →
      windowRead s .w64 (0x030 + 8 * i.val) = some (s.res.get i, s) ∧
      windowRead s .w32 (0x030 + 8 * i.val) = some (BitVec.ofNat 64 ((s.res.get i).toNat % 2 ^ 32), s) ∧
      windowRead s .w32 (0x034 + 8 * i.val) = some (BitVec.ofNat 64 ((s.res.get i).toNat / 2 ^ 32), s)) ∧
    (¬RefusedAccess w off → 0x030 ≤ off → off < 0x100 → windowWrite s w off v = some s) ∧
    (¬RefusedAccess w off → off = 0x00C ∨ (0x050 ≤ off ∧ off < 0x100) →
      windowRead s w off = some (0, s) ∧ windowWrite s w off v = some s)

/-! ## Host memory (20_memory.md) -/

/-- A word written reads back, byte `j` of it at address `a + j`; every other byte is as before; the canonical
form is kept; and bit `i` of a buffer is bit `i mod 8` of the byte `i div 8` (R40, R41). -/
def Obligations.WordsAreLittleEndian : Prop :=
  ∀ (m : Memory) (a : Nat) (w : Word64), m.wf →
    (writeWord m a w).wf ∧ readWord (writeWord m a w) a = w ∧
    (∀ j, j < 8 → readByte (writeWord m a w) (a + j) = w.extractLsb' (8 * j) 8 ∧
      (readWord m a).extractLsb' (8 * j) 8 = readByte m (a + j)) ∧
    (∀ b, b < a ∨ a + 8 ≤ b → readByte (writeWord m a w) b = readByte m b) ∧
    ∀ i, bitRead m a i = (readByte m (a + i / 8)).getLsbD (i % 8)

/-- Ordering of host stores before a command (R48 a, R49, R127). After a barrier no byte is stale for the next
command; without one, a byte the host has stored to may still read as what it was before or after each of those
stores, and no step but a barrier of the host orders it. A command's reads of a stale byte are one of those
values each, and DEBIAS ORs its bits into one of them. A store made while a command runs leaves its words free
for that command. Which list holds what, that every store of this kind comes before the engine's turn (log 13),
and that a narrow store while BUSY frees its whole word (log 27) are the model's choice. -/
def Obligations.StoresNeedBarrier : Prop :=
  (∀ (s : State) (w : Word32), (s.fence.accept w).stale = [] ∧ (s.fence.accept w).disturbed = []) ∧
  (∀ (s : State) (w : Word32) (a : Nat), staleValues (s.accept w).stale a = staleValues s.unfenced a) ∧
  (∀ (s t : State) (a : Nat), step s = .next t →
    ¬(s.nextTurn = .host ∧ s.host.stopped = false ∧ s.host.prog[s.host.pos]? = some .fence) →
    ∀ v ∈ staleValues s.unfenced a, v ∈ staleValues t.unfenced a) ∧
  (∀ (s t : State) (w : Width) (a : Nat) (v : Word64), s.mem.wf → inWindow s.params a = false →
    deviceAt s.regions a w.bytes = false → hostStore s w a v = .done t →
    (∀ j, j < w.bytes →
      readByte t.mem (a + j) = BitVec.ofNat 8 (v.toNat / 256 ^ j) ∧
      readByte s.mem (a + j) ∈ staleValues t.unfenced (a + j) ∧
      readByte t.mem (a + j) ∈ staleValues t.unfenced (a + j) ∧
      (s.status.busy = true → unsteady t (wordAddress (a + j)) = true)) ∧
    ∀ b, b < a ∨ a + w.bytes ≤ b →
      readByte t.mem b = readByte s.mem b ∧ staleValues t.unfenced b = staleValues s.unfenced b) ∧
  (∀ (s : State) (base role i : Nat), unsteady s (bitWord base i) = false →
    ∃ v ∈ readByte s.mem (base + i / 8) :: staleValues s.stale (base + i / 8),
      sourceBit s base role i = v.getLsbD (i % 8)) ∧
  ∀ s t : State, s.mem.wf → ¬PreconditionFails s .debias → exec .debias s = .next t → t.status.err = .ok →
    (∀ k, k < wordCount s.args.v3.toNat → unsteady s (s.args.v2.toNat + 8 * k) = false) →
    ∀ k, k < 8 * wordCount s.args.v3.toNat →
      ∃ v ∈ readByte s.mem (s.args.v2.toNat + k) :: staleValues s.stale (s.args.v2.toNat + k),
        ∀ j, j < 8 → bitRead t.mem s.args.v2.toNat (8 * k + j) =
          (v.getLsbD j || decide (8 * k + j ∈ s.debiasPass.ones))

/-! ## All commands -/

/-- R107: a command sets one code and clears BUSY in one step and leaves everything but RES, contexts, memory,
the entropy port and the draw counter alone; only BOUNDED may instead still be running (R101). That the context
of a BOUNDED that still runs stands where it did is the model's choice (log 7), and so is that the end of a
command empties its lists of stale bytes and disturbed words (log 28). -/
def Obligations.CommandEndsWithOneCode : Prop :=
  ∀ (i : Instr) (s t : State), exec i s = .next t →
    CompletedFrom s t t.status.err ∨ ∃ c tr, i = .bounded c ∧ t = s.running tr

/-- R111: NEXT, BOUNDED, BIAS, BINOMIAL and VNEXT on an invalid context report CONTEXT_INVALID, whatever their
operands are, and change nothing else. -/
def Obligations.InvalidContextReported : Prop :=
  ∀ (s : State) (c : Ctx),
    ((∃ x, s.scalar? c = some x ∧ x.valid = false) →
      ∀ i, i = .next c ∨ i = .bounded c ∨ i = .bias c ∨ i = .binomial c →
        ∃ t, exec i s = .next t ∧ CompletedFrom s t .contextInvalid ∧ t.res = s.res ∧ KeepsRest s t) ∧
    ((∃ x, s.vector? c = some x ∧ x.valid = false) →
      ∃ t, exec (.vnext c) s = .next t ∧ CompletedFrom s t .contextInvalid ∧ t.res = s.res ∧ KeepsRest s t)

/-- R109: PRECONDITION_VIOLATION is reported by each check of its table and by no other, where the context
the command names is there and, if it is read, valid; nothing else is changed then. -/
def Obligations.PreconditionsExactly : Prop :=
  ∀ (i : Instr) (s : State), s.status.err = .ok →
    ∃ t, exec i s = .next t ∧
      (t.status.err = .preconditionViolation ↔ ContextReady s i ∧ PreconditionFails s i) ∧
      (ContextReady s i → PreconditionFails s i →
        CompletedFrom s t .preconditionViolation ∧ t.res = s.res ∧ KeepsRest s t)

/-- R115: the side effects of each error. -/
def Obligations.ErrorSideEffects : Prop :=
  ∀ (i : Instr) (s t : State), s.status.err = .ok → exec i s = .next t →
    (t.status.err = .illegalCommand ∨ t.status.err = .contextInvalid ∨
      t.status.err = .preconditionViolation →
      CompletedFrom s t t.status.err ∧ t.res = s.res ∧ KeepsRest s t) ∧
    (t.status.err = .entropyUnavailable →
      CompletedFrom s t .entropyUnavailable ∧ t.res = s.res ∧
      ((∃ c, i = .init c ∧ KeepsButScalar c s t ∧ ∃ x, t.scalar? c = some x ∧ x.valid = false) ∨
       ∃ c, i = .vinit c ∧ KeepsButVector c s t ∧ ∃ x, t.vector? c = some x ∧ x.valid = false)) ∧
    (t.status.err = .busError →
      CompletedFrom s t .busError ∧ t.res = s.res ∧ t.sctx = s.sctx ∧ t.vctx = s.vctx ∧
      t.entropy = s.entropy ∧
      ((i = .debias ∧ SameBytesOutside s.args.v2.toNat (8 * wordCount s.args.v3.toNat) s t) ∨
       (i = .autocorr ∧ t.mem = s.mem))) ∧
    (t.status.err = .degenerateAutocorrelation ∨ t.status.err = .internalConsistency →
      CompletedFrom s t t.status.err ∧ t.res = ⟨0, s.res.v1, s.res.v2, s.res.v3⟩ ∧ t.sctx = s.sctx ∧
      t.vctx = s.vctx ∧ t.entropy = s.entropy ∧ t.mem = s.mem)

/-- R44: only DEBIAS and AUTOCORR use the data port; every other command neither changes memory nor depends on
it or on how it answers. -/
def Obligations.OnlyBufferCommandsUseMemory : Prop :=
  ∀ (i : Instr) (s t : State) (m : Memory) (rs : List Region), i ≠ .debias → i ≠ .autocorr →
    exec i s = .next t →
    t.mem = s.mem ∧ exec i { s with mem := m, regions := rs } = .next { t with mem := m, regions := rs }

/-- R29: the contexts are written by INIT and VINIT, and advanced by the drawing commands; no command and no
host turn writes them otherwise. -/
def Obligations.ContextsWrittenOnlyByTheirCommands : Prop :=
  (∀ (i : Instr) (s t : State), exec i s = .next t →
    (∀ k : Nat, t.sctx[k]? = s.sctx[k]? ∨ ∃ c : Ctx, k = c.toNat ∧
      (i = .init c ∨ ((i = .next c ∨ i = .bounded c ∨ i = .bias c ∨ i = .binomial c) ∧
        ∃ x n, s.sctx[k]? = some x ∧ t.sctx[k]? = some (advanceBy n x)))) ∧
    (∀ k : Nat, t.vctx[k]? = s.vctx[k]? ∨ ∃ c : Ctx, k = c.toNat ∧
      (i = .vinit c ∨ (i = .vnext c ∧
        ∃ x, s.vctx[k]? = some x ∧ t.vctx[k]? = some (x.advance s.params))))) ∧
  ∀ s t : State, hostTurn s = .next t → t.sctx = s.sctx ∧ t.vctx = s.vctx

/-- R30: CUR and INC of an invalid context cannot be observed: states that differ only there take the same
step, to states that again differ only there. -/
def Obligations.InvalidContextsUnobservable : Prop :=
  ∀ s t : State, s.Similar t →
    match step s, step t with
    | .next s', .next t' => s'.Similar t'
    | .fault f, .fault g => f = g
    | .refused r, .refused q => r = q
    | _, _ => False

/-- R132: entropy attempts are made by INIT and VINIT with zero seeds alone, at most 20 and 80 of them. -/
def Obligations.EntropyAttemptsBounded : Prop :=
  ∀ (i : Instr) (s t : State), exec i s = .next t →
    (t.entropy = s.entropy ∨ ∃ c, (i = .init c ∧ s.args.v0 = 0) ∨ (i = .vinit c ∧ s.args = Quad.all 0)) ∧
    (∀ c, i = .init c → t.entropy.attempts ≤ s.entropy.attempts + 20) ∧
    (∀ c, i = .vinit c → t.entropy.attempts ≤ s.entropy.attempts + 80)

/-! ## MIX, INIT, NEXT (40_mixer_scalar.md) -/

/-- MIX writes MIX64(ARG0) to RES0 and nothing else (R69). -/
def Obligations.MixResult : Prop :=
  ∀ s : State, ∃ t, exec .mix s = .next t ∧ CompletedFrom s t .ok ∧
    t.res = ⟨mix64 s.params s.args.v0, s.res.v1, s.res.v2, s.res.v3⟩ ∧ KeepsRest s t

/-- INIT with a non-zero seed (R70): CUR is the mixed seed, INC the seed mixed twice, made odd; no entropy
attempt. -/
def Obligations.InitFromSeed : Prop :=
  ∀ (s : State) (c : Ctx) (x : ScalarCtx), s.scalar? c = some x → s.args.v0 ≠ 0 →
    ∃ t, exec (.init c) s = .next t ∧ CompletedFrom s t .ok ∧ t.res = s.res ∧
      t.scalar? c = some ⟨mix64 s.params s.args.v0,
        mix64 s.params (mix64 s.params s.args.v0) ||| 1, true⟩ ∧
      KeepsButScalar c s t ∧ t.entropy = s.entropy

/-- INIT with seed 0 and two draws that succeed within ten attempts each (R68, R70): the first value is CUR,
the second, made odd, is INC; the attempts made are exactly those. -/
def Obligations.InitFromEntropy : Prop :=
  ∀ (s : State) (c : Ctx) (x : ScalarCtx) (d e : List EntropyAnswer × Word64) (rest : List EntropyAnswer),
    s.scalar? c = some x → s.args.v0 = 0 → WithinAttempts [d, e] →
    s.entropy.answers = drawScript [d, e] ++ rest →
    ∃ t, exec (.init c) s = .next t ∧ CompletedFrom s t .ok ∧ t.res = s.res ∧
      t.scalar? c = some ⟨d.2, e.2 ||| 1, true⟩ ∧ KeepsButScalar c s t ∧
      t.entropy = ⟨rest, s.entropy.attempts + (drawScript [d, e]).length⟩

/-- INIT with seed 0 where a draw fails all its ten attempts (R68, R70, R110): ENTROPY_UNAVAILABLE, the context
becomes invalid with its old CUR and INC, no further attempt is made. -/
def Obligations.InitEntropyFailure : Prop :=
  ∀ (s : State) (c : Ctx) (x : ScalarCtx) (ds : List (List EntropyAnswer × Word64))
    (fails rest : List EntropyAnswer),
    s.scalar? c = some x → s.args.v0 = 0 → ds.length < 2 → WithinAttempts ds → AllFail fails →
    fails.length = 10 → s.entropy.answers = drawScript ds ++ fails ++ rest →
    ∃ t, exec (.init c) s = .next t ∧ CompletedFrom s t .entropyUnavailable ∧ t.res = s.res ∧
      t.scalar? c = some { x with valid := false } ∧ KeepsButScalar c s t ∧
      t.entropy = ⟨rest, s.entropy.attempts + ((drawScript ds).length + 10)⟩

/-- NEXT returns PERM64 of the old CUR and advances CUR by one step of the 64-bit congruence (R63, R66, R71). -/
def Obligations.NextDrawsOnce : Prop :=
  ∀ (s : State) (c : Ctx) (x : ScalarCtx), s.scalar? c = some x → x.valid = true →
    ∃ t, exec (.next c) s = .next t ∧ CompletedFrom s t .ok ∧
      t.res = ⟨perm64 s.params x.cur, s.res.v1, s.res.v2, s.res.v3⟩ ∧
      t.scalar? c = some ⟨x.cur * 0x5851F42D4C957F2D + x.inc, x.inc, true⟩ ∧
      KeepsButScalar c s t ∧ t.entropy = s.entropy

/-- Two engines of one configuration, or two contexts, initialised with the same non-zero seed give the same
sequence of NEXT results (95_test_vectors.md S1). -/
def Obligations.SameSeedSameSequence : Prop :=
  ∀ (s s' : State) (c d : Ctx) (a b : Nat → State),
    s.params = s'.params → s.args.v0 = s'.args.v0 → s.args.v0 ≠ 0 →
    c.toNat < s.sctx.length → d.toNat < s'.sctx.length →
    exec (.init c) s = .next (a 0) → exec (.init d) s' = .next (b 0) →
    (∀ k, exec (.next c) (a k) = .next (a (k + 1))) → (∀ k, exec (.next d) (b k) = .next (b (k + 1))) →
    ∀ k, (a (k + 1)).res.v0 = (b (k + 1)).res.v0

/-! ## VINIT, VNEXT (41_vector.md) -/

/-- VINIT with four non-zero seeds (R75, R77): each lane takes the low halves of its seed mixed once and, made
odd, mixed twice. -/
def Obligations.VinitFromSeeds : Prop :=
  ∀ (s : State) (c : Ctx) (x : VectorCtx), s.vector? c = some x → (∀ l, s.args.get l ≠ 0) →
    ∃ t y, exec (.vinit c) s = .next t ∧ CompletedFrom s t .ok ∧ t.res = s.res ∧ t.vector? c = some y ∧
      y.valid = true ∧
      (∀ l, (y.cur.get l).toNat = (mix64 s.params (s.args.get l)).toNat % 2 ^ 32 ∧
        y.inc.get l = (mix64 s.params (mix64 s.params (s.args.get l))).setWidth 32 ||| 1) ∧
      KeepsButVector c s t ∧ t.entropy = s.entropy

/-- VINIT with zero seeds and eight draws that succeed (R68, R77): lane `l` takes the low halves of draws
`2l` and `2l+1`, the second made odd. -/
def Obligations.VinitFromEntropy : Prop :=
  ∀ (s : State) (c : Ctx) (x : VectorCtx) (d0 d1 d2 d3 d4 d5 d6 d7 : List EntropyAnswer × Word64)
    (rest : List EntropyAnswer),
    let ds := [d0, d1, d2, d3, d4, d5, d6, d7]
    s.vector? c = some x → s.args = Quad.all 0 → WithinAttempts ds →
    s.entropy.answers = drawScript ds ++ rest →
    ∃ t, exec (.vinit c) s = .next t ∧ CompletedFrom s t .ok ∧ t.res = s.res ∧
      t.vector? c = some
        ⟨⟨d0.2.setWidth 32, d2.2.setWidth 32, d4.2.setWidth 32, d6.2.setWidth 32⟩,
         ⟨d1.2.setWidth 32 ||| 1, d3.2.setWidth 32 ||| 1, d5.2.setWidth 32 ||| 1, d7.2.setWidth 32 ||| 1⟩,
         true⟩ ∧
      KeepsButVector c s t ∧ t.entropy = ⟨rest, s.entropy.attempts + (drawScript ds).length⟩

/-- VINIT with zero seeds where one of the eight draws fails all its ten attempts (R77, R110):
ENTROPY_UNAVAILABLE, the context becomes invalid, the remaining draws are not made. -/
def Obligations.VinitEntropyFailure : Prop :=
  ∀ (s : State) (c : Ctx) (x : VectorCtx) (ds : List (List EntropyAnswer × Word64))
    (fails rest : List EntropyAnswer),
    s.vector? c = some x → s.args = Quad.all 0 → ds.length < 8 → WithinAttempts ds → AllFail fails →
    fails.length = 10 → s.entropy.answers = drawScript ds ++ fails ++ rest →
    ∃ t, exec (.vinit c) s = .next t ∧ CompletedFrom s t .entropyUnavailable ∧ t.res = s.res ∧
      (∃ y, t.vector? c = some y ∧ y.valid = false) ∧ KeepsButVector c s t ∧
      t.entropy = ⟨rest, s.entropy.attempts + ((drawScript ds).length + 10)⟩

/-- VNEXT advances every lane two steps; RES[l] has the first output in its low half and the second in its high
half, each the permutation of the value before its step (R72, R78). -/
def Obligations.VnextDrawsTwicePerLane : Prop :=
  ∀ (s : State) (c : Ctx) (x : VectorCtx), s.vector? c = some x → x.valid = true →
    ∃ t y, exec (.vnext c) s = .next t ∧ CompletedFrom s t .ok ∧ t.vector? c = some y ∧ y.valid = true ∧
      y.inc = x.inc ∧
      (∀ l, let x1 := x.cur.get l * s.params.mult32 + x.inc.get l
        y.cur.get l = x1 * s.params.mult32 + x.inc.get l ∧
        (t.res.get l).toNat = (perm32 s.params x1).toNat * 2 ^ 32
          + (perm32 s.params (x.cur.get l)).toNat) ∧
      KeepsButVector c s t ∧ t.entropy = s.entropy

/-- R79 (source property S7): after VINIT with non-zero seeds, the halves of lane `l` over successive VNEXTs are
the outputs of the 32-bit reference generator seeded with lane `l`'s seed. -/
def Obligations.LanesEqualReferenceGenerator : Prop :=
  ∀ (s : State) (c : Ctx) (a : Nat → State), c.toNat < s.vctx.length → (∀ l, s.args.get l ≠ 0) →
    exec (.vinit c) s = .next (a 0) → (∀ k, exec (.vnext c) (a k) = .next (a (k + 1))) →
    ∀ (k : Nat) (l : Fin 4),
      let out := referenceOutput s.params (seed32Cur s.params (s.args.get l))
        (seed32Inc s.params (s.args.get l))
      ((a (k + 1)).res.get l).toNat = (out (2 * k + 1)).toNat * 2 ^ 32 + (out (2 * k)).toNat

/-! ## BIAS (42_bias.md) -/

/-- R82, R83: BIAS makes `m - ctz(n)` draws, between 1 and `m`, and bit `j` of its result is the AND/OR chain
over bit `j` of those draws; `ctz` is pinned by `BitCountsAreRight`. -/
def Obligations.BiasIsColumnChain : Prop :=
  ∀ (s : State) (c : Ctx) (x : ScalarCtx), s.scalar? c = some x → x.valid = true →
    ¬BadNM s.args.v0 s.args.v1 →
    let draws := s.args.v1.toNat - ctz s.args.v0
    1 ≤ draws ∧ draws ≤ s.args.v1.toNat ∧ ∃ t, exec (.bias c) s = .next t ∧ CompletedFrom s t .ok ∧
      (∀ j, j < 64 → t.res.v0.getLsbD j =
        columnBit s.args.v0 (ctz s.args.v0) (fun i => (drawWord s.params x i).getLsbD j) draws) ∧
      t.res = ⟨t.res.v0, s.res.v1, s.res.v2, s.res.v3⟩ ∧ t.scalar? c = some (advanceBy draws x) ∧
      KeepsButScalar c s t ∧ t.entropy = s.entropy

/-- R84: for `m < 64`, `(n, m)` and `(2n, m+1)` give the same result from the same state. -/
def Obligations.BiasDoubledProbabilitySame : Prop :=
  ∀ (s : State) (c : Ctx) (x : ScalarCtx), s.scalar? c = some x → x.valid = true →
    ¬BadNM s.args.v0 s.args.v1 → s.args.v1.toNat < 64 →
    ∃ t t', exec (.bias c) s = .next t ∧
      exec (.bias c) { s with args := { s.args with v0 := 2 * s.args.v0, v1 := s.args.v1 + 1 } } = .next t' ∧
      t.status.err = .ok ∧ t'.status.err = .ok ∧ t'.res = t.res ∧ t'.sctx = t.sctx

/-! ## BOUNDED, BINOMIAL (45_bounded_binomial.md) -/

/-- R99: for `lo < hi` the span is `hi - lo`, and the mask is the smallest all-ones value that is at least
the span. -/
def Obligations.MaskIsSmallestAllOnes : Prop :=
  ∀ lo hi : Word64, lo.toNat < hi.toNat →
    (hi - lo).toNat = hi.toNat - lo.toNat ∧
    ∃ j, 1 ≤ j ∧ j ≤ 64 ∧ (maskOf (hi - lo)).toNat = 2 ^ j - 1 ∧ (hi - lo).toNat ≤ 2 ^ j - 1 ∧
      ∀ i, (hi - lo).toNat ≤ 2 ^ i - 1 → j ≤ i

/-- R100, R102: BOUNDED returns the first masked draw that is at most `span`, plus `min`, however late it comes;
every draw up to it advances CUR by one step. -/
def Obligations.BoundedReturnsFirstAccepted : Prop :=
  ∀ (s : State) (c : Ctx) (x : ScalarCtx) (j : Nat), s.scalar? c = some x → x.valid = true →
    s.args.v0.toNat < s.args.v1.toNat →
    let span := s.args.v1 - s.args.v0
    (maskedDraw s.params x (maskOf span) j).toNat ≤ span.toNat →
    (∀ i, i < j → ¬(maskedDraw s.params x (maskOf span) i).toNat ≤ span.toNat) →
    ∃ t, exec (.bounded c) s = .next t ∧ CompletedFrom s t .ok ∧
      t.res = ⟨maskedDraw s.params x (maskOf span) j + s.args.v0, s.res.v1, s.res.v2, s.res.v3⟩ ∧
      t.scalar? c = some (advanceBy (j + 1) x) ∧ KeepsButScalar c s t ∧ t.entropy = s.entropy

/-- R101: where no draw is ever accepted, BOUNDED never completes: BUSY stays 1 and nothing but the transient
state changes. That the context stands where it did is the model's choice (log 7). -/
def Obligations.BoundedMayNeverComplete : Prop :=
  ∀ (s : State) (c : Ctx) (x : ScalarCtx), s.scalar? c = some x → x.valid = true →
    s.args.v0.toNat < s.args.v1.toNat →
    let span := s.args.v1 - s.args.v0
    (∀ i, ¬(maskedDraw s.params x (maskOf span) i).toNat ≤ span.toNat) →
    ∃ tr, exec (.bounded c) s = .next (s.running tr)

/-- R101: with the reference PERM64, BOUNDED completes on every valid context with an odd increment. -/
def Obligations.BoundedCompletesForReference : Prop :=
  ∀ (s : State) (c : Ctx) (x : ScalarCtx), s.params.perm64 = .reference → s.scalar? c = some x →
    x.valid = true → x.inc.getLsbD 0 = true → s.args.v0.toNat < s.args.v1.toNat →
    ∃ t, exec (.bounded c) s = .next t ∧ CompletedFrom s t .ok

/-- R102 (source property S6): a completed BOUNDED has `min <= RES0 <= max`. -/
def Obligations.BoundedResultInRange : Prop :=
  ∀ (s t : State) (c : Ctx), s.status.busy = true → exec (.bounded c) s = .next t →
    t.status.busy = false → t.status.err = .ok →
    s.args.v0.toNat ≤ t.res.v0.toNat ∧ t.res.v0.toNat ≤ s.args.v1.toNat

/-- R104: BINOMIAL counts the ones of `k div 64` BIAS words and of the top `k mod 64` bits of one more, and makes
`ceil(k/64) * (m - ctz(n))` draws. -/
def Obligations.BinomialCountsTrials : Prop :=
  ∀ (s : State) (c : Ctx) (x : ScalarCtx), s.scalar? c = some x → x.valid = true →
    ¬PreconditionFails s (.binomial c) →
    let k := s.args.v0.toNat
    let draws := s.args.v2.toNat - ctz s.args.v1
    let word := fun b => (biasCore s.params s.args.v1 s.args.v2 (advanceBy (b * draws) x)).acc
    ∃ t, exec (.binomial c) s = .next t ∧ CompletedFrom s t .ok ∧
      t.res.v0.toNat = ((List.range (k / 64)).map (fun b => setBits (word b))).sum +
        (if k % 64 = 0 then 0 else setBits (word (k / 64) >>> (64 - k % 64))) ∧
      t.res = ⟨t.res.v0, s.res.v1, s.res.v2, s.res.v3⟩ ∧
      t.scalar? c = some (advanceBy ((k + 63) / 64 * draws) x) ∧ KeepsButScalar c s t ∧
      t.entropy = s.entropy

/-- R105: the number of successes is at most the number of trials. -/
def Obligations.BinomialAtMostTrials : Prop :=
  ∀ (s t : State) (c : Ctx), exec (.binomial c) s = .next t → t.status.err = .ok →
    t.res.v0.toNat ≤ s.args.v0.toNat

/-! ## DEBIAS (43_debias.md) -/

/-- R87, R88, R89: on steady buffers, the source readable and the destination readable and writable, DEBIAS reads
pairs from the start, stops at the pair that fills the destination or at the end of the source, and ORs the
emitted bits in; no other bit of memory changes. -/
def Obligations.DebiasPassResult : Prop :=
  ∀ s : State, s.mem.wf → ¬PreconditionFails s .debias →
    SteadyBuffer s s.args.v0.toNat s.args.v1.toNat → SteadyBuffer s s.args.v2.toNat s.args.v3.toNat →
    ReadableBuffer s s.args.v0.toNat s.args.v1.toNat → ErrorFreeBuffer s s.args.v2.toNat s.args.v3.toNat →
    let bit := bitRead s.mem s.args.v0.toNat
    ∃ t pairs, exec .debias s = .next t ∧ CompletedFrom s t .ok ∧ 1 ≤ pairs ∧
      2 * pairs ≤ s.args.v1.toNat ∧ (emittedBits bit pairs).length ≤ s.args.v3.toNat ∧
      (emittedBits bit (pairs - 1)).length < s.args.v3.toNat ∧
      ((emittedBits bit pairs).length < s.args.v3.toNat → 2 * pairs = s.args.v1.toNat) ∧
      t.res = ⟨BitVec.ofNat 64 (2 * pairs), BitVec.ofNat 64 (emittedBits bit pairs).length, s.res.v2,
        s.res.v3⟩ ∧
      t.sctx = s.sctx ∧ t.vctx = s.vctx ∧ t.entropy = s.entropy ∧
      SameBytesOutside s.args.v2.toNat (8 * wordCount s.args.v3.toNat) s t ∧
      ∀ w, w < 64 * wordCount s.args.v3.toNat →
        bitRead t.mem s.args.v2.toNat w =
          (bitRead s.mem s.args.v2.toNat w || (emittedBits bit pairs).getD w false)

/-- R88 and the frame of DEBIAS, on every operand that passes the checks, whatever the buffers hold or however
memory answers: it completes with OK, the cursors of its pass in RES0 and RES1 and the facts of R88, or with
BUS_ERROR and RES as before; memory changes only in the destination words. -/
def Obligations.DebiasBookkeeping : Prop :=
  ∀ s : State, ¬PreconditionFails s .debias →
    ∃ t, exec .debias s = .next t ∧ t.sctx = s.sctx ∧ t.vctx = s.vctx ∧ t.entropy = s.entropy ∧
      SameBytesOutside s.args.v2.toNat (8 * wordCount s.args.v3.toNat) s t ∧
      ((CompletedFrom s t .ok ∧
        t.res.v0.toNat = s.debiasPass.used ∧ t.res.v1.toNat = s.debiasPass.filled ∧
        t.res.v0.toNat % 2 = 0 ∧ 2 ≤ t.res.v0.toNat ∧ t.res.v0.toNat ≤ s.args.v1.toNat ∧
        t.res.v1.toNat ≤ s.args.v3.toNat ∧ t.res.v1.toNat ≤ t.res.v0.toNat / 2 ∧
        (t.res.v1.toNat < s.args.v3.toNat → t.res.v0.toNat = s.args.v1.toNat) ∧
        t.res.v2 = s.res.v2 ∧ t.res.v3 = s.res.v3) ∨
       (CompletedFrom s t .busError ∧ t.res = s.res))

/-- R45, R112: AUTOCORR ends with BUS_ERROR where a read of any source word gets an error response. DEBIAS does
where the read of the first source word does; and, on steady buffers, where the read of a source word that its
pass comes to does, or the read of a destination word that a 1 goes to, or the write that sets a bit there.
RES is as before, and no byte of memory outside DEBIAS's destination words changes. R43 leaves the number of
accesses unspecified, and R45 and R112 speak of an access that is made: that these accesses are surely made is
the model's choice (log 11). -/
def Obligations.BusErrorReported : Prop :=
  ∀ s : State,
    (¬PreconditionFails s .autocorr →
      readErrs s.regions s.args.v0.toNat (8 * wordCount s.args.v1.toNat) = true →
      ∃ t, exec .autocorr s = .next t ∧ CompletedFrom s t .busError ∧ t.res = s.res ∧ t.sctx = s.sctx ∧
        t.vctx = s.vctx ∧ t.entropy = s.entropy ∧ t.mem = s.mem) ∧
    (¬PreconditionFails s .debias →
      (readErrs s.regions s.args.v0.toNat 8 = true ∨
        (s.mem.wf ∧ SteadyBuffer s s.args.v0.toNat s.args.v1.toNat ∧
          SteadyBuffer s s.args.v2.toNat s.args.v3.toNat ∧
          let bit := bitRead s.mem s.args.v0.toNat
          ∃ p, 2 * p < s.args.v1.toNat ∧ (emittedBits bit p).length < s.args.v3.toNat ∧
            (readErrs s.regions (bitWord s.args.v0.toNat (2 * p)) 8 = true ∨
              (bit (2 * p) = false ∧ bit (2 * p + 1) = true ∧
                let w := (emittedBits bit p).length
                let a := bitWord s.args.v2.toNat w
                (readErrs s.regions a 8 = true ∨
                  (writeErrs s.regions a 8 = true ∧ bitRead s.mem s.args.v2.toNat w = false)))))) →
      ∃ t, exec .debias s = .next t ∧ CompletedFrom s t .busError ∧ t.res = s.res ∧ t.sctx = s.sctx ∧
        t.vctx = s.vctx ∧ t.entropy = s.entropy ∧
        SameBytesOutside s.args.v2.toNat (8 * wordCount s.args.v3.toNat) s t)

/-! ## AUTOCORR (44_autocorr.md) -/

/-- R92, R93, R96: on a steady, readable source AUTOCORR counts exactly; a source of all zeros or all ones is degenerate, with RES0 = +0.0;
otherwise RES0 is the exact quotient rounded once. Memory is not written. -/
def Obligations.AutocorrResult : Prop :=
  ∀ s : State, ¬PreconditionFails s .autocorr → SteadyBuffer s s.args.v0.toNat s.args.v1.toNat →
    ReadableBuffer s s.args.v0.toNat s.args.v1.toNat →
    let n := s.args.v1.toNat
    let x1 := pairCount (bitRead s.mem s.args.v0.toNat) n s.args.v2.toNat
    let x2 := oneCount (bitRead s.mem s.args.v0.toNat) n
    ∃ t, exec .autocorr s = .next t ∧ t.sctx = s.sctx ∧ t.vctx = s.vctx ∧ t.entropy = s.entropy ∧
      t.mem = s.mem ∧
      (x2 = 0 ∨ x2 = n → CompletedFrom s t .degenerateAutocorrelation ∧
        t.res = ⟨0, s.res.v1, s.res.v2, s.res.v3⟩) ∧
      (x2 ≠ 0 ∧ x2 ≠ n → CompletedFrom s t .ok ∧
        t.res = ⟨rne64 ((n : Int) * x1 - (x2 : Int) * x2) (n * x2 - x2 * x2), s.res.v1, s.res.v2,
          s.res.v3⟩)

/-- R94, R113: no operand reaches INTERNAL_CONSISTENCY on a steady source, one whose words keep what is in memory
while the command runs; elsewhere each reading of a bit is a draw of its own, and the model can reach the code
(logs 13, 32). -/
def Obligations.InternalConsistencyUnreachable : Prop :=
  ∀ s t : State, s.status.err = .ok → SteadyBuffer s s.args.v0.toNat s.args.v1.toNat →
    exec .autocorr s = .next t → t.status.err ≠ .internalConsistency

/-- R97: lag `k` and lag `n - k` give the same result and the same code, for `k >= 1`. -/
def Obligations.AutocorrLagSymmetry : Prop :=
  ∀ s : State, ¬PreconditionFails s .autocorr → SteadyBuffer s s.args.v0.toNat s.args.v1.toNat →
    s.args.v2 ≠ 0 →
    ∃ t t', exec .autocorr s = .next t ∧
      exec .autocorr { s with args := { s.args with v2 := s.args.v1 - s.args.v2 } } = .next t' ∧
      t'.res = t.res ∧ t'.status = t.status

/-- Source property S5: for the pattern `1010...10` of even length, the result is 1.0 for even lags and -1.0 for
odd lags. -/
def Obligations.AutocorrOfAlternatingPattern : Prop :=
  ∀ s : State, ¬PreconditionFails s .autocorr → SteadyBuffer s s.args.v0.toNat s.args.v1.toNat →
    ReadableBuffer s s.args.v0.toNat s.args.v1.toNat → s.args.v1.toNat % 2 = 0 →
    (∀ i, i < s.args.v1.toNat → bitRead s.mem s.args.v0.toNat i = decide (i % 2 = 0)) →
    ∃ t, exec .autocorr s = .next t ∧ CompletedFrom s t .ok ∧
      t.res.v0 = if s.args.v2.toNat % 2 = 0 then 0x3FF0000000000000 else 0xBFF0000000000000

/-- R95: the rounding of a quotient in [-1, 1] is a finite binary64 value, none is nearer, of two nearest ones it
is the even one, zero gives +0.0, and 1 and -1 are exact. What binary64 is comes from IEEE 754 (log 24). -/
def Obligations.RoundsToNearestEven : Prop :=
  ∀ (num : Int) (den : Nat), 0 < den → num.natAbs ≤ den →
    let r := rne64 num den
    let q : Rat := (num : Rat) / (den : Rat)
    finite64 r = true ∧
    (∀ y, finite64 y = true → |value64 r - q| ≤ |value64 y - q|) ∧
    (∀ y, finite64 y = true → |value64 y - q| = |value64 r - q| → value64 y ≠ value64 r →
      r.getLsbD 0 = false) ∧
    (num = 0 → r = 0) ∧ (num = (den : Int) → r = 0x3FF0000000000000) ∧
    (num = -(den : Int) → r = 0xBFF0000000000000)

/-! ## Bit counting (00_scope.md R14) -/

/-- `popcount` is the number of set bits; for a word that is not 0, `ctz` is the position of its lowest set bit and
`bitlen` that of its highest plus one (R14). -/
def Obligations.BitCountsAreRight : Prop :=
  ∀ v : Word64, popcount v = setBits v ∧
    (v ≠ 0 →
      (ctz v < 64 ∧ v.getLsbD (ctz v) = true ∧ ∀ i, i < ctz v → v.getLsbD i = false) ∧
      (1 ≤ bitlen v ∧ bitlen v ≤ 64 ∧ v.getLsbD (bitlen v - 1) = true ∧
        ∀ i, bitlen v ≤ i → v.getLsbD i = false))

/-- A command that reset ends has used up at most the entropy answers it would have used if it had gone on, from the
first one on, and none where no command runs or its word is illegal (R31, R57, R68, R108, R123). That it can be
any number up to that is the model's choice (log 16). -/
def Obligations.AbortedCommandEntropyUse : Prop :=
  ∀ s : State, s.nextTurn = .assertReset →
    ∃ t, step s = .next t ∧
      (s.status.busy = false ∨ IllegalWord s s.cmd → t.entropy = s.entropy) ∧
      ∀ (i : Instr) (u : State), s.status.busy = true → decode s.cmd = .ok i → exec i s = .next u →
        ∃ n, t.entropy = ⟨s.entropy.answers.drop n, s.entropy.attempts + n⟩ ∧
          t.entropy.attempts ≤ u.entropy.attempts

/-! ## Invariant -/

/-- Every step keeps the invariant: odd increments in valid contexts (R27, R28), ERR 0 while BUSY (R22),
transient state only while BUSY (R33), no command in reset (R123), canonical memory. -/
def Obligations.StepKeepsInvariant : Prop :=
  ∀ s t : State, s.Inv → step s = .next t → t.Inv

/-- The reset state meets the invariant. -/
def Obligations.ResetMeetsInvariant : Prop := State.reset.Inv
end

