-- ==== Sys2Proof/Laws/Decode.lean ====
section
/-! SUPPORT. The fields of an encoded command, and that the rows of the opcode table do not overlap. -/

namespace Sys2Proof

@[simp] theorem fieldOpc_encode (i : Instr) : fieldOpc (encode i) = i.opcode := by
  cases i <;> first | decide | (rename_i c; revert c; decide)

@[simp] theorem fieldCtx_encode (i : Instr) : fieldCtx (encode i) = i.ctxField := by
  cases i <;> first | decide | (rename_i c; revert c; decide)

@[simp] theorem fieldRsv_encode (i : Instr) : fieldRsv (encode i) = 0 := by
  cases i <;> first | decide | (rename_i c; revert c; decide)

/-- No word fits two rows of the opcode table: of any two rows, some bit both fix differs. -/
theorem opcodeRows_disjoint :
    opcodeRows.Pairwise (fun r r' => r.pattern &&& r'.mask ≠ r'.pattern &&& r.mask) := by decide

end Sys2Proof
end

