-- ==== Sys2Proof/Laws/Loop.lean ====
section
/-! SUPPORT. The bounded loop: an invariant rule, and when the fuel is enough. -/

namespace Sys2Proof.Machine

variable {α : Type} {cond : α → Bool} {body : α → α}

@[simp] theorem repeatWhile_zero (a : α) : repeatWhile cond body 0 a = a := rfl

theorem repeatWhile_succ (k : Nat) (a : α) :
    repeatWhile cond body (k + 1) a = if cond a then repeatWhile cond body k (body a) else a := rfl

/-- A loop whose condition is false at once does nothing. -/
theorem repeatWhile_done (k : Nat) (a : α) (h : cond a = false) : repeatWhile cond body k a = a := by
  cases k <;> simp [repeatWhile, h]

/-- Invariant rule: what every round keeps holds at the end. -/
theorem repeatWhile_invariant (P : α → Prop) (hstep : ∀ a, P a → cond a = true → P (body a)) :
    ∀ (k : Nat) (a : α), P a → P (repeatWhile cond body k a)
  | 0, _, h => h
  | k + 1, a, h => by
    rw [repeatWhile_succ]
    split
    · next hc => exact repeatWhile_invariant P hstep k (body a) (hstep a h hc)
    · exact h

/-- Where a measure bounded by the fuel falls every round, the loop ends by its condition. -/
theorem repeatWhile_ends (measure : α → Nat)
    (hstep : ∀ a, cond a = true → measure (body a) < measure a) :
    ∀ (k : Nat) (a : α), measure a ≤ k → (cond a = true → 0 < measure a) →
      (∀ a, cond a = true → cond (body a) = true → 0 < measure (body a)) →
      cond (repeatWhile cond body k a) = false
  | 0, a, hk, hpos, _ => by
    by_contra h
    have := hpos (by simpa using h)
    omega
  | k + 1, a, hk, hpos, hnext => by
    rw [repeatWhile_succ]
    split
    · next hc =>
      exact repeatWhile_ends measure hstep k (body a) (by have := hstep a hc; omega)
        (fun hb => hnext a hc hb) hnext
    · next hc => simpa using hc

/-- A loop that counts `pos` up by one each round, until `pos = limit`, is an iteration. -/
theorem repeatWhile_count (pos : α → Nat) (limit : Nat) (hcond : ∀ a, cond a = decide (pos a < limit))
    (hbody : ∀ a, pos (body a) = pos a + 1) :
    ∀ (k : Nat) (a : α), limit - pos a ≤ k → repeatWhile cond body k a = body^[limit - pos a] a
  | 0, a, hk => by
    have : limit - pos a = 0 := by omega
    simp [this]
  | k + 1, a, hk => by
    rw [repeatWhile_succ]
    by_cases h : pos a < limit
    · have hd : limit - pos a = (limit - pos (body a)) + 1 := by rw [hbody]; omega
      simp only [hcond, h, decide_true, if_true]
      rw [repeatWhile_count pos limit hcond hbody k (body a) (by omega), hd, Function.iterate_succ_apply]
    · have : limit - pos a = 0 := by omega
      simp [hcond, h, this]

/-- Rounds whose condition holds can be taken off the front of a loop. -/
theorem repeatWhile_skip {α : Type} (cond : α → Bool) (body : α → α) (p fuel : Nat) (a : α)
    (h : ∀ i, i < p → cond (body^[i] a) = true) (hf : p ≤ fuel) :
    repeatWhile cond body fuel a = repeatWhile cond body (fuel - p) (body^[p] a) := by
  induction p generalizing fuel a with
  | zero => rfl
  | succ p ih =>
    obtain ⟨fuel, rfl⟩ : ∃ g, fuel = g + 1 := ⟨fuel - 1, by omega⟩
    rw [repeatWhile, if_pos (by simpa using h 0 (by omega)),
      ih fuel (body a) (fun i hi => h (i + 1) (by omega)) (by omega)]
    simp

end Sys2Proof.Machine
end

