-- ==== Sys2Proof/Laws/Memory.lean ====
section
/-! SUPPORT. Host memory: a read after a write, and that every memory operation keeps the canonical form
and stays inside the address space it is used in. -/

namespace Sys2Proof.Machine

/-- Every address memory lists is below `n`. -/
abbrev Memory.below (m : Memory) (n : Nat) : Prop := ∀ c ∈ m, c.1 < n

theorem wf_nil : Memory.wf [] := by simp [Memory.wf]

theorem wf_cons {k : Nat} {v : Byte} {t : Memory} :
    Memory.wf ((k, v) :: t) ↔ (∀ c ∈ t, k < c.1) ∧ v ≠ unlistedByte ∧ Memory.wf t := by
  simp only [Memory.wf, List.pairwise_cons, List.forall_mem_cons]
  tauto

theorem readByte_absent {m : Memory} {a : Nat} (h : ∀ c ∈ m, a ≠ c.1) : readByte m a = unlistedByte := by
  induction m with
  | nil => rfl
  | cons c t ih =>
    simp only [List.forall_mem_cons] at h
    simp [readByte, Ne.symm h.1, ih h.2]

theorem mem_consByte {a : Nat} {v : Byte} {t : Memory} {c : Host.Cell} (h : c ∈ consByte a v t) :
    c = (a, v) ∨ c ∈ t := by
  unfold consByte at h
  split at h
  · exact .inr h
  · simpa using h

theorem mem_writeByte {m : Memory} {a : Nat} {v : Byte} {c : Host.Cell} (h : c ∈ writeByte m a v) :
    c = (a, v) ∨ c ∈ m := by
  induction m with
  | nil => simpa using mem_consByte h
  | cons d t ih =>
    rw [writeByte] at h
    split at h
    · exact mem_consByte h
    · split at h
      · rcases mem_consByte h with h | h
        · exact .inl h
        · exact .inr (List.mem_cons_of_mem _ h)
      · rcases List.mem_cons.1 h with h | h
        · exact .inr (by simp [h])
        · rcases ih h with h | h
          · exact .inl h
          · exact .inr (List.mem_cons_of_mem _ h)

theorem consByte_wf {a : Nat} {v : Byte} {t : Memory} (ht : Memory.wf t) (ha : ∀ c ∈ t, a < c.1) :
    Memory.wf (consByte a v t) := by
  unfold consByte
  split
  · exact ht
  · next hv => exact wf_cons.2 ⟨ha, hv, ht⟩

/-- A store keeps the canonical form. -/
theorem writeByte_wf {m : Memory} (a : Nat) (v : Byte) (h : Memory.wf m) : Memory.wf (writeByte m a v) := by
  induction m with
  | nil => exact consByte_wf wf_nil (by simp)
  | cons d t ih =>
    obtain ⟨k, w⟩ := d
    obtain ⟨hlt, hw, ht⟩ := wf_cons.1 h
    rw [writeByte]
    split
    · next hak =>
      refine consByte_wf h ?_
      simp only [List.forall_mem_cons]
      exact ⟨hak, fun c hc => hak.trans (hlt c hc)⟩
    · split
      · next _ hak => subst hak; exact consByte_wf ht hlt
      · next h1 h2 =>
        refine wf_cons.2 ⟨fun c hc => ?_, hw, ih ht⟩
        rcases mem_writeByte hc with rfl | hc
        · simp only; omega
        · exact hlt c hc

theorem readByte_consByte_same {a : Nat} {v : Byte} {t : Memory} (h : ∀ c ∈ t, a < c.1) :
    readByte (consByte a v t) a = v := by
  unfold consByte
  split
  · next hv => rw [hv]; exact readByte_absent (fun c hc => (h c hc).ne)
  · simp [readByte]

theorem readByte_consByte_other {a b : Nat} {v : Byte} {t : Memory} (h : b ≠ a) :
    readByte (consByte a v t) b = readByte t b := by
  unfold consByte
  split
  · rfl
  · simp [readByte, Ne.symm h]

/-- The byte just stored reads back. -/
theorem readByte_writeByte_same {m : Memory} (a : Nat) (v : Byte) (h : Memory.wf m) :
    readByte (writeByte m a v) a = v := by
  induction m with
  | nil => exact readByte_consByte_same (by simp)
  | cons d t ih =>
    obtain ⟨k, w⟩ := d
    obtain ⟨hlt, -, ht⟩ := wf_cons.1 h
    rw [writeByte]
    split
    · next hak =>
      refine readByte_consByte_same ?_
      simp only [List.forall_mem_cons]
      exact ⟨hak, fun c hc => hak.trans (hlt c hc)⟩
    · split
      · next _ hak => subst hak; exact readByte_consByte_same hlt
      · next _ h2 => simp [readByte, Ne.symm h2, ih ht]

/-- Every other byte reads as before. -/
theorem readByte_writeByte_other (m : Memory) {a b : Nat} (v : Byte) (h : b ≠ a) :
    readByte (writeByte m a v) b = readByte m b := by
  induction m with
  | nil => exact readByte_consByte_other h
  | cons d t ih =>
    obtain ⟨k, w⟩ := d
    rw [writeByte]
    split
    · exact readByte_consByte_other h
    · split
      · next _ hak => subst hak; rw [readByte_consByte_other h]; simp [readByte, Ne.symm h]
      · simp only [readByte]; split
        · rfl
        · exact ih

theorem writeByte_below {m : Memory} {a n : Nat} (v : Byte) (h : Memory.below m n) (ha : a < n) :
    Memory.below (writeByte m a v) n := by
  intro c hc
  rcases mem_writeByte hc with rfl | hc
  · exact ha
  · exact h c hc

theorem writeLE_wf {m : Memory} (a n v : Nat) (h : Memory.wf m) : Memory.wf (writeLE m a n v) := by
  induction n generalizing m a v with
  | zero => exact h
  | succ n ih => exact ih _ _ (writeByte_wf a _ h)

theorem writeLE_below {m : Memory} {a n k : Nat} (v : Nat) (h : Memory.below m k) (ha : a + n ≤ k) :
    Memory.below (writeLE m a n v) k := by
  induction n generalizing m a v with
  | zero => exact h
  | succ n ih => exact ih _ (writeByte_below _ h (by omega)) (by omega)

/-- A multi-byte store leaves every byte outside it alone. -/
theorem readByte_writeLE_outside (m : Memory) (a n v b : Nat) (h : b < a ∨ a + n ≤ b) :
    readByte (writeLE m a n v) b = readByte m b := by
  induction n generalizing m a v with
  | zero => rfl
  | succ n ih =>
    rw [writeLE, ih _ _ _ (by omega), readByte_writeByte_other _ _ (by omega)]

/-- Byte `j` of a multi-byte store reads back as byte `j` of the value. -/
theorem readByte_writeLE_inside {m : Memory} (a n v j : Nat) (h : Memory.wf m) (hj : j < n) :
    readByte (writeLE m a n v) (a + j) = BitVec.ofNat 8 (v / 256 ^ j) := by
  induction n generalizing m a v j with
  | zero => omega
  | succ n ih =>
    rw [writeLE]
    cases j with
    | zero =>
      rw [readByte_writeLE_outside _ _ _ _ _ (by omega)]
      simpa using readByte_writeByte_same a _ h
    | succ j =>
      have := ih (a := a + 1) (v := v / 256) (j := j) (writeByte_wf a (BitVec.ofNat 8 v) h) (by omega)
      rw [show a + (j + 1) = a + 1 + j by omega, this, Nat.div_div_eq_div_mul, Nat.pow_succ']

/-- Reads of `n` bytes agree where the bytes do. -/
theorem readLE_congr {m m' : Memory} {a n : Nat} (h : ∀ b, a ≤ b → b < a + n → readByte m' b = readByte m b) :
    readLE m' a n = readLE m a n := by
  induction n generalizing a with
  | zero => rfl
  | succ n ih =>
    rw [readLE, readLE, h a (by omega) (by omega), ih (fun b h1 h2 => h b (by omega) (by omega))]

theorem readLE_lt (m : Memory) (a n : Nat) : readLE m a n < 256 ^ n := by
  induction n generalizing a with
  | zero => simp [readLE]
  | succ n ih =>
    have h1 := (readByte m a).isLt
    have h2 := ih (a + 1)
    rw [readLE, Nat.pow_succ]
    omega

/-- Bit `i` of a multi-byte read is bit `i mod 8` of byte `i div 8` (R40, R41). -/
theorem testBit_readLE (m : Memory) (a n i : Nat) (h : i < 8 * n) :
    (readLE m a n).testBit i = (readByte m (a + i / 8)).getLsbD (i % 8) := by
  induction n generalizing a i with
  | zero => omega
  | succ n ih =>
    have hb := (readByte m a).isLt
    rw [readLE, Nat.add_comm, show (256 : Nat) = 2 ^ 8 from rfl, Nat.testBit_two_pow_mul_add _ hb]
    split
    · next hi => simp [Nat.div_eq_of_lt hi, Nat.mod_eq_of_lt hi, BitVec.getLsbD]
    · next hi =>
      have h1 : a + 1 + (i - 8) / 8 = a + i / 8 := by omega
      have h2 : (i - 8) % 8 = i % 8 := by omega
      rw [ih (a + 1) (i - 8) (by omega), h1, h2]

theorem writeWord_wf {m : Memory} (a : Nat) (w : Word64) (h : Memory.wf m) : Memory.wf (writeWord m a w) :=
  writeLE_wf a 8 _ h

theorem writeWord_below {m : Memory} {a k : Nat} (w : Word64) (h : Memory.below m k) (ha : a + 8 ≤ k) :
    Memory.below (writeWord m a w) k := writeLE_below _ h ha

theorem readByte_writeWord_outside (m : Memory) (a : Nat) (w : Word64) (b : Nat) (h : b < a ∨ a + 8 ≤ b) :
    readByte (writeWord m a w) b = readByte m b := readByte_writeLE_outside m a 8 _ b h

theorem orBit_wf {m : Memory} (base i : Nat) (h : Memory.wf m) : Memory.wf (orBit base m i) :=
  writeWord_wf _ _ h

/-- Bit `i` of a buffer is bit `i mod 8` of its byte `i div 8` (R41). -/
theorem bitRead_eq_byte (m : Memory) (a i : Nat) : bitRead m a i = (readByte m (a + i / 8)).getLsbD (i % 8) := by
  have h := testBit_readLE m (bitWord a i) 8 (i % 64) (by omega)
  have hlt : i % 64 < 64 := by omega
  rw [show bitWord a i + i % 64 / 8 = a + i / 8 by unfold bitWord; omega, show i % 64 % 8 = i % 8 by omega] at h
  rw [← h, bitRead, readWord, BitVec.getLsbD_ofNat, decide_eq_true hlt, Bool.true_and]

/-- Bit `k` of byte `j` of a number is bit `8j + k` of it. -/
theorem getLsbD_byte (v j k : Nat) (hk : k < 8) :
    (BitVec.ofNat 8 (v / 256 ^ j)).getLsbD k = v.testBit (8 * j + k) := by
  rw [BitVec.getLsbD_ofNat, show (256 : Nat) ^ j = 2 ^ (8 * j) by rw [pow_mul]; rfl]
  simp [hk, Nat.testBit_div_two_pow, Nat.add_comm]

/-- A word just written reads back, bit by bit. -/
theorem readWord_writeWord_bit {m : Memory} (h : Memory.wf m) (a : Nat) (w : Word64) (i : Nat) (hi : i < 64) :
    (readWord (writeWord m a w) a).getLsbD i = w.getLsbD i := by
  rw [readWord, BitVec.getLsbD_ofNat, testBit_readLE _ _ _ _ (by omega), writeWord,
    readByte_writeLE_inside _ _ _ _ h (by omega), getLsbD_byte _ _ _ (by omega)]
  simp [hi, BitVec.getLsbD, show 8 * (i / 8) + i % 8 = i by omega]

/-- `orBit` sets the bit it names, and no other bit changes. -/
theorem bitRead_orBit {m : Memory} (h : Memory.wf m) (base w i : Nat) :
    bitRead (orBit base m w) base i = (bitRead m base i || decide (i = w)) := by
  by_cases hw : i / 64 = w / 64
  · have hb : bitWord base i = bitWord base w := by unfold bitWord; omega
    rw [bitRead, bitRead, hb, orBit, readWord_writeWord_bit h _ _ _ (by omega), BitVec.getLsbD_or, bitMask,
      BitVec.getLsbD_shiftLeft]
    congr 1
    by_cases e : i = w
    · subst e; simp; omega
    · simp [show i % 64 < 64 by omega, e]; omega
  · have e : i ≠ w := by rintro rfl; exact hw rfl
    rw [bitRead_eq_byte, bitRead_eq_byte, orBit, readByte_writeWord_outside]
    · simp [e]
    · unfold bitWord; omega

/-- `overwriteWords` changes no byte outside the words it is given. -/
theorem readByte_overwriteWords_outside (draw : Nat → Word64) (pick : Nat → Bool) (base k : Nat) (m : Memory)
    (b : Nat) (h : b < base ∨ base + 8 * k ≤ b) :
    readByte (overwriteWords draw pick base k m) b = readByte m b := by
  induction k with
  | zero => rfl
  | succ k ih =>
    simp only [overwriteWords]
    split
    · rw [readByte_writeWord_outside _ _ _ _ (by omega), ih (by omega)]
    · exact ih (by omega)

/-- Where no word is picked, nothing is overwritten. -/
theorem overwriteWords_none (draw : Nat → Word64) (pick : Nat → Bool) (base k : Nat) (m : Memory)
    (h : ∀ j, j < k → pick (base + 8 * j) = false) : overwriteWords draw pick base k m = m := by
  induction k with
  | zero => rfl
  | succ k ih => simp [overwriteWords, h k (by omega), ih (fun j hj => h j (by omega))]

theorem overwriteWords_wf {m : Memory} (draw : Nat → Word64) (pick : Nat → Bool) (base k : Nat)
    (h : Memory.wf m) : Memory.wf (overwriteWords draw pick base k m) := by
  induction k with
  | zero => exact h
  | succ k ih =>
    simp only [overwriteWords]
    split
    · exact writeWord_wf _ _ ih
    · exact ih

theorem overwriteWords_below {m : Memory} {n : Nat} (draw : Nat → Word64) (pick : Nat → Bool) (base k : Nat)
    (h : Memory.below m n) (hk : base + 8 * k ≤ n) : Memory.below (overwriteWords draw pick base k m) n := by
  induction k with
  | zero => exact h
  | succ k ih =>
    simp only [overwriteWords]
    split
    · exact writeWord_below _ (ih (by omega)) (by omega)
    · exact ih (by omega)

end Sys2Proof.Machine
end

