-- ==== Sys2Proof/Laws/State.lean ====
section
/-! SUPPORT. One lemma for each field of State under each named update, true by definition, so that no
proof unfolds a record update; and the spellings that the updates and accessors are brought to. -/

namespace Sys2Proof.Machine.State

@[simp] theorem setRes_cmd (s : State) (i : Fin 4) (v : Word64) :
    (s.setRes i v).cmd = s.cmd := rfl
@[simp] theorem setRes_status (s : State) (i : Fin 4) (v : Word64) :
    (s.setRes i v).status = s.status := rfl
@[simp] theorem setRes_args (s : State) (i : Fin 4) (v : Word64) :
    (s.setRes i v).args = s.args := rfl
@[simp] theorem setRes_res (s : State) (i : Fin 4) (v : Word64) :
    (s.setRes i v).res = s.res.set i v := rfl
@[simp] theorem setRes_sctx (s : State) (i : Fin 4) (v : Word64) :
    (s.setRes i v).sctx = s.sctx := rfl
@[simp] theorem setRes_vctx (s : State) (i : Fin 4) (v : Word64) :
    (s.setRes i v).vctx = s.vctx := rfl
@[simp] theorem setRes_transient (s : State) (i : Fin 4) (v : Word64) :
    (s.setRes i v).transient = s.transient := rfl
@[simp] theorem setRes_inReset (s : State) (i : Fin 4) (v : Word64) :
    (s.setRes i v).inReset = s.inReset := rfl
@[simp] theorem setRes_params (s : State) (i : Fin 4) (v : Word64) :
    (s.setRes i v).params = s.params := rfl
@[simp] theorem setRes_mem (s : State) (i : Fin 4) (v : Word64) :
    (s.setRes i v).mem = s.mem := rfl
@[simp] theorem setRes_regions (s : State) (i : Fin 4) (v : Word64) :
    (s.setRes i v).regions = s.regions := rfl
@[simp] theorem setRes_unfenced (s : State) (i : Fin 4) (v : Word64) :
    (s.setRes i v).unfenced = s.unfenced := rfl
@[simp] theorem setRes_stale (s : State) (i : Fin 4) (v : Word64) :
    (s.setRes i v).stale = s.stale := rfl
@[simp] theorem setRes_disturbed (s : State) (i : Fin 4) (v : Word64) :
    (s.setRes i v).disturbed = s.disturbed := rfl
@[simp] theorem setRes_entropy (s : State) (i : Fin 4) (v : Word64) :
    (s.setRes i v).entropy = s.entropy := rfl
@[simp] theorem setRes_host (s : State) (i : Fin 4) (v : Word64) :
    (s.setRes i v).host = s.host := rfl
@[simp] theorem setRes_turns (s : State) (i : Fin 4) (v : Word64) :
    (s.setRes i v).turns = s.turns := rfl
@[simp] theorem setRes_free (s : State) (i : Fin 4) (v : Word64) :
    (s.setRes i v).free = s.free := rfl

@[simp] theorem setAllRes_cmd (s : State) (q : Quad Word64) :
    (s.setAllRes q).cmd = s.cmd := rfl
@[simp] theorem setAllRes_status (s : State) (q : Quad Word64) :
    (s.setAllRes q).status = s.status := rfl
@[simp] theorem setAllRes_args (s : State) (q : Quad Word64) :
    (s.setAllRes q).args = s.args := rfl
@[simp] theorem setAllRes_res (s : State) (q : Quad Word64) :
    (s.setAllRes q).res = q := rfl
@[simp] theorem setAllRes_sctx (s : State) (q : Quad Word64) :
    (s.setAllRes q).sctx = s.sctx := rfl
@[simp] theorem setAllRes_vctx (s : State) (q : Quad Word64) :
    (s.setAllRes q).vctx = s.vctx := rfl
@[simp] theorem setAllRes_transient (s : State) (q : Quad Word64) :
    (s.setAllRes q).transient = s.transient := rfl
@[simp] theorem setAllRes_inReset (s : State) (q : Quad Word64) :
    (s.setAllRes q).inReset = s.inReset := rfl
@[simp] theorem setAllRes_params (s : State) (q : Quad Word64) :
    (s.setAllRes q).params = s.params := rfl
@[simp] theorem setAllRes_mem (s : State) (q : Quad Word64) :
    (s.setAllRes q).mem = s.mem := rfl
@[simp] theorem setAllRes_regions (s : State) (q : Quad Word64) :
    (s.setAllRes q).regions = s.regions := rfl
@[simp] theorem setAllRes_unfenced (s : State) (q : Quad Word64) :
    (s.setAllRes q).unfenced = s.unfenced := rfl
@[simp] theorem setAllRes_stale (s : State) (q : Quad Word64) :
    (s.setAllRes q).stale = s.stale := rfl
@[simp] theorem setAllRes_disturbed (s : State) (q : Quad Word64) :
    (s.setAllRes q).disturbed = s.disturbed := rfl
@[simp] theorem setAllRes_entropy (s : State) (q : Quad Word64) :
    (s.setAllRes q).entropy = s.entropy := rfl
@[simp] theorem setAllRes_host (s : State) (q : Quad Word64) :
    (s.setAllRes q).host = s.host := rfl
@[simp] theorem setAllRes_turns (s : State) (q : Quad Word64) :
    (s.setAllRes q).turns = s.turns := rfl
@[simp] theorem setAllRes_free (s : State) (q : Quad Word64) :
    (s.setAllRes q).free = s.free := rfl

@[simp] theorem setScalar_cmd (s : State) (c : Ctx) (x : ScalarCtx) :
    (s.setScalar c x).cmd = s.cmd := rfl
@[simp] theorem setScalar_status (s : State) (c : Ctx) (x : ScalarCtx) :
    (s.setScalar c x).status = s.status := rfl
@[simp] theorem setScalar_args (s : State) (c : Ctx) (x : ScalarCtx) :
    (s.setScalar c x).args = s.args := rfl
@[simp] theorem setScalar_res (s : State) (c : Ctx) (x : ScalarCtx) :
    (s.setScalar c x).res = s.res := rfl
@[simp] theorem setScalar_sctx (s : State) (c : Ctx) (x : ScalarCtx) :
    (s.setScalar c x).sctx = s.sctx.set c.toNat x := rfl
@[simp] theorem setScalar_vctx (s : State) (c : Ctx) (x : ScalarCtx) :
    (s.setScalar c x).vctx = s.vctx := rfl
@[simp] theorem setScalar_transient (s : State) (c : Ctx) (x : ScalarCtx) :
    (s.setScalar c x).transient = s.transient := rfl
@[simp] theorem setScalar_inReset (s : State) (c : Ctx) (x : ScalarCtx) :
    (s.setScalar c x).inReset = s.inReset := rfl
@[simp] theorem setScalar_params (s : State) (c : Ctx) (x : ScalarCtx) :
    (s.setScalar c x).params = s.params := rfl
@[simp] theorem setScalar_mem (s : State) (c : Ctx) (x : ScalarCtx) :
    (s.setScalar c x).mem = s.mem := rfl
@[simp] theorem setScalar_regions (s : State) (c : Ctx) (x : ScalarCtx) :
    (s.setScalar c x).regions = s.regions := rfl
@[simp] theorem setScalar_unfenced (s : State) (c : Ctx) (x : ScalarCtx) :
    (s.setScalar c x).unfenced = s.unfenced := rfl
@[simp] theorem setScalar_stale (s : State) (c : Ctx) (x : ScalarCtx) :
    (s.setScalar c x).stale = s.stale := rfl
@[simp] theorem setScalar_disturbed (s : State) (c : Ctx) (x : ScalarCtx) :
    (s.setScalar c x).disturbed = s.disturbed := rfl
@[simp] theorem setScalar_entropy (s : State) (c : Ctx) (x : ScalarCtx) :
    (s.setScalar c x).entropy = s.entropy := rfl
@[simp] theorem setScalar_host (s : State) (c : Ctx) (x : ScalarCtx) :
    (s.setScalar c x).host = s.host := rfl
@[simp] theorem setScalar_turns (s : State) (c : Ctx) (x : ScalarCtx) :
    (s.setScalar c x).turns = s.turns := rfl
@[simp] theorem setScalar_free (s : State) (c : Ctx) (x : ScalarCtx) :
    (s.setScalar c x).free = s.free := rfl

@[simp] theorem setVector_cmd (s : State) (c : Ctx) (x : VectorCtx) :
    (s.setVector c x).cmd = s.cmd := rfl
@[simp] theorem setVector_status (s : State) (c : Ctx) (x : VectorCtx) :
    (s.setVector c x).status = s.status := rfl
@[simp] theorem setVector_args (s : State) (c : Ctx) (x : VectorCtx) :
    (s.setVector c x).args = s.args := rfl
@[simp] theorem setVector_res (s : State) (c : Ctx) (x : VectorCtx) :
    (s.setVector c x).res = s.res := rfl
@[simp] theorem setVector_sctx (s : State) (c : Ctx) (x : VectorCtx) :
    (s.setVector c x).sctx = s.sctx := rfl
@[simp] theorem setVector_vctx (s : State) (c : Ctx) (x : VectorCtx) :
    (s.setVector c x).vctx = s.vctx.set c.toNat x := rfl
@[simp] theorem setVector_transient (s : State) (c : Ctx) (x : VectorCtx) :
    (s.setVector c x).transient = s.transient := rfl
@[simp] theorem setVector_inReset (s : State) (c : Ctx) (x : VectorCtx) :
    (s.setVector c x).inReset = s.inReset := rfl
@[simp] theorem setVector_params (s : State) (c : Ctx) (x : VectorCtx) :
    (s.setVector c x).params = s.params := rfl
@[simp] theorem setVector_mem (s : State) (c : Ctx) (x : VectorCtx) :
    (s.setVector c x).mem = s.mem := rfl
@[simp] theorem setVector_regions (s : State) (c : Ctx) (x : VectorCtx) :
    (s.setVector c x).regions = s.regions := rfl
@[simp] theorem setVector_unfenced (s : State) (c : Ctx) (x : VectorCtx) :
    (s.setVector c x).unfenced = s.unfenced := rfl
@[simp] theorem setVector_stale (s : State) (c : Ctx) (x : VectorCtx) :
    (s.setVector c x).stale = s.stale := rfl
@[simp] theorem setVector_disturbed (s : State) (c : Ctx) (x : VectorCtx) :
    (s.setVector c x).disturbed = s.disturbed := rfl
@[simp] theorem setVector_entropy (s : State) (c : Ctx) (x : VectorCtx) :
    (s.setVector c x).entropy = s.entropy := rfl
@[simp] theorem setVector_host (s : State) (c : Ctx) (x : VectorCtx) :
    (s.setVector c x).host = s.host := rfl
@[simp] theorem setVector_turns (s : State) (c : Ctx) (x : VectorCtx) :
    (s.setVector c x).turns = s.turns := rfl
@[simp] theorem setVector_free (s : State) (c : Ctx) (x : VectorCtx) :
    (s.setVector c x).free = s.free := rfl

@[simp] theorem setEntropy_cmd (s : State) (p : EntropyPort) :
    (s.setEntropy p).cmd = s.cmd := rfl
@[simp] theorem setEntropy_status (s : State) (p : EntropyPort) :
    (s.setEntropy p).status = s.status := rfl
@[simp] theorem setEntropy_args (s : State) (p : EntropyPort) :
    (s.setEntropy p).args = s.args := rfl
@[simp] theorem setEntropy_res (s : State) (p : EntropyPort) :
    (s.setEntropy p).res = s.res := rfl
@[simp] theorem setEntropy_sctx (s : State) (p : EntropyPort) :
    (s.setEntropy p).sctx = s.sctx := rfl
@[simp] theorem setEntropy_vctx (s : State) (p : EntropyPort) :
    (s.setEntropy p).vctx = s.vctx := rfl
@[simp] theorem setEntropy_transient (s : State) (p : EntropyPort) :
    (s.setEntropy p).transient = s.transient := rfl
@[simp] theorem setEntropy_inReset (s : State) (p : EntropyPort) :
    (s.setEntropy p).inReset = s.inReset := rfl
@[simp] theorem setEntropy_params (s : State) (p : EntropyPort) :
    (s.setEntropy p).params = s.params := rfl
@[simp] theorem setEntropy_mem (s : State) (p : EntropyPort) :
    (s.setEntropy p).mem = s.mem := rfl
@[simp] theorem setEntropy_regions (s : State) (p : EntropyPort) :
    (s.setEntropy p).regions = s.regions := rfl
@[simp] theorem setEntropy_unfenced (s : State) (p : EntropyPort) :
    (s.setEntropy p).unfenced = s.unfenced := rfl
@[simp] theorem setEntropy_stale (s : State) (p : EntropyPort) :
    (s.setEntropy p).stale = s.stale := rfl
@[simp] theorem setEntropy_disturbed (s : State) (p : EntropyPort) :
    (s.setEntropy p).disturbed = s.disturbed := rfl
@[simp] theorem setEntropy_entropy (s : State) (p : EntropyPort) :
    (s.setEntropy p).entropy = p := rfl
@[simp] theorem setEntropy_host (s : State) (p : EntropyPort) :
    (s.setEntropy p).host = s.host := rfl
@[simp] theorem setEntropy_turns (s : State) (p : EntropyPort) :
    (s.setEntropy p).turns = s.turns := rfl
@[simp] theorem setEntropy_free (s : State) (p : EntropyPort) :
    (s.setEntropy p).free = s.free := rfl

@[simp] theorem setMem_cmd (s : State) (m : Memory) :
    (s.setMem m).cmd = s.cmd := rfl
@[simp] theorem setMem_status (s : State) (m : Memory) :
    (s.setMem m).status = s.status := rfl
@[simp] theorem setMem_args (s : State) (m : Memory) :
    (s.setMem m).args = s.args := rfl
@[simp] theorem setMem_res (s : State) (m : Memory) :
    (s.setMem m).res = s.res := rfl
@[simp] theorem setMem_sctx (s : State) (m : Memory) :
    (s.setMem m).sctx = s.sctx := rfl
@[simp] theorem setMem_vctx (s : State) (m : Memory) :
    (s.setMem m).vctx = s.vctx := rfl
@[simp] theorem setMem_transient (s : State) (m : Memory) :
    (s.setMem m).transient = s.transient := rfl
@[simp] theorem setMem_inReset (s : State) (m : Memory) :
    (s.setMem m).inReset = s.inReset := rfl
@[simp] theorem setMem_params (s : State) (m : Memory) :
    (s.setMem m).params = s.params := rfl
@[simp] theorem setMem_mem (s : State) (m : Memory) :
    (s.setMem m).mem = m := rfl
@[simp] theorem setMem_regions (s : State) (m : Memory) :
    (s.setMem m).regions = s.regions := rfl
@[simp] theorem setMem_unfenced (s : State) (m : Memory) :
    (s.setMem m).unfenced = s.unfenced := rfl
@[simp] theorem setMem_stale (s : State) (m : Memory) :
    (s.setMem m).stale = s.stale := rfl
@[simp] theorem setMem_disturbed (s : State) (m : Memory) :
    (s.setMem m).disturbed = s.disturbed := rfl
@[simp] theorem setMem_entropy (s : State) (m : Memory) :
    (s.setMem m).entropy = s.entropy := rfl
@[simp] theorem setMem_host (s : State) (m : Memory) :
    (s.setMem m).host = s.host := rfl
@[simp] theorem setMem_turns (s : State) (m : Memory) :
    (s.setMem m).turns = s.turns := rfl
@[simp] theorem setMem_free (s : State) (m : Memory) :
    (s.setMem m).free = s.free := rfl

@[simp] theorem countDraw_cmd (s : State) :
    (s.countDraw).cmd = s.cmd := rfl
@[simp] theorem countDraw_status (s : State) :
    (s.countDraw).status = s.status := rfl
@[simp] theorem countDraw_args (s : State) :
    (s.countDraw).args = s.args := rfl
@[simp] theorem countDraw_res (s : State) :
    (s.countDraw).res = s.res := rfl
@[simp] theorem countDraw_sctx (s : State) :
    (s.countDraw).sctx = s.sctx := rfl
@[simp] theorem countDraw_vctx (s : State) :
    (s.countDraw).vctx = s.vctx := rfl
@[simp] theorem countDraw_transient (s : State) :
    (s.countDraw).transient = s.transient := rfl
@[simp] theorem countDraw_inReset (s : State) :
    (s.countDraw).inReset = s.inReset := rfl
@[simp] theorem countDraw_params (s : State) :
    (s.countDraw).params = s.params := rfl
@[simp] theorem countDraw_mem (s : State) :
    (s.countDraw).mem = s.mem := rfl
@[simp] theorem countDraw_regions (s : State) :
    (s.countDraw).regions = s.regions := rfl
@[simp] theorem countDraw_unfenced (s : State) :
    (s.countDraw).unfenced = s.unfenced := rfl
@[simp] theorem countDraw_stale (s : State) :
    (s.countDraw).stale = s.stale := rfl
@[simp] theorem countDraw_disturbed (s : State) :
    (s.countDraw).disturbed = s.disturbed := rfl
@[simp] theorem countDraw_entropy (s : State) :
    (s.countDraw).entropy = s.entropy := rfl
@[simp] theorem countDraw_host (s : State) :
    (s.countDraw).host = s.host := rfl
@[simp] theorem countDraw_turns (s : State) :
    (s.countDraw).turns = s.turns := rfl
@[simp] theorem countDraw_free (s : State) :
    (s.countDraw).free = s.free + 1 := rfl

@[simp] theorem running_cmd (s : State) (t : Transient) :
    (s.running t).cmd = s.cmd := rfl
@[simp] theorem running_status (s : State) (t : Transient) :
    (s.running t).status = s.status := rfl
@[simp] theorem running_args (s : State) (t : Transient) :
    (s.running t).args = s.args := rfl
@[simp] theorem running_res (s : State) (t : Transient) :
    (s.running t).res = s.res := rfl
@[simp] theorem running_sctx (s : State) (t : Transient) :
    (s.running t).sctx = s.sctx := rfl
@[simp] theorem running_vctx (s : State) (t : Transient) :
    (s.running t).vctx = s.vctx := rfl
@[simp] theorem running_transient (s : State) (t : Transient) :
    (s.running t).transient = t := rfl
@[simp] theorem running_inReset (s : State) (t : Transient) :
    (s.running t).inReset = s.inReset := rfl
@[simp] theorem running_params (s : State) (t : Transient) :
    (s.running t).params = s.params := rfl
@[simp] theorem running_mem (s : State) (t : Transient) :
    (s.running t).mem = s.mem := rfl
@[simp] theorem running_regions (s : State) (t : Transient) :
    (s.running t).regions = s.regions := rfl
@[simp] theorem running_unfenced (s : State) (t : Transient) :
    (s.running t).unfenced = s.unfenced := rfl
@[simp] theorem running_stale (s : State) (t : Transient) :
    (s.running t).stale = s.stale := rfl
@[simp] theorem running_disturbed (s : State) (t : Transient) :
    (s.running t).disturbed = s.disturbed := rfl
@[simp] theorem running_entropy (s : State) (t : Transient) :
    (s.running t).entropy = s.entropy := rfl
@[simp] theorem running_host (s : State) (t : Transient) :
    (s.running t).host = s.host := rfl
@[simp] theorem running_turns (s : State) (t : Transient) :
    (s.running t).turns = s.turns := rfl
@[simp] theorem running_free (s : State) (t : Transient) :
    (s.running t).free = s.free := rfl

@[simp] theorem complete_cmd (s : State) (e : StatusCode) :
    (s.complete e).cmd = s.cmd := rfl
@[simp] theorem complete_status (s : State) (e : StatusCode) :
    (s.complete e).status = ⟨false, s.status.ovr, e⟩ := rfl
@[simp] theorem complete_args (s : State) (e : StatusCode) :
    (s.complete e).args = s.args := rfl
@[simp] theorem complete_res (s : State) (e : StatusCode) :
    (s.complete e).res = s.res := rfl
@[simp] theorem complete_sctx (s : State) (e : StatusCode) :
    (s.complete e).sctx = s.sctx := rfl
@[simp] theorem complete_vctx (s : State) (e : StatusCode) :
    (s.complete e).vctx = s.vctx := rfl
@[simp] theorem complete_transient (s : State) (e : StatusCode) :
    (s.complete e).transient = .none := rfl
@[simp] theorem complete_inReset (s : State) (e : StatusCode) :
    (s.complete e).inReset = s.inReset := rfl
@[simp] theorem complete_params (s : State) (e : StatusCode) :
    (s.complete e).params = s.params := rfl
@[simp] theorem complete_mem (s : State) (e : StatusCode) :
    (s.complete e).mem = s.mem := rfl
@[simp] theorem complete_regions (s : State) (e : StatusCode) :
    (s.complete e).regions = s.regions := rfl
@[simp] theorem complete_unfenced (s : State) (e : StatusCode) :
    (s.complete e).unfenced = s.unfenced := rfl
@[simp] theorem complete_stale (s : State) (e : StatusCode) :
    (s.complete e).stale = [] := rfl
@[simp] theorem complete_disturbed (s : State) (e : StatusCode) :
    (s.complete e).disturbed = [] := rfl
@[simp] theorem complete_entropy (s : State) (e : StatusCode) :
    (s.complete e).entropy = s.entropy := rfl
@[simp] theorem complete_host (s : State) (e : StatusCode) :
    (s.complete e).host = s.host := rfl
@[simp] theorem complete_turns (s : State) (e : StatusCode) :
    (s.complete e).turns = s.turns := rfl
@[simp] theorem complete_free (s : State) (e : StatusCode) :
    (s.complete e).free = s.free := rfl

@[simp] theorem accept_cmd (s : State) (w : Word32) :
    (s.accept w).cmd = w := rfl
@[simp] theorem accept_status (s : State) (w : Word32) :
    (s.accept w).status = ⟨true, s.status.ovr, .ok⟩ := rfl
@[simp] theorem accept_args (s : State) (w : Word32) :
    (s.accept w).args = s.args := rfl
@[simp] theorem accept_res (s : State) (w : Word32) :
    (s.accept w).res = s.res := rfl
@[simp] theorem accept_sctx (s : State) (w : Word32) :
    (s.accept w).sctx = s.sctx := rfl
@[simp] theorem accept_vctx (s : State) (w : Word32) :
    (s.accept w).vctx = s.vctx := rfl
@[simp] theorem accept_transient (s : State) (w : Word32) :
    (s.accept w).transient = .none := rfl
@[simp] theorem accept_inReset (s : State) (w : Word32) :
    (s.accept w).inReset = s.inReset := rfl
@[simp] theorem accept_params (s : State) (w : Word32) :
    (s.accept w).params = s.params := rfl
@[simp] theorem accept_mem (s : State) (w : Word32) :
    (s.accept w).mem = s.mem := rfl
@[simp] theorem accept_regions (s : State) (w : Word32) :
    (s.accept w).regions = s.regions := rfl
@[simp] theorem accept_unfenced (s : State) (w : Word32) :
    (s.accept w).unfenced = s.unfenced := rfl
@[simp] theorem accept_stale (s : State) (w : Word32) :
    (s.accept w).stale = s.unfenced := rfl
@[simp] theorem accept_disturbed (s : State) (w : Word32) :
    (s.accept w).disturbed = [] := rfl
@[simp] theorem accept_entropy (s : State) (w : Word32) :
    (s.accept w).entropy = s.entropy := rfl
@[simp] theorem accept_host (s : State) (w : Word32) :
    (s.accept w).host = s.host := rfl
@[simp] theorem accept_turns (s : State) (w : Word32) :
    (s.accept w).turns = s.turns := rfl
@[simp] theorem accept_free (s : State) (w : Word32) :
    (s.accept w).free = s.free := rfl

@[simp] theorem popTurn_cmd (s : State) :
    (s.popTurn).cmd = s.cmd := rfl
@[simp] theorem popTurn_status (s : State) :
    (s.popTurn).status = s.status := rfl
@[simp] theorem popTurn_args (s : State) :
    (s.popTurn).args = s.args := rfl
@[simp] theorem popTurn_res (s : State) :
    (s.popTurn).res = s.res := rfl
@[simp] theorem popTurn_sctx (s : State) :
    (s.popTurn).sctx = s.sctx := rfl
@[simp] theorem popTurn_vctx (s : State) :
    (s.popTurn).vctx = s.vctx := rfl
@[simp] theorem popTurn_transient (s : State) :
    (s.popTurn).transient = s.transient := rfl
@[simp] theorem popTurn_inReset (s : State) :
    (s.popTurn).inReset = s.inReset := rfl
@[simp] theorem popTurn_params (s : State) :
    (s.popTurn).params = s.params := rfl
@[simp] theorem popTurn_mem (s : State) :
    (s.popTurn).mem = s.mem := rfl
@[simp] theorem popTurn_regions (s : State) :
    (s.popTurn).regions = s.regions := rfl
@[simp] theorem popTurn_unfenced (s : State) :
    (s.popTurn).unfenced = s.unfenced := rfl
@[simp] theorem popTurn_stale (s : State) :
    (s.popTurn).stale = s.stale := rfl
@[simp] theorem popTurn_disturbed (s : State) :
    (s.popTurn).disturbed = s.disturbed := rfl
@[simp] theorem popTurn_entropy (s : State) :
    (s.popTurn).entropy = s.entropy := rfl
@[simp] theorem popTurn_host (s : State) :
    (s.popTurn).host = s.host := rfl
@[simp] theorem popTurn_turns (s : State) :
    (s.popTurn).turns = s.turns.tail := rfl
@[simp] theorem popTurn_free (s : State) :
    (s.popTurn).free = s.free := rfl

@[simp] theorem pushTurn_cmd (s : State) (t : Turn) :
    (s.pushTurn t).cmd = s.cmd := rfl
@[simp] theorem pushTurn_status (s : State) (t : Turn) :
    (s.pushTurn t).status = s.status := rfl
@[simp] theorem pushTurn_args (s : State) (t : Turn) :
    (s.pushTurn t).args = s.args := rfl
@[simp] theorem pushTurn_res (s : State) (t : Turn) :
    (s.pushTurn t).res = s.res := rfl
@[simp] theorem pushTurn_sctx (s : State) (t : Turn) :
    (s.pushTurn t).sctx = s.sctx := rfl
@[simp] theorem pushTurn_vctx (s : State) (t : Turn) :
    (s.pushTurn t).vctx = s.vctx := rfl
@[simp] theorem pushTurn_transient (s : State) (t : Turn) :
    (s.pushTurn t).transient = s.transient := rfl
@[simp] theorem pushTurn_inReset (s : State) (t : Turn) :
    (s.pushTurn t).inReset = s.inReset := rfl
@[simp] theorem pushTurn_params (s : State) (t : Turn) :
    (s.pushTurn t).params = s.params := rfl
@[simp] theorem pushTurn_mem (s : State) (t : Turn) :
    (s.pushTurn t).mem = s.mem := rfl
@[simp] theorem pushTurn_regions (s : State) (t : Turn) :
    (s.pushTurn t).regions = s.regions := rfl
@[simp] theorem pushTurn_unfenced (s : State) (t : Turn) :
    (s.pushTurn t).unfenced = s.unfenced := rfl
@[simp] theorem pushTurn_stale (s : State) (t : Turn) :
    (s.pushTurn t).stale = s.stale := rfl
@[simp] theorem pushTurn_disturbed (s : State) (t : Turn) :
    (s.pushTurn t).disturbed = s.disturbed := rfl
@[simp] theorem pushTurn_entropy (s : State) (t : Turn) :
    (s.pushTurn t).entropy = s.entropy := rfl
@[simp] theorem pushTurn_host (s : State) (t : Turn) :
    (s.pushTurn t).host = s.host := rfl
@[simp] theorem pushTurn_turns (s : State) (t : Turn) :
    (s.pushTurn t).turns = t :: s.turns := rfl
@[simp] theorem pushTurn_free (s : State) (t : Turn) :
    (s.pushTurn t).free = s.free := rfl

@[simp] theorem overrun_cmd (s : State) :
    (s.overrun).cmd = s.cmd := rfl
@[simp] theorem overrun_status (s : State) :
    (s.overrun).status = ⟨s.status.busy, true, s.status.err⟩ := rfl
@[simp] theorem overrun_args (s : State) :
    (s.overrun).args = s.args := rfl
@[simp] theorem overrun_res (s : State) :
    (s.overrun).res = s.res := rfl
@[simp] theorem overrun_sctx (s : State) :
    (s.overrun).sctx = s.sctx := rfl
@[simp] theorem overrun_vctx (s : State) :
    (s.overrun).vctx = s.vctx := rfl
@[simp] theorem overrun_transient (s : State) :
    (s.overrun).transient = s.transient := rfl
@[simp] theorem overrun_inReset (s : State) :
    (s.overrun).inReset = s.inReset := rfl
@[simp] theorem overrun_params (s : State) :
    (s.overrun).params = s.params := rfl
@[simp] theorem overrun_mem (s : State) :
    (s.overrun).mem = s.mem := rfl
@[simp] theorem overrun_regions (s : State) :
    (s.overrun).regions = s.regions := rfl
@[simp] theorem overrun_unfenced (s : State) :
    (s.overrun).unfenced = s.unfenced := rfl
@[simp] theorem overrun_stale (s : State) :
    (s.overrun).stale = s.stale := rfl
@[simp] theorem overrun_disturbed (s : State) :
    (s.overrun).disturbed = s.disturbed := rfl
@[simp] theorem overrun_entropy (s : State) :
    (s.overrun).entropy = s.entropy := rfl
@[simp] theorem overrun_host (s : State) :
    (s.overrun).host = s.host := rfl
@[simp] theorem overrun_turns (s : State) :
    (s.overrun).turns = s.turns := rfl
@[simp] theorem overrun_free (s : State) :
    (s.overrun).free = s.free := rfl

@[simp] theorem setArg_cmd (s : State) (i : Fin 4) (v : Word64) :
    (s.setArg i v).cmd = s.cmd := rfl
@[simp] theorem setArg_status (s : State) (i : Fin 4) (v : Word64) :
    (s.setArg i v).status = s.status := rfl
@[simp] theorem setArg_args (s : State) (i : Fin 4) (v : Word64) :
    (s.setArg i v).args = s.args.set i v := rfl
@[simp] theorem setArg_res (s : State) (i : Fin 4) (v : Word64) :
    (s.setArg i v).res = s.res := rfl
@[simp] theorem setArg_sctx (s : State) (i : Fin 4) (v : Word64) :
    (s.setArg i v).sctx = s.sctx := rfl
@[simp] theorem setArg_vctx (s : State) (i : Fin 4) (v : Word64) :
    (s.setArg i v).vctx = s.vctx := rfl
@[simp] theorem setArg_transient (s : State) (i : Fin 4) (v : Word64) :
    (s.setArg i v).transient = s.transient := rfl
@[simp] theorem setArg_inReset (s : State) (i : Fin 4) (v : Word64) :
    (s.setArg i v).inReset = s.inReset := rfl
@[simp] theorem setArg_params (s : State) (i : Fin 4) (v : Word64) :
    (s.setArg i v).params = s.params := rfl
@[simp] theorem setArg_mem (s : State) (i : Fin 4) (v : Word64) :
    (s.setArg i v).mem = s.mem := rfl
@[simp] theorem setArg_regions (s : State) (i : Fin 4) (v : Word64) :
    (s.setArg i v).regions = s.regions := rfl
@[simp] theorem setArg_unfenced (s : State) (i : Fin 4) (v : Word64) :
    (s.setArg i v).unfenced = s.unfenced := rfl
@[simp] theorem setArg_stale (s : State) (i : Fin 4) (v : Word64) :
    (s.setArg i v).stale = s.stale := rfl
@[simp] theorem setArg_disturbed (s : State) (i : Fin 4) (v : Word64) :
    (s.setArg i v).disturbed = s.disturbed := rfl
@[simp] theorem setArg_entropy (s : State) (i : Fin 4) (v : Word64) :
    (s.setArg i v).entropy = s.entropy := rfl
@[simp] theorem setArg_host (s : State) (i : Fin 4) (v : Word64) :
    (s.setArg i v).host = s.host := rfl
@[simp] theorem setArg_turns (s : State) (i : Fin 4) (v : Word64) :
    (s.setArg i v).turns = s.turns := rfl
@[simp] theorem setArg_free (s : State) (i : Fin 4) (v : Word64) :
    (s.setArg i v).free = s.free := rfl

@[simp] theorem noteStore_cmd (s : State) (a n v : Nat) :
    (s.noteStore a n v).cmd = s.cmd := rfl
@[simp] theorem noteStore_status (s : State) (a n v : Nat) :
    (s.noteStore a n v).status = s.status := rfl
@[simp] theorem noteStore_args (s : State) (a n v : Nat) :
    (s.noteStore a n v).args = s.args := rfl
@[simp] theorem noteStore_res (s : State) (a n v : Nat) :
    (s.noteStore a n v).res = s.res := rfl
@[simp] theorem noteStore_sctx (s : State) (a n v : Nat) :
    (s.noteStore a n v).sctx = s.sctx := rfl
@[simp] theorem noteStore_vctx (s : State) (a n v : Nat) :
    (s.noteStore a n v).vctx = s.vctx := rfl
@[simp] theorem noteStore_transient (s : State) (a n v : Nat) :
    (s.noteStore a n v).transient = s.transient := rfl
@[simp] theorem noteStore_inReset (s : State) (a n v : Nat) :
    (s.noteStore a n v).inReset = s.inReset := rfl
@[simp] theorem noteStore_params (s : State) (a n v : Nat) :
    (s.noteStore a n v).params = s.params := rfl
@[simp] theorem noteStore_mem (s : State) (a n v : Nat) :
    (s.noteStore a n v).mem = s.mem := rfl
@[simp] theorem noteStore_regions (s : State) (a n v : Nat) :
    (s.noteStore a n v).regions = s.regions := rfl
@[simp] theorem noteStore_unfenced (s : State) (a n v : Nat) :
    (s.noteStore a n v).unfenced = noteBytes s.mem a n v s.unfenced := rfl
@[simp] theorem noteStore_stale (s : State) (a n v : Nat) :
    (s.noteStore a n v).stale = s.stale := rfl
@[simp] theorem noteStore_disturbed (s : State) (a n v : Nat) :
    (s.noteStore a n v).disturbed = if s.status.busy then disturbWords a n s.disturbed else s.disturbed := rfl
@[simp] theorem noteStore_entropy (s : State) (a n v : Nat) :
    (s.noteStore a n v).entropy = s.entropy := rfl
@[simp] theorem noteStore_host (s : State) (a n v : Nat) :
    (s.noteStore a n v).host = s.host := rfl
@[simp] theorem noteStore_turns (s : State) (a n v : Nat) :
    (s.noteStore a n v).turns = s.turns := rfl
@[simp] theorem noteStore_free (s : State) (a n v : Nat) :
    (s.noteStore a n v).free = s.free := rfl

@[simp] theorem fence_cmd (s : State) :
    (s.fence).cmd = s.cmd := rfl
@[simp] theorem fence_status (s : State) :
    (s.fence).status = s.status := rfl
@[simp] theorem fence_args (s : State) :
    (s.fence).args = s.args := rfl
@[simp] theorem fence_res (s : State) :
    (s.fence).res = s.res := rfl
@[simp] theorem fence_sctx (s : State) :
    (s.fence).sctx = s.sctx := rfl
@[simp] theorem fence_vctx (s : State) :
    (s.fence).vctx = s.vctx := rfl
@[simp] theorem fence_transient (s : State) :
    (s.fence).transient = s.transient := rfl
@[simp] theorem fence_inReset (s : State) :
    (s.fence).inReset = s.inReset := rfl
@[simp] theorem fence_params (s : State) :
    (s.fence).params = s.params := rfl
@[simp] theorem fence_mem (s : State) :
    (s.fence).mem = s.mem := rfl
@[simp] theorem fence_regions (s : State) :
    (s.fence).regions = s.regions := rfl
@[simp] theorem fence_unfenced (s : State) :
    (s.fence).unfenced = [] := rfl
@[simp] theorem fence_stale (s : State) :
    (s.fence).stale = s.stale := rfl
@[simp] theorem fence_disturbed (s : State) :
    (s.fence).disturbed = s.disturbed := rfl
@[simp] theorem fence_entropy (s : State) :
    (s.fence).entropy = s.entropy := rfl
@[simp] theorem fence_host (s : State) :
    (s.fence).host = s.host := rfl
@[simp] theorem fence_turns (s : State) :
    (s.fence).turns = s.turns := rfl
@[simp] theorem fence_free (s : State) :
    (s.fence).free = s.free := rfl

@[simp] theorem hostAt_cmd (s : State) (pos : Nat) :
    (s.hostAt pos).cmd = s.cmd := rfl
@[simp] theorem hostAt_status (s : State) (pos : Nat) :
    (s.hostAt pos).status = s.status := rfl
@[simp] theorem hostAt_args (s : State) (pos : Nat) :
    (s.hostAt pos).args = s.args := rfl
@[simp] theorem hostAt_res (s : State) (pos : Nat) :
    (s.hostAt pos).res = s.res := rfl
@[simp] theorem hostAt_sctx (s : State) (pos : Nat) :
    (s.hostAt pos).sctx = s.sctx := rfl
@[simp] theorem hostAt_vctx (s : State) (pos : Nat) :
    (s.hostAt pos).vctx = s.vctx := rfl
@[simp] theorem hostAt_transient (s : State) (pos : Nat) :
    (s.hostAt pos).transient = s.transient := rfl
@[simp] theorem hostAt_inReset (s : State) (pos : Nat) :
    (s.hostAt pos).inReset = s.inReset := rfl
@[simp] theorem hostAt_params (s : State) (pos : Nat) :
    (s.hostAt pos).params = s.params := rfl
@[simp] theorem hostAt_mem (s : State) (pos : Nat) :
    (s.hostAt pos).mem = s.mem := rfl
@[simp] theorem hostAt_regions (s : State) (pos : Nat) :
    (s.hostAt pos).regions = s.regions := rfl
@[simp] theorem hostAt_unfenced (s : State) (pos : Nat) :
    (s.hostAt pos).unfenced = s.unfenced := rfl
@[simp] theorem hostAt_stale (s : State) (pos : Nat) :
    (s.hostAt pos).stale = s.stale := rfl
@[simp] theorem hostAt_disturbed (s : State) (pos : Nat) :
    (s.hostAt pos).disturbed = s.disturbed := rfl
@[simp] theorem hostAt_entropy (s : State) (pos : Nat) :
    (s.hostAt pos).entropy = s.entropy := rfl
@[simp] theorem hostAt_host (s : State) (pos : Nat) :
    (s.hostAt pos).host = { s.host with pos := pos } := rfl
@[simp] theorem hostAt_turns (s : State) (pos : Nat) :
    (s.hostAt pos).turns = s.turns := rfl
@[simp] theorem hostAt_free (s : State) (pos : Nat) :
    (s.hostAt pos).free = s.free := rfl

@[simp] theorem hostSet_cmd (s : State) (r : Nat) (v : Word64) :
    (s.hostSet r v).cmd = s.cmd := rfl
@[simp] theorem hostSet_status (s : State) (r : Nat) (v : Word64) :
    (s.hostSet r v).status = s.status := rfl
@[simp] theorem hostSet_args (s : State) (r : Nat) (v : Word64) :
    (s.hostSet r v).args = s.args := rfl
@[simp] theorem hostSet_res (s : State) (r : Nat) (v : Word64) :
    (s.hostSet r v).res = s.res := rfl
@[simp] theorem hostSet_sctx (s : State) (r : Nat) (v : Word64) :
    (s.hostSet r v).sctx = s.sctx := rfl
@[simp] theorem hostSet_vctx (s : State) (r : Nat) (v : Word64) :
    (s.hostSet r v).vctx = s.vctx := rfl
@[simp] theorem hostSet_transient (s : State) (r : Nat) (v : Word64) :
    (s.hostSet r v).transient = s.transient := rfl
@[simp] theorem hostSet_inReset (s : State) (r : Nat) (v : Word64) :
    (s.hostSet r v).inReset = s.inReset := rfl
@[simp] theorem hostSet_params (s : State) (r : Nat) (v : Word64) :
    (s.hostSet r v).params = s.params := rfl
@[simp] theorem hostSet_mem (s : State) (r : Nat) (v : Word64) :
    (s.hostSet r v).mem = s.mem := rfl
@[simp] theorem hostSet_regions (s : State) (r : Nat) (v : Word64) :
    (s.hostSet r v).regions = s.regions := rfl
@[simp] theorem hostSet_unfenced (s : State) (r : Nat) (v : Word64) :
    (s.hostSet r v).unfenced = s.unfenced := rfl
@[simp] theorem hostSet_stale (s : State) (r : Nat) (v : Word64) :
    (s.hostSet r v).stale = s.stale := rfl
@[simp] theorem hostSet_disturbed (s : State) (r : Nat) (v : Word64) :
    (s.hostSet r v).disturbed = s.disturbed := rfl
@[simp] theorem hostSet_entropy (s : State) (r : Nat) (v : Word64) :
    (s.hostSet r v).entropy = s.entropy := rfl
@[simp] theorem hostSet_host (s : State) (r : Nat) (v : Word64) :
    (s.hostSet r v).host = ⟨s.host.prog, s.host.pos + 1, setVar r v s.host.vars, s.host.stopped⟩ := rfl
@[simp] theorem hostSet_turns (s : State) (r : Nat) (v : Word64) :
    (s.hostSet r v).turns = s.turns := rfl
@[simp] theorem hostSet_free (s : State) (r : Nat) (v : Word64) :
    (s.hostSet r v).free = s.free := rfl

@[simp] theorem hostStop_cmd (s : State) :
    (s.hostStop).cmd = s.cmd := rfl
@[simp] theorem hostStop_status (s : State) :
    (s.hostStop).status = s.status := rfl
@[simp] theorem hostStop_args (s : State) :
    (s.hostStop).args = s.args := rfl
@[simp] theorem hostStop_res (s : State) :
    (s.hostStop).res = s.res := rfl
@[simp] theorem hostStop_sctx (s : State) :
    (s.hostStop).sctx = s.sctx := rfl
@[simp] theorem hostStop_vctx (s : State) :
    (s.hostStop).vctx = s.vctx := rfl
@[simp] theorem hostStop_transient (s : State) :
    (s.hostStop).transient = s.transient := rfl
@[simp] theorem hostStop_inReset (s : State) :
    (s.hostStop).inReset = s.inReset := rfl
@[simp] theorem hostStop_params (s : State) :
    (s.hostStop).params = s.params := rfl
@[simp] theorem hostStop_mem (s : State) :
    (s.hostStop).mem = s.mem := rfl
@[simp] theorem hostStop_regions (s : State) :
    (s.hostStop).regions = s.regions := rfl
@[simp] theorem hostStop_unfenced (s : State) :
    (s.hostStop).unfenced = s.unfenced := rfl
@[simp] theorem hostStop_stale (s : State) :
    (s.hostStop).stale = s.stale := rfl
@[simp] theorem hostStop_disturbed (s : State) :
    (s.hostStop).disturbed = s.disturbed := rfl
@[simp] theorem hostStop_entropy (s : State) :
    (s.hostStop).entropy = s.entropy := rfl
@[simp] theorem hostStop_host (s : State) :
    (s.hostStop).host = { s.host with stopped := true } := rfl
@[simp] theorem hostStop_turns (s : State) :
    (s.hostStop).turns = s.turns := rfl
@[simp] theorem hostStop_free (s : State) :
    (s.hostStop).free = s.free := rfl

@[simp] theorem resetRegisters_cmd (s : State) :
    (s.resetRegisters).cmd = 0 := rfl
@[simp] theorem resetRegisters_status (s : State) :
    (s.resetRegisters).status = ⟨false, false, .ok⟩ := rfl
@[simp] theorem resetRegisters_args (s : State) :
    (s.resetRegisters).args = Quad.all 0 := rfl
@[simp] theorem resetRegisters_res (s : State) :
    (s.resetRegisters).res = Quad.all 0 := rfl
@[simp] theorem resetRegisters_sctx (s : State) :
    (s.resetRegisters).sctx = s.sctx.map (fun _ => ScalarCtx.reset) := rfl
@[simp] theorem resetRegisters_vctx (s : State) :
    (s.resetRegisters).vctx = s.vctx.map (fun _ => VectorCtx.reset) := rfl
@[simp] theorem resetRegisters_transient (s : State) :
    (s.resetRegisters).transient = .none := rfl
@[simp] theorem resetRegisters_inReset (s : State) :
    (s.resetRegisters).inReset = s.inReset := rfl
@[simp] theorem resetRegisters_params (s : State) :
    (s.resetRegisters).params = s.params := rfl
@[simp] theorem resetRegisters_mem (s : State) :
    (s.resetRegisters).mem = s.mem := rfl
@[simp] theorem resetRegisters_regions (s : State) :
    (s.resetRegisters).regions = s.regions := rfl
@[simp] theorem resetRegisters_unfenced (s : State) :
    (s.resetRegisters).unfenced = s.unfenced := rfl
@[simp] theorem resetRegisters_stale (s : State) :
    (s.resetRegisters).stale = [] := rfl
@[simp] theorem resetRegisters_disturbed (s : State) :
    (s.resetRegisters).disturbed = [] := rfl
@[simp] theorem resetRegisters_entropy (s : State) :
    (s.resetRegisters).entropy = s.entropy := rfl
@[simp] theorem resetRegisters_host (s : State) :
    (s.resetRegisters).host = s.host := rfl
@[simp] theorem resetRegisters_turns (s : State) :
    (s.resetRegisters).turns = s.turns := rfl
@[simp] theorem resetRegisters_free (s : State) :
    (s.resetRegisters).free = s.free := rfl

@[simp] theorem remap_cmd (s : State) (rs : List Region) :
    (s.remap rs).cmd = s.cmd := rfl
@[simp] theorem remap_status (s : State) (rs : List Region) :
    (s.remap rs).status = s.status := rfl
@[simp] theorem remap_args (s : State) (rs : List Region) :
    (s.remap rs).args = s.args := rfl
@[simp] theorem remap_res (s : State) (rs : List Region) :
    (s.remap rs).res = s.res := rfl
@[simp] theorem remap_sctx (s : State) (rs : List Region) :
    (s.remap rs).sctx = s.sctx := rfl
@[simp] theorem remap_vctx (s : State) (rs : List Region) :
    (s.remap rs).vctx = s.vctx := rfl
@[simp] theorem remap_transient (s : State) (rs : List Region) :
    (s.remap rs).transient = s.transient := rfl
@[simp] theorem remap_inReset (s : State) (rs : List Region) :
    (s.remap rs).inReset = s.inReset := rfl
@[simp] theorem remap_params (s : State) (rs : List Region) :
    (s.remap rs).params = s.params := rfl
@[simp] theorem remap_mem (s : State) (rs : List Region) :
    (s.remap rs).mem = s.mem := rfl
@[simp] theorem remap_regions (s : State) (rs : List Region) :
    (s.remap rs).regions = rs := rfl
@[simp] theorem remap_unfenced (s : State) (rs : List Region) :
    (s.remap rs).unfenced = s.unfenced := rfl
@[simp] theorem remap_stale (s : State) (rs : List Region) :
    (s.remap rs).stale = s.stale := rfl
@[simp] theorem remap_disturbed (s : State) (rs : List Region) :
    (s.remap rs).disturbed = s.disturbed := rfl
@[simp] theorem remap_entropy (s : State) (rs : List Region) :
    (s.remap rs).entropy = s.entropy := rfl
@[simp] theorem remap_host (s : State) (rs : List Region) :
    (s.remap rs).host = s.host := rfl
@[simp] theorem remap_turns (s : State) (rs : List Region) :
    (s.remap rs).turns = s.turns := rfl
@[simp] theorem remap_free (s : State) (rs : List Region) :
    (s.remap rs).free = s.free := rfl

@[simp] theorem finish_eq (s : State) : s.finish = s.complete .ok := rfl
@[simp] theorem raise_eq (s : State) (e : StatusCode) : s.raise e = s.complete e := rfl
@[simp] theorem hostNext_eq (s : State) : s.hostNext = s.hostAt (s.host.pos + 1) := rfl
@[simp] theorem command_eq (s : State) : s.command = s.cmd := rfl
@[simp] theorem arg0_eq (s : State) : s.arg0 = s.args.v0 := rfl
@[simp] theorem arg1_eq (s : State) : s.arg1 = s.args.v1 := rfl
@[simp] theorem arg2_eq (s : State) : s.arg2 = s.args.v2 := rfl
@[simp] theorem arg3_eq (s : State) : s.arg3 = s.args.v3 := rfl

theorem scalar?_eq (s : State) (c : Ctx) : s.scalar? c = s.sctx[c.toNat]? := rfl
theorem vector?_eq (s : State) (c : Ctx) : s.vector? c = s.vctx[c.toNat]? := rfl

/-- Writing back an existing scalar context and reading it. -/
theorem setScalar_get (s : State) (c : Ctx) (x y : ScalarCtx) (h : s.scalar? c = some x) :
    (s.setScalar c y).sctx[c.toNat]? = some y := by
  obtain ⟨hc, -⟩ := List.getElem?_eq_some_iff.1 h
  simp [hc]

theorem setScalar_get_other (s : State) (c : Ctx) (y : ScalarCtx) (k : Nat) (h : k ≠ c.toNat) :
    (s.setScalar c y).sctx[k]? = s.sctx[k]? := by
  simp [List.getElem?_set_ne (Ne.symm h)]

/-- Writing back an existing vector context and reading it. -/
theorem setVector_get (s : State) (c : Ctx) (x y : VectorCtx) (h : s.vector? c = some x) :
    (s.setVector c y).vctx[c.toNat]? = some y := by
  obtain ⟨hc, -⟩ := List.getElem?_eq_some_iff.1 h
  simp [hc]

theorem setVector_get_other (s : State) (c : Ctx) (y : VectorCtx) (k : Nat) (h : k ≠ c.toNat) :
    (s.setVector c y).vctx[k]? = s.vctx[k]? := by
  simp [List.getElem?_set_ne (Ne.symm h)]

end Sys2Proof.Machine.State
end

