-- ==== Sys2Proof/Laws/Word.lean ====
section
/-! SUPPORT. Small lemmas about groups of four. -/

namespace Sys2Proof.Quad

variable {α β γ : Type}

@[simp] theorem set_0 (q : Quad α) (x : α) : q.set 0 x = ⟨x, q.v1, q.v2, q.v3⟩ := rfl
@[simp] theorem set_1 (q : Quad α) (x : α) : q.set 1 x = ⟨q.v0, x, q.v2, q.v3⟩ := rfl
@[simp] theorem set_2 (q : Quad α) (x : α) : q.set 2 x = ⟨q.v0, q.v1, x, q.v3⟩ := rfl
@[simp] theorem set_3 (q : Quad α) (x : α) : q.set 3 x = ⟨q.v0, q.v1, q.v2, x⟩ := rfl
@[simp] theorem get_0 (q : Quad α) : q.get 0 = q.v0 := rfl
@[simp] theorem get_1 (q : Quad α) : q.get 1 = q.v1 := rfl
@[simp] theorem get_2 (q : Quad α) : q.get 2 = q.v2 := rfl
@[simp] theorem get_3 (q : Quad α) : q.get 3 = q.v3 := rfl

theorem forall_fin4 {P : Fin 4 → Prop} (h0 : P 0) (h1 : P 1) (h2 : P 2) (h3 : P 3) (i : Fin 4) : P i := by
  fin_cases i <;> assumption

@[simp] theorem get_set_same (q : Quad α) (i : Fin 4) (x : α) : (q.set i x).get i = x := by
  revert i; exact forall_fin4 rfl rfl rfl rfl

theorem get_set_other (q : Quad α) (i j : Fin 4) (x : α) (h : j ≠ i) : (q.set i x).get j = q.get j := by
  fin_cases i <;> fin_cases j <;> first | rfl | exact absurd rfl h

@[simp] theorem get_map (f : α → β) (q : Quad α) (i : Fin 4) : (q.map f).get i = f (q.get i) := by
  revert i; exact forall_fin4 rfl rfl rfl rfl

@[simp] theorem get_zip (f : α → β → γ) (q : Quad α) (r : Quad β) (i : Fin 4) :
    (Quad.zip f q r).get i = f (q.get i) (r.get i) := by
  revert i; exact forall_fin4 rfl rfl rfl rfl

@[simp] theorem get_all (x : α) (i : Fin 4) : (Quad.all x).get i = x := by
  revert i; exact forall_fin4 rfl rfl rfl rfl

end Sys2Proof.Quad
end

