-- ==== Sys2Proof/Laws/Ops.lean ====
section
/-! SUPPORT. What each shared operation can do, said once: the operand checks, the draws, the loops. -/

namespace Sys2Proof.Machine

/-! ## Operand checks (R114) -/

theorem withScalar_cases (s : State) (c : Ctx) (k : ScalarCtx → State) :
    (s.scalar? c = none ∧ withScalar s c k = s.complete .illegalCommand) ∨
    ∃ x, s.scalar? c = some x ∧ withScalar s c k = k x := by
  unfold withScalar
  cases h : s.scalar? c with
  | none => exact .inl ⟨rfl, rfl⟩
  | some x => exact .inr ⟨x, rfl, rfl⟩

theorem withValidScalar_cases (s : State) (c : Ctx) (k : ScalarCtx → State) :
    (s.scalar? c = none ∧ withValidScalar s c k = s.complete .illegalCommand) ∨
    (∃ x, s.scalar? c = some x ∧ x.valid = false ∧ withValidScalar s c k = s.complete .contextInvalid) ∨
    ∃ x, s.scalar? c = some x ∧ x.valid = true ∧ withValidScalar s c k = k x := by
  unfold withValidScalar
  rcases withScalar_cases s c (fun x => if x.valid then k x else s.raise .contextInvalid) with
    ⟨h, e⟩ | ⟨x, h, e⟩
  · exact .inl ⟨h, e⟩
  · cases hv : x.valid with
    | false => exact .inr (.inl ⟨x, h, hv, by rw [e, hv]; rfl⟩)
    | true => exact .inr (.inr ⟨x, h, hv, by rw [e, hv]; rfl⟩)

theorem withVector_cases (s : State) (c : Ctx) (k : VectorCtx → State) :
    (s.vector? c = none ∧ withVector s c k = s.complete .illegalCommand) ∨
    ∃ x, s.vector? c = some x ∧ withVector s c k = k x := by
  unfold withVector
  cases h : s.vector? c with
  | none => exact .inl ⟨rfl, rfl⟩
  | some x => exact .inr ⟨x, rfl, rfl⟩

theorem withValidVector_cases (s : State) (c : Ctx) (k : VectorCtx → State) :
    (s.vector? c = none ∧ withValidVector s c k = s.complete .illegalCommand) ∨
    (∃ x, s.vector? c = some x ∧ x.valid = false ∧ withValidVector s c k = s.complete .contextInvalid) ∨
    ∃ x, s.vector? c = some x ∧ x.valid = true ∧ withValidVector s c k = k x := by
  unfold withValidVector
  rcases withVector_cases s c (fun x => if x.valid then k x else s.raise .contextInvalid) with
    ⟨h, e⟩ | ⟨x, h, e⟩
  · exact .inl ⟨h, e⟩
  · cases hv : x.valid with
    | false => exact .inr (.inl ⟨x, h, hv, by rw [e, hv]; rfl⟩)
    | true => exact .inr (.inr ⟨x, h, hv, by rw [e, hv]; rfl⟩)

theorem requireOperands_cases (s k : State) (ok : Bool) :
    (ok = false ∧ requireOperands s ok k = s.complete .preconditionViolation) ∨
    (ok = true ∧ requireOperands s ok k = k) := by
  cases ok
  · exact .inl ⟨rfl, rfl⟩
  · exact .inr ⟨rfl, rfl⟩

/-- No command stops the model: each answers a next state. -/
theorem exec_answers_next (i : Instr) (s : State) : ∃ t, exec i s = .next t := by
  cases i <;> exact ⟨_, rfl⟩

/-! ## Draws from a scalar context (R66) -/

@[simp] theorem ScalarCtx.advance_inc (x : ScalarCtx) : x.advance.inc = x.inc := rfl
@[simp] theorem ScalarCtx.advance_valid (x : ScalarCtx) : x.advance.valid = x.valid := rfl
@[simp] theorem ScalarCtx.advance_cur (x : ScalarCtx) : x.advance.cur = step64 x.cur x.inc := rfl

@[simp] theorem advanceBy_zero (x : ScalarCtx) : advanceBy 0 x = x := rfl

theorem advanceBy_succ (n : Nat) (x : ScalarCtx) : advanceBy (n + 1) x = advanceBy n x.advance :=
  Function.iterate_succ_apply _ n x

theorem advanceBy_succ' (n : Nat) (x : ScalarCtx) : advanceBy (n + 1) x = (advanceBy n x).advance :=
  Function.iterate_succ_apply' _ n x

theorem advanceBy_add (m n : Nat) (x : ScalarCtx) : advanceBy (m + n) x = advanceBy m (advanceBy n x) :=
  Function.iterate_add_apply _ m n x

@[simp] theorem advanceBy_inc (n : Nat) (x : ScalarCtx) : (advanceBy n x).inc = x.inc := by
  induction n generalizing x with
  | zero => rfl
  | succ n ih => rw [advanceBy_succ, ih]; simp

@[simp] theorem advanceBy_valid (n : Nat) (x : ScalarCtx) : (advanceBy n x).valid = x.valid := by
  induction n generalizing x with
  | zero => rfl
  | succ n ih => rw [advanceBy_succ, ih]; simp

theorem seedScalar_odd (p : Config.Params) (seed : Word64) : (seedScalar p seed).Odd := by
  intro _; simp [seedScalar]

theorem seedVector_odd (p : Config.Params) (seeds : Quad Word64) : (seedVector p seeds).Odd := by
  intro _; simp [seedVector, Quad.map, seed32Inc]

/-! ## The entropy port (R68) -/

/-- What a bounded draw can do: it fails after exactly `n` attempts, or succeeds within `n`. -/
theorem entropyDrawIn_cases (n : Nat) (p : EntropyPort) :
    ((entropyDrawIn n p).1 = none ∧
      (entropyDrawIn n p).2 = ⟨p.answers.drop n, p.attempts + n⟩) ∨
    ∃ v j, j < n ∧ (entropyDrawIn n p).1 = some v ∧
      (entropyDrawIn n p).2 = ⟨p.answers.drop (j + 1), p.attempts + (j + 1)⟩ := by
  induction n generalizing p with
  | zero => exact .inl ⟨rfl, rfl⟩
  | succ n ih =>
    rw [entropyDrawIn]
    split
    · exact .inr ⟨_, 0, by omega, rfl, by simp [EntropyPort.afterAttempt]⟩
    · rcases ih p.afterAttempt with ⟨h1, h2⟩ | ⟨v, j, hj, h1, h2⟩
      · refine .inl ⟨h1, ?_⟩
        rw [h2]; simp [EntropyPort.afterAttempt, Nat.add_comm, Nat.add_left_comm]
      · refine .inr ⟨v, j + 1, by omega, h1, ?_⟩
        rw [h2]; simp [EntropyPort.afterAttempt, Nat.add_comm, Nat.add_left_comm]

/-- A draw from listed answers: failures, fewer than the limit, and then a success. -/
theorem entropyDrawIn_success (n : Nat) (fails : List EntropyAnswer) (v : Word64)
    (rest : List EntropyAnswer) (k : Nat) (hf : ∀ a ∈ fails, a.ok = false) (hn : fails.length < n) :
    entropyDrawIn n ⟨fails ++ ⟨true, v⟩ :: rest, k⟩ = (some v, ⟨rest, k + (fails.length + 1)⟩) := by
  induction fails generalizing n k with
  | nil =>
    obtain ⟨n, rfl⟩ : ∃ m, n = m + 1 := ⟨n - 1, by simp at hn; omega⟩
    rfl
  | cons a t ih =>
    obtain ⟨n, rfl⟩ : ∃ m, n = m + 1 := ⟨n - 1, by simp at hn; omega⟩
    simp only [List.forall_mem_cons] at hf
    simp only [List.length_cons] at hn
    rw [entropyDrawIn]
    simp only [EntropyPort.nextAnswer, EntropyPort.afterAttempt, List.cons_append, List.tail_cons, hf.1,
      Bool.false_eq_true, if_false]
    rw [ih n (k + 1) hf.2 (by omega)]
    simp only [List.length_cons, Prod.mk.injEq, EntropyPort.mk.injEq, true_and]
    omega

/-- A draw from listed answers that all fail. -/
theorem entropyDrawIn_failure (fails rest : List EntropyAnswer) (k : Nat) (hf : ∀ a ∈ fails, a.ok = false) :
    entropyDrawIn fails.length ⟨fails ++ rest, k⟩ = (none, ⟨rest, k + fails.length⟩) := by
  induction fails generalizing k with
  | nil => rfl
  | cons a t ih =>
    simp only [List.forall_mem_cons] at hf
    simp only [List.length_cons, entropyDrawIn, EntropyPort.nextAnswer, EntropyPort.afterAttempt,
      List.cons_append, List.tail_cons, hf.1, Bool.false_eq_true, if_false]
    rw [ih (k + 1) hf.2]
    simp only [Prod.mk.injEq, EntropyPort.mk.injEq, true_and]
    omega

theorem afterDraw_cases {α β : Type} (d : EntropyPort → Option α × EntropyPort)
    (k : α → EntropyPort → Option β × EntropyPort) (p : EntropyPort) :
    ((d p).1 = none ∧ afterDraw d k p = (none, (d p).2)) ∨
    ∃ v, (d p).1 = some v ∧ afterDraw d k p = k v (d p).2 := by
  unfold afterDraw
  rcases h : d p with ⟨_ | v, q⟩
  · exact .inl ⟨rfl, rfl⟩
  · exact .inr ⟨v, rfl, rfl⟩

/-- A scalar stream from entropy has an odd increment. -/
theorem entropyScalar_odd {p : EntropyPort} {x : ScalarCtx} (h : (entropyScalar p).1 = some x) : x.Odd := by
  intro _
  unfold entropyScalar at h
  rcases afterDraw_cases entropyDraw64 _ p with ⟨-, e⟩ | ⟨cur, -, e⟩ <;> rw [e] at h
  · simp at h
  · rcases afterDraw_cases entropyDraw64 (fun inc q => (some (⟨cur, inc ||| 1, true⟩ : ScalarCtx), q)) _ with
      ⟨-, e⟩ | ⟨inc, -, e⟩ <;> rw [e] at h
    · simp at h
    · obtain rfl := Option.some.inj h
      simp

/-- A lane from entropy has an odd increment. -/
theorem entropyLane_odd {p : EntropyPort} {x : Word32 × Word32} (h : (entropyLane p).1 = some x) :
    x.2.getLsbD 0 = true := by
  unfold entropyLane at h
  rcases afterDraw_cases entropyDraw64 _ p with ⟨-, e⟩ | ⟨cur, -, e⟩ <;> rw [e] at h
  · simp at h
  · rcases afterDraw_cases entropyDraw64 (fun inc q => (some (trunc32 cur, trunc32 inc ||| 1), q)) _ with
      ⟨-, e⟩ | ⟨inc, -, e⟩ <;> rw [e] at h
    · simp at h
    · obtain rfl := Option.some.inj h
      simp

/-! ## The rejection loop (R100) -/

theorem maskedDraw_succ (p : Config.Params) (x : ScalarCtx) (mask : Word64) (i : Nat) :
    maskedDraw p x mask (i + 1) = maskedDraw p x.advance mask i := by
  simp [maskedDraw, drawWord, advanceBy_succ]

/-- All the loop can do: find the first accepted draw within its fuel, or find none there. -/
theorem rejectionLoop_cases (p : Config.Params) (span mask : Word64) (n : Nat) (x : ScalarCtx) :
    (rejectionLoop p span mask n x = none ∧
      ∀ i, i < n → ¬(maskedDraw p x mask i).toNat ≤ span.toNat) ∨
    ∃ j, j < n ∧ (maskedDraw p x mask j).toNat ≤ span.toNat ∧
      (∀ i, i < j → ¬(maskedDraw p x mask i).toNat ≤ span.toNat) ∧
      rejectionLoop p span mask n x = some (maskedDraw p x mask j, advanceBy (j + 1) x) := by
  induction n generalizing x with
  | zero => exact .inl ⟨rfl, fun i hi => absurd hi (by omega)⟩
  | succ n ih =>
    by_cases h : (x.out p &&& mask).toNat ≤ span.toNat
    · exact .inr ⟨0, by omega, h, fun i hi => absurd hi (by omega), if_pos h⟩
    · have e : rejectionLoop p span mask (n + 1) x = rejectionLoop p span mask n x.advance :=
        if_neg h
      rw [e]
      rcases ih x.advance with ⟨hn, hi⟩ | ⟨j, hj, ha, hi, hr⟩
      · refine .inl ⟨hn, fun i hin => ?_⟩
        cases i with
        | zero => exact h
        | succ i => rw [maskedDraw_succ]; exact hi i (by omega)
      · refine .inr ⟨j + 1, by omega, by rwa [maskedDraw_succ], fun i hij => ?_, ?_⟩
        · cases i with
          | zero => exact h
          | succ i => rw [maskedDraw_succ]; exact hi i (by omega)
        · rw [hr, maskedDraw_succ, advanceBy_succ (j + 1)]

/-! ## The bitcode VM (R81, R82) -/

theorem biasStep_ctx (p : Config.Params) (n : Word64) (r : BiasRun) :
    (biasStep p n r).ctx = r.ctx.advance := rfl

/-- The VM makes `m - ctz(n)` rounds (R82). -/
theorem biasCore_eq_iterate (p : Config.Params) (n m : Word64) (x : ScalarCtx) (hm : m.toNat ≤ 64) :
    biasCore p n m x = (biasStep p n)^[m.toNat - ctz n] ⟨0, ctz n, x⟩ :=
  repeatWhile_count BiasRun.pc m.toNat (fun _ => rfl) (fun _ => rfl) 64 _ (by simp only; omega)

theorem biasStep_iterate_ctx (p : Config.Params) (n : Word64) (k : Nat) (r : BiasRun) :
    ((biasStep p n)^[k] r).ctx = advanceBy k r.ctx := by
  induction k generalizing r with
  | zero => rfl
  | succ k ih => rw [Function.iterate_succ_apply, ih, biasStep_ctx, advanceBy_succ]

theorem biasStep_iterate_pc (p : Config.Params) (n : Word64) (k : Nat) (r : BiasRun) :
    ((biasStep p n)^[k] r).pc = r.pc + k := by
  induction k generalizing r with
  | zero => rfl
  | succ k ih => rw [Function.iterate_succ_apply, ih]; simp only [biasStep]; omega

/-- The VM's context afterwards: one draw for each round (R82). -/
theorem biasCore_ctx (p : Config.Params) (n m : Word64) (x : ScalarCtx) (hm : m.toNat ≤ 64) :
    (biasCore p n m x).ctx = advanceBy (m.toNat - ctz n) x := by
  rw [biasCore_eq_iterate p n m x hm, biasStep_iterate_ctx]

/-- Whatever its operands, the VM only draws. -/
theorem biasCore_draws (p : Config.Params) (n m : Word64) (x : ScalarCtx) :
    ∃ k, (biasCore p n m x).ctx = advanceBy k x :=
  repeatWhile_invariant (fun r : BiasRun => ∃ k, r.ctx = advanceBy k x)
    (fun r ⟨k, h⟩ _ => ⟨k + 1, by rw [biasStep_ctx, h, advanceBy_succ']⟩) 64 _ ⟨0, rfl⟩

theorem binomialBlock_iterate_block (p : Config.Params) (n m : Word64) (k : Nat) (r : BinomialRun) :
    ((binomialBlock p n m)^[k] r).block = r.block + k := by
  induction k generalizing r with
  | zero => rfl
  | succ k ih => rw [Function.iterate_succ_apply, ih]; simp only [binomialBlock]; omega

/-- The full blocks of BINOMIAL are an iteration (R104). -/
theorem binomialBlocks_eq_iterate (p : Config.Params) (n m : Word64) (k : Nat) (x : ScalarCtx) :
    repeatWhile (fun r => decide (r.block < k)) (binomialBlock p n m) k ⟨0, 0, ⟨0, 0, x⟩⟩ =
      (binomialBlock p n m)^[k] ⟨0, 0, ⟨0, 0, x⟩⟩ :=
  repeatWhile_count BinomialRun.block k (fun _ => rfl) (fun _ => rfl) k _ (by simp)

/-- Whatever its operands, the block loop only draws. -/
theorem binomialCore_draws (p : Config.Params) (k n m : Word64) (x : ScalarCtx) :
    ∃ j, (binomialCore p k n m x).last.ctx = advanceBy j x := by
  have body : ∀ r : BinomialRun, (∃ j, r.last.ctx = advanceBy j x) →
      ∃ j, (biasCore p n m r.last.ctx).ctx = advanceBy j x := by
    rintro r ⟨j, h⟩
    obtain ⟨i, hi⟩ := biasCore_draws p n m r.last.ctx
    exact ⟨i + j, by rw [hi, h, advanceBy_add]⟩
  have blocks := repeatWhile_invariant (cond := fun r => decide (r.block < k.toNat / 64))
    (body := binomialBlock p n m) (fun r => ∃ j, r.last.ctx = advanceBy j x) (fun r h _ => body r h)
    (k.toNat / 64) ⟨0, 0, ⟨0, 0, x⟩⟩ ⟨0, rfl⟩
  unfold binomialCore binomialTail
  split
  · exact blocks
  · exact body _ blocks

/-! ## The debiasing pass (R87, R88) -/

/-- What a round does, whatever the pair is. -/
theorem debiasPair_cases (bit : Nat → Bool) (r : DebiasRun) :
    (bit r.used = bit (r.used + 1) ∧ debiasPair bit r = ⟨r.used + 2, r.filled, r.ones⟩) ∨
    (bit r.used = false ∧ bit (r.used + 1) = true ∧
      debiasPair bit r = ⟨r.used + 2, r.filled + 1, r.filled :: r.ones⟩) ∨
    (bit r.used = true ∧ bit (r.used + 1) = false ∧
      debiasPair bit r = ⟨r.used + 2, r.filled + 1, r.ones⟩) := by
  unfold debiasPair
  cases h1 : bit r.used <;> cases h2 : bit (r.used + 1) <;> simp

/-- Write positions stay below the capacity. -/
theorem debiasPass_ones (bit : Nat → Bool) (n m : Nat) :
    ∀ w ∈ (debiasPass bit n m).ones, w < (debiasPass bit n m).filled ∧ w < m := by
  have inv := repeatWhile_invariant (cond := fun r => decide (r.used < n) && decide (r.filled < m))
    (body := debiasPair bit) (fun r => r.filled ≤ m ∧ ∀ w ∈ r.ones, w < r.filled)
    (fun r ⟨_, h⟩ hc => by
      simp only [Bool.and_eq_true, decide_eq_true_eq] at hc
      rcases debiasPair_cases bit r with ⟨-, e⟩ | ⟨-, -, e⟩ | ⟨-, -, e⟩ <;> rw [e]
      · exact ⟨hc.2.le, h⟩
      · refine ⟨hc.2, fun w hw => ?_⟩
        rcases List.mem_cons.1 hw with rfl | hw
        · exact Nat.lt_succ_self _
        · exact (h w hw).trans (Nat.lt_succ_self _)
      · exact ⟨hc.2, fun w hw => (h w hw).trans (Nat.lt_succ_self _)⟩)
    n ⟨0, 0, []⟩ ⟨Nat.zero_le _, by simp⟩
  exact fun w hw => ⟨inv.2 w hw, (inv.2 w hw).trans_le inv.1⟩

theorem orOnes_wf {m : Memory} (dest : Nat) (ones : List Nat) (h : Memory.wf m) :
    Memory.wf (orOnes dest ones m) := by
  induction ones with
  | nil => exact h
  | cons w t ih => exact orBit_wf _ _ ih

/-- The pass changes no byte outside the words its ones go to. -/
theorem readByte_orOnes_outside (m : Memory) (dest k : Nat) (ones : List Nat) (a : Nat)
    (hones : ∀ w ∈ ones, w < 64 * k) (ha : a < dest ∨ dest + 8 * k ≤ a) :
    readByte (orOnes dest ones m) a = readByte m a := by
  induction ones with
  | nil => rfl
  | cons w t ih =>
    simp only [List.forall_mem_cons] at hones
    show readByte (orBit dest (orOnes dest t m) w) a = _
    rw [orBit, readByte_writeWord_outside, ih hones.2]
    unfold bitWord
    omega

/-- The pass sets the bits of its ones, and no other bit changes. -/
theorem bitRead_orOnes {m : Memory} (h : Memory.wf m) (dest : Nat) (ones : List Nat) (i : Nat) :
    bitRead (orOnes dest ones m) dest i = (bitRead m dest i || decide (i ∈ ones)) := by
  induction ones with
  | nil => simp [orOnes]
  | cons w t ih =>
    show bitRead (orBit dest (orOnes dest t m) w) dest i = _
    rw [bitRead_orBit (orOnes_wf _ _ h), ih]
    by_cases e : i = w <;> simp [e]

/-- What one more pair emits. -/
theorem emittedBits_succ (bit : Nat → Bool) (p : Nat) : emittedBits bit (p + 1) = emittedBits bit p ++
    (match bit (2 * p), bit (2 * p + 1) with
     | false, true => [true]
     | true, false => [false]
     | _, _ => []) := by
  unfold emittedBits
  rw [List.range_succ, List.filterMap_append]
  congr 1
  cases h1 : bit (2 * p) <;> cases h2 : bit (2 * p + 1) <;> simp [h1, h2]

theorem emittedBits_length_mono (bit : Nat → Bool) {i p : Nat} (h : i ≤ p) :
    (emittedBits bit i).length ≤ (emittedBits bit p).length := by
  induction h with
  | refl => exact le_rfl
  | step _ ih => rw [emittedBits_succ, List.length_append]; omega

/-- The cursors after `p` pairs: `2p` bits read, as many written as those pairs emit (R88). -/
theorem debiasPair_iterate (bit : Nat → Bool) (p : Nat) :
    ((debiasPair bit)^[p] ⟨0, 0, []⟩).used = 2 * p ∧
      ((debiasPair bit)^[p] ⟨0, 0, []⟩).filled = (emittedBits bit p).length := by
  induction p with
  | zero => exact ⟨rfl, rfl⟩
  | succ p ih =>
    rw [Function.iterate_succ_apply', emittedBits_succ, debiasPair, ih.1]
    cases bit (2 * p) <;> cases bit (2 * p + 1) <;> simp [ih] <;> omega

/-- A pair before the end of the source, with room left in the destination, is read; and where it is `01`, its
write position is among the ones. -/
theorem debiasPass_reaches (bit : Nat → Bool) {n m p : Nat} (hp : 2 * p < n)
    (hm : (emittedBits bit p).length < m) :
    2 * p + 2 ≤ (debiasPass bit n m).used ∧
      (bit (2 * p) = false → bit (2 * p + 1) = true →
        (emittedBits bit p).length ∈ (debiasPass bit n m).ones) := by
  have start : ∀ i, i < p + 1 →
      (decide (((debiasPair bit)^[i] ⟨0, 0, []⟩).used < n)
        && decide (((debiasPair bit)^[i] ⟨0, 0, []⟩).filled < m)) = true := fun i hi => by
    have := emittedBits_length_mono bit (show i ≤ p by omega)
    simp only [debiasPair_iterate bit i, Bool.and_eq_true, decide_eq_true_eq]
    omega
  unfold debiasPass
  rw [repeatWhile_skip _ _ (p + 1) n _ start (by omega)]
  refine repeatWhile_invariant (fun r : DebiasRun => 2 * p + 2 ≤ r.used ∧
    (bit (2 * p) = false → bit (2 * p + 1) = true → (emittedBits bit p).length ∈ r.ones))
    (fun r ⟨h1, h2⟩ _ => ?_) _ _ ⟨by rw [(debiasPair_iterate bit (p + 1)).1]; omega, fun a b => ?_⟩
  · rcases debiasPair_cases bit r with ⟨-, e⟩ | ⟨-, -, e⟩ | ⟨-, -, e⟩ <;> rw [e] <;>
      refine ⟨by simp only; omega, fun a b => ?_⟩
    · exact h2 a b
    · exact List.mem_cons_of_mem _ (h2 a b)
    · exact h2 a b
  · have hi := debiasPair_iterate bit p
    rw [Function.iterate_succ_apply', debiasPair, hi.1, a, b]
    simp [hi.2]

theorem orOnes_below {m : Memory} {n : Nat} (dest k : Nat) (ones : List Nat) (h : Memory.below m n)
    (hones : ∀ w ∈ ones, w < 64 * k) (hk : dest + 8 * k ≤ n) : Memory.below (orOnes dest ones m) n := by
  induction ones with
  | nil => exact h
  | cons w t ih =>
    simp only [List.forall_mem_cons] at hones
    exact writeWord_below _ (ih hones.2) (by unfold bitWord; omega)

/-! ## Stale bytes (R127) -/

/-- A byte without a record has none of its address in the list. -/
theorem staleAt?_none {l : List StaleByte} {a : Nat} (h : ∀ r ∈ l, r.addr ≠ a) : staleAt? l a = none := by
  simpa [staleAt?] using h

theorem staleValues_cons (r : StaleByte) (l : List StaleByte) (a : Nat) :
    staleValues (r :: l) a = if r.addr = a then r.seen else staleValues l a := by
  by_cases h : r.addr = a <;> simp [staleValues, staleAt?, h]

/-- In a steady buffer the command reads what is in memory. -/
theorem sourceBit_steady {s : State} {base n i : Nat} (role : Nat) (h : SteadyBuffer s base n) (hi : i < n) :
    sourceBit s base role i = bitRead s.mem base i := by
  have hu : unsteady s (bitWord base i) = false := h.1 (i / 64) (by unfold wordCount; omega)
  have hs : staleAt? s.stale (base + i / 8) = none := staleAt?_none fun r hr ha =>
    h.2 r hr ⟨by omega, by unfold wordCount; omega⟩
  simp [sourceBit, hu, hs]

/-- What a stale byte of a steady word can read as: the byte in memory, or one of its record. -/
theorem pickByte_mem (now : Byte) (seen : List Byte) (choice : Nat) : pickByte now seen choice ∈ now :: seen := by
  have hlt : choice % (seen.length + 1) < (now :: seen).length := Nat.mod_lt _ (Nat.succ_pos _)
  rw [pickByte, List.getD_eq_getElem _ _ hlt]
  exact List.getElem_mem hlt

/-- A property of memory that every settled byte keeps holds of the settled destination. -/
theorem destSettled_induction {s : State} (P : Memory → Prop) (h : P s.mem)
    (hstep : ∀ r m, s.inDest r.addr = true → P m → P (s.settleByte r m)) : P s.destSettled := by
  have key : ∀ l : List StaleByte, (∀ r ∈ l, s.inDest r.addr = true) → P (l.foldr s.settleByte s.mem) := by
    intro l hl
    induction l with
    | nil => exact h
    | cons r t ih =>
      simp only [List.forall_mem_cons] at hl
      exact hstep r _ hl.1 (ih hl.2)
  exact key _ fun r hr => (List.mem_filter.1 hr).2

theorem inDest_iff {s : State} {a : Nat} : s.inDest a = true ↔
    s.args.v2.toNat ≤ a ∧ a < s.args.v2.toNat + 8 * wordCount s.args.v3.toNat := by
  rw [State.inDest, Bool.and_eq_true, decide_eq_true_eq, decide_eq_true_eq]
  rfl

theorem destSettled_wf {s : State} (h : s.mem.wf) : Memory.wf s.destSettled :=
  destSettled_induction Memory.wf h fun _ _ _ hm => writeByte_wf _ _ hm

theorem destSettled_below {s : State} {n : Nat} (h : Memory.below s.mem n)
    (hn : s.args.v2.toNat + 8 * wordCount s.args.v3.toNat ≤ n) : Memory.below s.destSettled n :=
  destSettled_induction (Memory.below · n) h fun _ _ hr hm =>
    writeByte_below _ hm ((inDest_iff.1 hr).2.trans_le hn)

/-- Settling changes no byte outside the destination words. -/
theorem readByte_destSettled_outside {s : State} {a : Nat}
    (ha : ¬(s.args.v2.toNat ≤ a ∧ a < s.args.v2.toNat + 8 * wordCount s.args.v3.toNat)) :
    readByte s.destSettled a = readByte s.mem a :=
  destSettled_induction (fun m => readByte m a = readByte s.mem a) rfl fun r m hr hm => by
    have he : a ≠ r.addr := fun he => ha (he ▸ inDest_iff.1 hr)
    rw [State.settleByte, readByte_writeByte_other _ _ he, hm]

/-- In a steady destination there is nothing to settle. -/
theorem destSettled_steady {s : State} (h : SteadyBuffer s s.args.v2.toNat s.args.v3.toNat) :
    s.destSettled = s.mem := by
  have : s.stale.filter (fun r => s.inDest r.addr) = [] := by
    rw [List.filter_eq_nil_iff]
    exact fun r hr hd => h.2 r hr (inDest_iff.1 hd)
  rw [State.destSettled, this]
  rfl

/-- Each settled byte of the destination is the byte in memory or one of its record (R127). -/
theorem readByte_destSettled_mem {s : State} {a : Nat} (h : s.mem.wf) (ha : s.inDest a = true) :
    readByte s.destSettled a ∈ readByte s.mem a :: staleValues s.stale a := by
  have key : ∀ l : List StaleByte,
      let m := (l.filter (fun r => s.inDest r.addr)).foldr s.settleByte s.mem
      Memory.wf m ∧ readByte m a ∈ readByte s.mem a :: staleValues l a := by
    intro l
    induction l with
    | nil => exact ⟨h, List.mem_cons_self⟩
    | cons r t ih =>
      by_cases hr : s.inDest r.addr = true
      · rw [List.filter_cons_of_pos (p := fun r : StaleByte => s.inDest r.addr) hr, staleValues_cons]
        refine ⟨writeByte_wf _ _ ih.1, ?_⟩
        split
        · next e =>
          rw [List.foldr_cons, State.settleByte, ← e, readByte_writeByte_same _ _ ih.1]
          exact pickByte_mem _ _ _
        · next e =>
          rw [List.foldr_cons, State.settleByte, readByte_writeByte_other _ _ (Ne.symm e)]
          exact ih.2
      · rw [List.filter_cons_of_neg (p := fun r : StaleByte => s.inDest r.addr) hr, staleValues_cons,
          if_neg (by rintro rfl; exact hr ha)]
        exact ih
  exact (key _).2

/-! ## Reset (R123) -/

/-- All that an abandoned entropy path does to the port: some attempts, no more than the whole path makes. -/
theorem abandonAttempts_entropy (s : State) (whole : EntropyPort) :
    ∃ n, n ≤ whole.attempts - s.entropy.attempts ∧
      (s.abandonAttempts whole).entropy = ⟨s.entropy.answers.drop n, s.entropy.attempts + n⟩ :=
  ⟨_, Nat.min_le_right _ _, rfl⟩

/-! ## The window (R38) -/

/-- A window read changes at most the draw counter. -/
theorem windowRead_state {s t : State} {w : Width} {off : Nat} {v : Word64}
    (h : windowRead s w off = some (v, t)) : t = s ∨ t = s.countDraw := by
  unfold windowRead at h
  split at h
  · split at h
    case h_5 =>
      split at h
      · obtain ⟨-, rfl⟩ := Prod.mk.inj (Option.some.inj h); exact .inr rfl
      · obtain ⟨-, rfl⟩ := Prod.mk.inj (Option.some.inj h); exact .inl rfl
    all_goals obtain ⟨-, rfl⟩ := Prod.mk.inj (Option.some.inj h); exact .inl rfl
  · simp at h

/-- All a window write can do. -/
theorem windowWrite_cases {s t : State} {w : Width} {off : Nat} {v : Word64}
    (h : windowWrite s w off v = some t) :
    s.inReset = false ∧ accessAllowed w off = true ∧
    (t = s ∨ (s.status.busy = true ∧ t = s.overrun) ∨
     (s.status.busy = false ∧ t = s.accept (trunc32 v)) ∨
     t = { s with status := writeStatus s.status (trunc32 v) } ∨
     ∃ i, s.status.busy = false ∧ t = s.setArg i (writePart w off (s.args.get i) v)) := by
  unfold windowWrite at h
  split at h
  case isFalse => simp at h
  case isTrue hg =>
    simp only [Bool.and_eq_true, Bool.not_eq_true'] at hg
    refine ⟨hg.2, hg.1, ?_⟩
    cases hb : s.status.busy <;> simp only [hb] at h <;> split at h <;>
      obtain rfl := Option.some.inj h <;> simp
    exact .inr (.inr (.inr ⟨_, rfl⟩))

/-! ## Host loads and stores (R38, R58) -/

/-- A host store to ordinary memory. -/
theorem hostStore_ordinary {s : State} {w : Width} {a : Nat} (v : Word64)
    (hw : meetsWindow s.params a w.bytes = false) (hm : noMemory s.regions a w.bytes = false)
    (hd : deviceAt s.regions a w.bytes = false) : hostStore s w a v =
      .done ((s.noteStore a w.bytes v.toNat).setMem (writeLE s.mem a w.bytes v.toNat)) := by
  simp [hostStore, hw, hm, hd]

/-- All a host store that is done can do. -/
theorem hostStore_cases {s t : State} {w : Width} {a : Nat} {v : Word64} (h : hostStore s w a v = .done t) :
    (inWindow s.params a = true ∧ windowWrite s w (a - s.params.mmioBase.toNat) v = some t) ∨
    (meetsWindow s.params a w.bytes = false ∧ noMemory s.regions a w.bytes = false ∧
      ((deviceAt s.regions a w.bytes = true ∧ t = s) ∨
       (deviceAt s.regions a w.bytes = false ∧
        t = (s.noteStore a w.bytes v.toNat).setMem (writeLE s.mem a w.bytes v.toNat)))) := by
  rw [hostStore] at h
  cases hw : meetsWindow s.params a w.bytes <;> simp only [hw, Bool.false_eq_true, if_false, if_true] at h
  · cases hm : noMemory s.regions a w.bytes <;> simp only [hm, Bool.false_eq_true, if_false, if_true] at h
    · cases hd : deviceAt s.regions a w.bytes <;> simp only [hd, Bool.false_eq_true, if_false, if_true] at h
      · exact .inr ⟨rfl, rfl, .inr ⟨rfl, (Stored.done.inj h).symm⟩⟩
      · exact .inr ⟨rfl, rfl, .inl ⟨rfl, (Stored.done.inj h).symm⟩⟩
    · cases h
  · split at h
    · next hi =>
      cases hr : windowWrite s w (a - s.params.mmioBase.toNat) v <;> rw [hr] at h
      · cases h
      · exact .inl ⟨hi, congrArg some (Stored.done.inj h)⟩
    · cases h

/-- A host load of ordinary memory, no destination of a running DEBIAS. -/
theorem hostLoad_ordinary {s : State} {w : Width} {a : Nat} (hw : meetsWindow s.params a w.bytes = false)
    (hm : noMemory s.regions a w.bytes = false) (hd : deviceAt s.regions a w.bytes = false)
    (hb : destBusy s a w.bytes = false) :
    hostLoad s w a = .value (BitVec.ofNat 64 (readLE s.mem a w.bytes)) s := by
  simp [hostLoad, hw, hm, hd, hb]

/-- A host load changes at most the draw counter. -/
theorem hostLoad_state {s t : State} {w : Width} {a : Nat} {v : Word64} (h : hostLoad s w a = .value v t) :
    t = s ∨ t = s.countDraw := by
  rw [hostLoad] at h
  split at h
  · split at h
    · cases hr : windowRead s w (a - s.params.mmioBase.toNat) <;> rw [hr] at h
      · cases h
      · obtain ⟨rfl, rfl⟩ := Loaded.value.inj h
        exact windowRead_state hr
    · cases h
  · split at h
    · cases h
    · split at h
      · exact .inr (Loaded.value.inj h).2.symm
      · exact .inl (Loaded.value.inj h).2.symm

/-- What one noted store of a byte adds: the two values it had, at its address alone. -/
theorem staleValues_noteByte (a b : Nat) (old new : Byte) (l : List StaleByte) :
    staleValues (noteByte a old new l) b =
      if b = a then new :: old :: staleValues l a else staleValues l b := by
  induction l with
  | nil =>
    rw [noteByte, staleValues_cons]
    by_cases h : b = a
    · rw [if_pos h.symm, if_pos h]; rfl
    · rw [if_neg (Ne.symm h), if_neg h]
  | cons r t ih =>
    rw [noteByte]
    split
    · next hr =>
      rw [staleValues_cons, staleValues_cons, staleValues_cons, if_pos hr, hr]
      by_cases h : b = a
      · rw [if_pos h.symm, if_pos h]
      · rw [if_neg (Ne.symm h), if_neg h, if_neg (Ne.symm h)]
    · next hr =>
      rw [staleValues_cons, staleValues_cons, staleValues_cons, ih, if_neg hr]
      by_cases h : b = a
      · rw [if_pos h, if_neg (h ▸ hr)]; exact (if_pos h).symm
      · rw [if_neg h, if_neg h]

/-- What a noted store adds at each address. -/
theorem staleValues_noteBytes (m : Memory) (a n v b : Nat) (l : List StaleByte) :
    staleValues (noteBytes m a n v l) b =
      if a ≤ b ∧ b < a + n then BitVec.ofNat 8 (v / 256 ^ (b - a)) :: readByte m b :: staleValues l b
      else staleValues l b := by
  induction n generalizing a v l with
  | zero => rw [noteBytes, if_neg (by omega)]
  | succ n ih =>
    rw [noteBytes, ih, staleValues_noteByte]
    by_cases hb : b = a
    · subst hb
      rw [if_neg (by omega), if_pos rfl, if_pos (by omega)]
      simp
    · rw [if_neg hb]
      by_cases hi : a + 1 ≤ b ∧ b < a + 1 + n
      · rw [if_pos hi, if_pos (by omega), Nat.div_div_eq_div_mul, ← Nat.pow_succ',
          show (b - (a + 1)).succ = b - a by omega]
      · rw [if_neg hi, if_neg (by omega)]

end Sys2Proof.Machine
end

