-- ==== Sys2Proof/Laws/Exec.lean ====
section
/-! SUPPORT. The operand checks said as propositions, and what each command does once its context is there
and its operands are in range: later proofs cite these and unfold no meaning. -/

namespace Sys2Proof.Machine

/-! ## Completion (R107) -/

/-- Completion after updates that touch RES, the contexts, memory, the entropy port and the counters. -/
theorem CompletedFrom.of_complete {s u : State} (e : StatusCode) (hs : u.status.ovr = s.status.ovr)
    (hc : u.cmd = s.cmd) (ha : u.args = s.args) (hi : u.inReset = s.inReset) (hp : u.params = s.params)
    (hr : u.regions = s.regions) (hu : u.unfenced = s.unfenced) (hh : u.host = s.host)
    (ht : u.turns = s.turns) : CompletedFrom s (u.complete e) e :=
  ⟨rfl, rfl, hs, hc, ha, rfl, rfl, rfl, hi, hp, hr, hu, hh, ht⟩

/-- A command that ends at once, with nothing done. -/
theorem completedFrom_complete (s : State) (e : StatusCode) : CompletedFrom s (s.complete e) e :=
  .of_complete e rfl rfl rfl rfl rfl rfl rfl rfl rfl

theorem keepsRest_complete (s : State) (e : StatusCode) : KeepsRest s (s.complete e) :=
  ⟨rfl, rfl, rfl, rfl, rfl⟩

theorem sameScalarBut_setScalar (s : State) (c : Ctx) (y : ScalarCtx) : SameScalarBut c s (s.setScalar c y) :=
  ⟨by simp, fun k hk => State.setScalar_get_other s c y k hk⟩

theorem sameVectorBut_setVector (s : State) (c : Ctx) (y : VectorCtx) : SameVectorBut c s (s.setVector c y) :=
  ⟨by simp, fun k hk => State.setVector_get_other s c y k hk⟩

/-! ## Operand checks as R109 lists them -/

theorem word_ne_zero_iff (n : Word64) : n ≠ 0 ↔ n.toNat ≠ 0 :=
  not_congr ⟨fun h => by simp [h], fun h => BitVec.eq_of_toNat_eq (by simpa using h)⟩

theorem validNM_iff (n m : Word64) : validNM n m = true ↔ ¬BadNM n m := by
  simp only [validNM, BadNM, Bool.and_eq_true, Bool.or_eq_true, decide_eq_true_eq, word_ne_zero_iff]
  generalize 2 ^ m.toNat = p
  omega

theorem bufferOK_iff (p : Config.Params) (b n : Word64) : bufferOK p b n = true ↔ ¬BadBuffer p b n := by
  simp only [bufferOK, BadBuffer, Bool.and_eq_true, decide_eq_true_eq]
  unfold wordCount
  generalize 2 ^ p.addrW = q
  omega

theorem overlaps_eq_false_iff (src n dest m : Word64) : overlaps src n dest m = false ↔
    ¬(src.toNat < dest.toNat + 8 * ((m.toNat + 63) / 64) ∧
      dest.toNat < src.toNat + 8 * ((n.toNat + 63) / 64)) := by
  simp only [overlaps, Bool.and_eq_false_iff, decide_eq_false_iff_not, not_and_or]
  rfl

theorem debiasOK_iff (s : State) : s.debiasOK = true ↔ ¬PreconditionFails s .debias := by
  rw [show s.debiasOK = Machine.debiasOK s.params s.args.v0 s.args.v1 s.args.v2 s.args.v3 from rfl]
  simp only [Machine.debiasOK, PreconditionFails, Bool.and_eq_true, decide_eq_true_eq, bufferOK_iff,
    word_ne_zero_iff, Bool.not_eq_true', overlaps_eq_false_iff, not_or, and_assoc, ← Nat.mod_two_ne_one, ne_eq]

theorem autocorrOK_iff (s : State) :
    autocorrOK s.params s.args.v0 s.args.v1 s.args.v2 = true ↔ ¬PreconditionFails s .autocorr := by
  simp only [autocorrOK, PreconditionFails, Bool.and_eq_true, decide_eq_true_eq, bufferOK_iff,
    word_ne_zero_iff, not_or, and_assoc, not_le, ne_eq]

theorem boundedOK_iff (s : State) (c : Ctx) :
    boundedOK s.args.v0 s.args.v1 = true ↔ ¬PreconditionFails s (.bounded c) := by
  simp [boundedOK, PreconditionFails]

theorem binomialOK_iff (s : State) (c : Ctx) :
    binomialOK s.args.v0 s.args.v1 s.args.v2 = true ↔ ¬PreconditionFails s (.binomial c) := by
  simp only [binomialOK, PreconditionFails, Bool.and_eq_true, decide_eq_true_eq, validNM_iff,
    word_ne_zero_iff, not_or, ne_eq]

theorem seedsNonzero_iff (q : Quad Word64) : seedsNonzero q = true ↔ ∀ l, q.get l ≠ 0 := by
  simp only [seedsNonzero, Bool.and_eq_true, decide_eq_true_eq]
  exact ⟨fun ⟨⟨⟨h0, h1⟩, h2⟩, h3⟩ => Quad.forall_fin4 h0 h1 h2 h3, fun h => ⟨⟨⟨h 0, h 1⟩, h 2⟩, h 3⟩⟩

theorem seedsZero_iff (q : Quad Word64) : seedsZero q = true ↔ q = Quad.all 0 := by
  obtain ⟨a, b, c, d⟩ := q
  simp only [seedsZero, Bool.and_eq_true, decide_eq_true_eq, Quad.all, Quad.mk.injEq, and_assoc]

/-! ## Each command, on a context that is there, its operands in range -/

theorem withScalar_some {s : State} {c : Ctx} {x : ScalarCtx} (k : ScalarCtx → State)
    (hx : s.scalar? c = some x) : withScalar s c k = k x := by
  rw [withScalar, hx]

theorem withValidScalar_some {s : State} {c : Ctx} {x : ScalarCtx} (k : ScalarCtx → State)
    (hx : s.scalar? c = some x) (hv : x.valid = true) : withValidScalar s c k = k x := by
  rw [withValidScalar, withScalar_some _ hx]; exact if_pos hv

theorem withVector_some {s : State} {c : Ctx} {x : VectorCtx} (k : VectorCtx → State)
    (hx : s.vector? c = some x) : withVector s c k = k x := by
  rw [withVector, hx]

theorem withValidVector_some {s : State} {c : Ctx} {x : VectorCtx} (k : VectorCtx → State)
    (hx : s.vector? c = some x) (hv : x.valid = true) : withValidVector s c k = k x := by
  rw [withValidVector, withVector_some _ hx]; exact if_pos hv

theorem initEffect_seed {s : State} {c : Ctx} {x : ScalarCtx} (hx : s.scalar? c = some x)
    (h : s.args.v0 ≠ 0) : initEffect c s = (s.setScalar c (seedScalar s.params s.args.v0)).complete .ok := by
  rw [initEffect, withScalar_some _ hx]; exact if_pos h

theorem initEffect_entropy {s : State} {c : Ctx} {x : ScalarCtx} (hx : s.scalar? c = some x)
    (h : s.args.v0 = 0) : initEffect c s = initFromEntropy s c x := by
  rw [initEffect, withScalar_some _ hx]; exact if_neg (by simpa using h)

/-- What INIT's entropy path does, by how its draws end. -/
theorem initFromEntropy_cases (s : State) (c : Ctx) (x : ScalarCtx) :
    (∃ p tr, entropyScalar s.entropy = (none, p) ∧ initFromEntropy s c x =
      ((((s.setEntropy p).running tr).setScalar c { x with valid := false }).complete .entropyUnavailable)) ∨
    ∃ y p tr, entropyScalar s.entropy = (some y, p) ∧ initFromEntropy s c x =
      ((((s.setEntropy p).running tr).setScalar c y).complete .ok) := by
  unfold initFromEntropy
  rcases entropyScalar s.entropy with ⟨_ | y, p⟩
  · exact .inl ⟨p, _, rfl, rfl⟩
  · exact .inr ⟨y, p, _, rfl, rfl⟩

theorem nextEffect_valid {s : State} {c : Ctx} {x : ScalarCtx} (hx : s.scalar? c = some x)
    (hv : x.valid = true) : nextEffect c s =
      ((s.setScalar c x.advance).setRes 0 (x.out s.params)).complete .ok :=
  withValidScalar_some _ hx hv

theorem biasEffect_valid {s : State} {c : Ctx} {x : ScalarCtx} (hx : s.scalar? c = some x)
    (hv : x.valid = true) (hn : ¬BadNM s.args.v0 s.args.v1) : biasEffect c s =
      (let r := biasCore s.params s.args.v0 s.args.v1 x
       (((s.running (.bias r.acc r.pc)).setScalar c r.ctx).setRes 0 r.acc).complete .ok) := by
  rw [biasEffect, withValidScalar_some _ hx hv]; exact if_pos ((validNM_iff _ _).2 hn)

theorem binomialEffect_valid {s : State} {c : Ctx} {x : ScalarCtx} (hx : s.scalar? c = some x)
    (hv : x.valid = true) (hn : ¬PreconditionFails s (.binomial c)) : binomialEffect c s =
      (let r := binomialCore s.params s.args.v0 s.args.v1 s.args.v2 x
       (((s.running (.binomial r.last.acc r.last.pc r.sum r.block)).setScalar c r.last.ctx).setRes 0
        (BitVec.ofNat 64 r.sum)).complete .ok) := by
  rw [binomialEffect, withValidScalar_some _ hx hv]; exact if_pos ((binomialOK_iff s c).2 hn)

/-- What BOUNDED does, by how its loop ends. -/
theorem boundedEffect_valid {s : State} {c : Ctx} {x : ScalarCtx} (hx : s.scalar? c = some x)
    (hv : x.valid = true) (hn : ¬PreconditionFails s (.bounded c)) :
    (∃ tr, rejectionLoop s.params (s.args.v1 - s.args.v0) (maskOf (s.args.v1 - s.args.v0)) drawsBeforeRepeat x =
      none ∧ boundedEffect c s = s.running tr) ∨
    ∃ v y tr, rejectionLoop s.params (s.args.v1 - s.args.v0) (maskOf (s.args.v1 - s.args.v0))
      drawsBeforeRepeat x = some (v, y) ∧
      boundedEffect c s = (((s.running tr).setScalar c y).setRes 0 (v + s.args.v0)).complete .ok := by
  rw [boundedEffect, withValidScalar_some _ hx hv]
  dsimp only
  rw [show requireOperands s (boundedOK s.arg0 s.arg1) = fun k => k from
    funext fun k => if_pos ((boundedOK_iff s c).2 hn)]
  rcases h : rejectionLoop s.params (s.args.v1 - s.args.v0) (maskOf (s.args.v1 - s.args.v0)) drawsBeforeRepeat x
    with _ | ⟨v, y⟩
  · refine .inl ⟨.bounded (s.args.v1 - s.args.v0) (maskOf (s.args.v1 - s.args.v0))
      (x.out s.params &&& maskOf (s.args.v1 - s.args.v0)), rfl, ?_⟩
    simp only [State.arg0_eq, State.arg1_eq, h]
  · refine .inr ⟨v, y, .bounded (s.args.v1 - s.args.v0) (maskOf (s.args.v1 - s.args.v0)) v, rfl, ?_⟩
    simp only [State.arg0_eq, State.arg1_eq, h, State.finish_eq]

/-- What DEBIAS does on operands in range. -/
theorem debiasEffect_ok {s : State} (hn : ¬PreconditionFails s .debias) :
    debiasEffect s =
      (let r := s.debiasPass
       let after := orOnes s.args.v2.toNat r.ones s.destSettled
       let u := (s.running (.debias r.used r.filled)).countDraw
       if debiasBusError s r after then
         (u.setMem (s.destAnyValue (fun _ => true) s.mem)).complete .busError
       else
         (((u.setMem (s.destAnyValue (unsteady s) after)).setRes 0 (BitVec.ofNat 64 r.used)).setRes 1
           (BitVec.ofNat 64 r.filled)).complete .ok) :=
  if_pos ((debiasOK_iff s).2 hn)

/-- What AUTOCORR does on operands in range. -/
theorem autocorrEffect_ok {s : State} (hn : ¬PreconditionFails s .autocorr) :
    autocorrEffect s =
      (let r := s.autocorrCounts
       let u := (s.running (.autocorr r.x1 r.x2)).countDraw
       if autocorrBusError s then u.complete .busError
       else (u.setRes 0 (autocorrResult s.args.v1.toNat r.x1 r.x2).1).complete
         (autocorrResult s.args.v1.toNat r.x1 r.x2).2) :=
  if_pos ((autocorrOK_iff s).2 hn)

theorem vinitEffect_seeds {s : State} {c : Ctx} {x : VectorCtx} (hx : s.vector? c = some x)
    (h : ∀ l, s.args.get l ≠ 0) :
    vinitEffect c s = (s.setVector c (seedVector s.params s.args)).complete .ok := by
  rw [vinitEffect, withVector_some _ hx]; exact if_pos ((seedsNonzero_iff _).2 h)

theorem vinitEffect_entropy {s : State} {c : Ctx} {x : VectorCtx} (hx : s.vector? c = some x)
    (h : s.args = Quad.all 0) : vinitEffect c s = vinitFromEntropy s c x := by
  rw [vinitEffect, withVector_some _ hx, h]; rfl

/-- What VINIT's entropy path does, by how its draws end. -/
theorem vinitFromEntropy_cases (s : State) (c : Ctx) (x : VectorCtx) :
    (∃ p tr, entropyVector s.entropy = (none, p) ∧ vinitFromEntropy s c x =
      ((((s.setEntropy p).running tr).setVector c { x with valid := false }).complete .entropyUnavailable)) ∨
    ∃ y p tr, entropyVector s.entropy = (some y, p) ∧ vinitFromEntropy s c x =
      ((((s.setEntropy p).running tr).setVector c y).complete .ok) := by
  unfold vinitFromEntropy
  rcases entropyVector s.entropy with ⟨_ | y, p⟩
  · exact .inl ⟨p, _, rfl, rfl⟩
  · exact .inr ⟨y, p, _, rfl, rfl⟩

theorem vnextEffect_valid {s : State} {c : Ctx} {x : VectorCtx} (hx : s.vector? c = some x)
    (hv : x.valid = true) : vnextEffect c s =
      ((s.setVector c (x.advance s.params)).setAllRes (x.out s.params)).complete .ok :=
  withValidVector_some _ hx hv

/-! ## Everything a command can do -/

/-- All the next states of a command, one constructor for each way it can go (R114, R115). -/
inductive Executed (s : State) : Instr → State → Prop where
  | rejected (i : Instr) (e : StatusCode) (hi : i ≠ .mix)
      (he : e = .illegalCommand ∨ e = .contextInvalid ∨ e = .preconditionViolation) :
      Executed s i (s.complete e)
  | mix : Executed s .mix ((s.setRes 0 (mix64 s.params s.args.v0)).complete .ok)
  | initSeed (c : Ctx) (x : ScalarCtx) (hx : s.scalar? c = some x) (h : s.args.v0 ≠ 0) :
      Executed s (.init c) ((s.setScalar c (seedScalar s.params s.args.v0)).complete .ok)
  | initEntropy (c : Ctx) (x y : ScalarCtx) (p : EntropyPort) (tr : Transient) (hx : s.scalar? c = some x)
      (h : s.args.v0 = 0) (hp : entropyScalar s.entropy = (some y, p)) :
      Executed s (.init c) ((((s.setEntropy p).running tr).setScalar c y).complete .ok)
  | initFails (c : Ctx) (x : ScalarCtx) (p : EntropyPort) (tr : Transient) (hx : s.scalar? c = some x)
      (h : s.args.v0 = 0) (hp : entropyScalar s.entropy = (none, p)) :
      Executed s (.init c)
        ((((s.setEntropy p).running tr).setScalar c { x with valid := false }).complete .entropyUnavailable)
  | next (c : Ctx) (x : ScalarCtx) (hx : s.scalar? c = some x) (hv : x.valid = true) :
      Executed s (.next c) (((s.setScalar c x.advance).setRes 0 (x.out s.params)).complete .ok)
  | bounded (c : Ctx) (x y : ScalarCtx) (v : Word64) (tr : Transient) (hx : s.scalar? c = some x)
      (hv : x.valid = true) (hn : ¬PreconditionFails s (.bounded c))
      (hl : rejectionLoop s.params (s.args.v1 - s.args.v0) (maskOf (s.args.v1 - s.args.v0)) drawsBeforeRepeat
        x = some (v, y)) :
      Executed s (.bounded c) ((((s.running tr).setScalar c y).setRes 0 (v + s.args.v0)).complete .ok)
  | boundedRuns (c : Ctx) (x : ScalarCtx) (tr : Transient) (hx : s.scalar? c = some x)
      (hv : x.valid = true) (hn : ¬PreconditionFails s (.bounded c))
      (hl : rejectionLoop s.params (s.args.v1 - s.args.v0) (maskOf (s.args.v1 - s.args.v0)) drawsBeforeRepeat
        x = none) :
      Executed s (.bounded c) (s.running tr)
  | bias (c : Ctx) (x : ScalarCtx) (tr : Transient) (hx : s.scalar? c = some x) (hv : x.valid = true)
      (hn : ¬BadNM s.args.v0 s.args.v1) :
      Executed s (.bias c)
        ((((s.running tr).setScalar c (biasCore s.params s.args.v0 s.args.v1 x).ctx).setRes 0
          (biasCore s.params s.args.v0 s.args.v1 x).acc).complete .ok)
  | binomial (c : Ctx) (x : ScalarCtx) (tr : Transient) (hx : s.scalar? c = some x) (hv : x.valid = true)
      (hn : ¬PreconditionFails s (.binomial c)) :
      Executed s (.binomial c)
        ((((s.running tr).setScalar c (binomialCore s.params s.args.v0 s.args.v1 s.args.v2 x).last.ctx).setRes 0
          (BitVec.ofNat 64 (binomialCore s.params s.args.v0 s.args.v1 s.args.v2 x).sum)).complete .ok)
  | debias (tr : Transient) (hn : ¬PreconditionFails s .debias)
      (hb : debiasBusError s s.debiasPass (orOnes s.args.v2.toNat s.debiasPass.ones s.destSettled) = false) :
      Executed s .debias
        ((((((s.running tr).countDraw).setMem (s.destAnyValue (unsteady s)
          (orOnes s.args.v2.toNat s.debiasPass.ones s.destSettled))).setRes 0
            (BitVec.ofNat 64 s.debiasPass.used)).setRes 1 (BitVec.ofNat 64 s.debiasPass.filled)).complete .ok)
  | debiasFails (tr : Transient) (hn : ¬PreconditionFails s .debias)
      (hb : debiasBusError s s.debiasPass (orOnes s.args.v2.toNat s.debiasPass.ones s.destSettled) = true) :
      Executed s .debias
        ((((s.running tr).countDraw).setMem (s.destAnyValue (fun _ => true) s.mem)).complete .busError)
  | autocorr (tr : Transient) (e : StatusCode) (v : Word64) (hn : ¬PreconditionFails s .autocorr)
      (hb : autocorrBusError s = false)
      (he : (v, e) = autocorrResult s.args.v1.toNat s.autocorrCounts.x1 s.autocorrCounts.x2) :
      Executed s .autocorr ((((s.running tr).countDraw).setRes 0 v).complete e)
  | autocorrFails (tr : Transient) (hn : ¬PreconditionFails s .autocorr)
      (hb : autocorrBusError s = true) :
      Executed s .autocorr (((s.running tr).countDraw).complete .busError)
  | vinitSeeds (c : Ctx) (x : VectorCtx) (hx : s.vector? c = some x) (h : ∀ l, s.args.get l ≠ 0) :
      Executed s (.vinit c) ((s.setVector c (seedVector s.params s.args)).complete .ok)
  | vinitEntropy (c : Ctx) (x y : VectorCtx) (p : EntropyPort) (tr : Transient) (hx : s.vector? c = some x)
      (h : s.args = Quad.all 0) (hp : entropyVector s.entropy = (some y, p)) :
      Executed s (.vinit c) ((((s.setEntropy p).running tr).setVector c y).complete .ok)
  | vinitFails (c : Ctx) (x : VectorCtx) (p : EntropyPort) (tr : Transient) (hx : s.vector? c = some x)
      (h : s.args = Quad.all 0) (hp : entropyVector s.entropy = (none, p)) :
      Executed s (.vinit c)
        ((((s.setEntropy p).running tr).setVector c { x with valid := false }).complete .entropyUnavailable)
  | vnext (c : Ctx) (x : VectorCtx) (hx : s.vector? c = some x) (hv : x.valid = true) :
      Executed s (.vnext c) (((s.setVector c (x.advance s.params)).setAllRes (x.out s.params)).complete .ok)

/-- A command on a valid scalar context, its operands in range, or turned away. -/
theorem executed_scalar {s : State} {i : Instr} {c : Ctx} {ok : Bool} {k : ScalarCtx → State}
    (hi : i ≠ .mix)
    (h : ∀ x, s.scalar? c = some x → x.valid = true → ok = true → Executed s i (k x)) :
    Executed s i (withValidScalar s c (fun x => requireOperands s ok (k x))) := by
  rcases withValidScalar_cases s c (fun x => requireOperands s ok (k x)) with
    ⟨-, e⟩ | ⟨x, -, -, e⟩ | ⟨x, hx, hv, e⟩ <;> rw [e]
  · exact .rejected i _ hi (.inl rfl)
  · exact .rejected i _ hi (.inr (.inl rfl))
  · rcases requireOperands_cases s (k x) ok with ⟨-, e⟩ | ⟨ho, e⟩ <;> rw [e]
    · exact .rejected i _ hi (.inr (.inr rfl))
    · exact h x hx hv ho

/-- Whatever `exec` answers is one of those. -/
theorem exec_executed {i : Instr} {s t : State} (h : exec i s = .next t) : Executed s i t := by
  cases i with
  | mix => obtain rfl := Host.Outcome.next.inj h; exact .mix
  | init c =>
    obtain rfl := Host.Outcome.next.inj h
    rcases withScalar_cases s c (fun old =>
      if s.arg0 ≠ 0 then (s.setScalar c (seedScalar s.params s.arg0)).finish
      else initFromEntropy s c old) with ⟨-, e⟩ | ⟨x, hx, -⟩
    · rw [initEffect, e]; exact .rejected _ _ (by simp) (.inl rfl)
    · by_cases h0 : s.args.v0 = 0
      · rw [initEffect_entropy hx h0]
        rcases initFromEntropy_cases s c x with ⟨p, tr, hp, e⟩ | ⟨y, p, tr, hp, e⟩ <;> rw [e]
        · exact .initFails c x p tr hx h0 hp
        · exact .initEntropy c x y p tr hx h0 hp
      · rw [initEffect_seed hx h0]; exact .initSeed c x hx h0
  | next c =>
    obtain rfl := Host.Outcome.next.inj h
    rcases withValidScalar_cases s c (fun x => ((s.setScalar c x.advance).setRes 0 (x.out s.params)).finish)
      with ⟨-, e⟩ | ⟨x, -, -, e⟩ | ⟨x, hx, hv, -⟩
    · rw [nextEffect, e]; exact .rejected _ _ (by simp) (.inl rfl)
    · rw [nextEffect, e]; exact .rejected _ _ (by simp) (.inr (.inl rfl))
    · rw [nextEffect_valid hx hv]; exact .next c x hx hv
  | bounded c =>
    obtain rfl := Host.Outcome.next.inj h
    refine executed_scalar (by simp) fun x hx hv ho => ?_
    have hn := (boundedOK_iff s c).1 ho
    dsimp only
    split
    · next hl => exact .bounded c x _ _ _ hx hv hn hl
    · next hl => exact .boundedRuns c x _ hx hv hn hl
  | bias c =>
    obtain rfl := Host.Outcome.next.inj h
    exact executed_scalar (by simp) fun x hx hv ho => .bias c x _ hx hv ((validNM_iff _ _).1 ho)
  | binomial c =>
    obtain rfl := Host.Outcome.next.inj h
    exact executed_scalar (by simp) fun x hx hv ho => .binomial c x _ hx hv ((binomialOK_iff s c).1 ho)
  | debias =>
    obtain rfl := Host.Outcome.next.inj h
    by_cases hn : PreconditionFails s .debias
    · have : s.debiasOK = false := by rw [← Bool.not_eq_true, debiasOK_iff]; exact not_not.2 hn
      rw [debiasEffect, this]; exact .rejected _ _ (by simp) (.inr (.inr rfl))
    · rw [debiasEffect_ok hn]; dsimp only; split
      · next hb => exact .debiasFails _ hn hb
      · next hb => exact .debias _ hn (by simpa using hb)
  | autocorr =>
    obtain rfl := Host.Outcome.next.inj h
    by_cases hn : PreconditionFails s .autocorr
    · have : autocorrOK s.params s.args.v0 s.args.v1 s.args.v2 = false := by
        rw [← Bool.not_eq_true, autocorrOK_iff]; exact not_not.2 hn
      rw [autocorrEffect, State.arg0_eq, State.arg1_eq, State.arg2_eq, this]
      exact .rejected _ _ (by simp) (.inr (.inr rfl))
    · rw [autocorrEffect_ok hn]; dsimp only; split
      · next hb => exact .autocorrFails _ hn hb
      · next hb => exact .autocorr _ _ _ hn (by simpa using hb) rfl
  | vinit c =>
    obtain rfl := Host.Outcome.next.inj h
    show Executed s _ (vinitEffect c s)
    rcases withVector_cases s c (fun old =>
      if seedsNonzero s.args then (s.setVector c (seedVector s.params s.args)).finish
      else if seedsZero s.args then vinitFromEntropy s c old
      else s.raise .preconditionViolation) with ⟨-, e⟩ | ⟨x, hx, e⟩
    · rw [vinitEffect, e]; exact .rejected _ _ (by simp) (.inl rfl)
    · by_cases hnz : seedsNonzero s.args = true
      · have h := (seedsNonzero_iff _).1 hnz
        rw [vinitEffect_seeds hx h]; exact .vinitSeeds c x hx h
      · by_cases hz : seedsZero s.args = true
        · have h := (seedsZero_iff _).1 hz
          rw [vinitEffect_entropy hx h]
          rcases vinitFromEntropy_cases s c x with ⟨p, tr, hp, e⟩ | ⟨y, p, tr, hp, e⟩ <;> rw [e]
          · exact .vinitFails c x p tr hx h hp
          · exact .vinitEntropy c x y p tr hx h hp
        · rw [vinitEffect, e, if_neg hnz, if_neg hz]
          exact .rejected _ _ (by simp) (.inr (.inr rfl))
  | vnext c =>
    obtain rfl := Host.Outcome.next.inj h
    rcases withValidVector_cases s c (fun x =>
        ((s.setVector c (x.advance s.params)).setAllRes (x.out s.params)).finish)
      with ⟨-, e⟩ | ⟨x, -, -, e⟩ | ⟨x, hx, hv, -⟩
    · rw [vnextEffect, e]; exact .rejected _ _ (by simp) (.inl rfl)
    · rw [vnextEffect, e]; exact .rejected _ _ (by simp) (.inr (.inl rfl))
    · rw [vnextEffect_valid hx hv]; exact .vnext c x hx hv

end Sys2Proof.Machine
end

