-- ==== Sys2Proof/Laws/PerInstr.lean ====
section
/-! SUPPORT. Statements made of every command, one lemma for each constructor of Instr. -/

namespace Sys2Proof.Laws.EncodingFitsRow

/-- The command's word fits the opcode table's row of its mnemonic (R55). -/
def Statement (i : Instr) : Prop :=
  ∃ r ∈ opcodeRows, r.mnemonic = i.mnemonic ∧ encode i &&& r.mask = r.pattern

theorem mix : Statement .mix := ⟨opcodeRows[0], by decide, by decide, by decide⟩
theorem init (c : Ctx) : Statement (.init c) :=
  ⟨opcodeRows[1], by decide, rfl, by revert c; decide⟩
theorem next (c : Ctx) : Statement (.next c) :=
  ⟨opcodeRows[2], by decide, rfl, by revert c; decide⟩
theorem bounded (c : Ctx) : Statement (.bounded c) :=
  ⟨opcodeRows[3], by decide, rfl, by revert c; decide⟩
theorem bias (c : Ctx) : Statement (.bias c) :=
  ⟨opcodeRows[4], by decide, rfl, by revert c; decide⟩
theorem binomial (c : Ctx) : Statement (.binomial c) :=
  ⟨opcodeRows[5], by decide, rfl, by revert c; decide⟩
theorem debias : Statement .debias := ⟨opcodeRows[6], by decide, by decide, by decide⟩
theorem autocorr : Statement .autocorr := ⟨opcodeRows[7], by decide, by decide, by decide⟩
theorem vinit (c : Ctx) : Statement (.vinit c) :=
  ⟨opcodeRows[8], by decide, rfl, by revert c; decide⟩
theorem vnext (c : Ctx) : Statement (.vnext c) :=
  ⟨opcodeRows[9], by decide, rfl, by revert c; decide⟩

end Sys2Proof.Laws.EncodingFitsRow
end

