-- ==== Sys2Proof/Tests/Slice0.lean ====
section
/-! SUPPORT. Tests of the model, and for every obligation with hypotheses a concrete case that meets them.
Expected values come from 95_test_vectors.md (the table is named at each test) or from the encoding
rules; witnesses are named after their obligation. -/

open Sys2Proof Sys2Proof.Machine

namespace Sys2Proof.Tests

/-! ## States -/

/-- `s` with the four operand registers given. -/
def withArgs (s : State) (a0 a1 a2 a3 : Word64) : State := { s with args := ⟨a0, a1, a2, a3⟩ }

/-- One step that runs the command word `w`; `s` itself where the step stops. -/
def runWord (s : State) (w : Nat) : State :=
  match step (s.withFetchWord 32 w) with
  | .next t => t
  | .fault _ => s
  | .refused _ => s

/-- Scalar context 0 seeded with 42 (V-S1), the others as after reset. -/
def seeded : State :=
  { State.reset with
    sctx := ⟨0xA759EA27D4727622, 0x97EA87F7E45C00A5, true⟩ :: List.replicate 7 ScalarCtx.reset }

/-- Vector context 0 seeded with 1, 2, 3, 4 (V-V1), the other as after reset. -/
def laned : State :=
  { State.reset with
    vctx := [⟨⟨0x100B05E5, 0x3A2B148A, 0xE31428F0, 0x74562914⟩,
      ⟨0x0F363A7D, 0x6EA7FEA9, 0x3E74BEDB, 0xD47AAB91⟩, true⟩, VectorCtx.reset] }

/-- `s` with `CMD = w` accepted and the engine to move. -/
def issued (s : State) (w : Word32) : State := (s.accept w).pushTurn .engine

/-- The state after reset with words of host memory set. -/
def withWords (ws : List (Nat × Word64)) : State :=
  { State.reset with mem := ws.foldl (fun m p => writeWord m p.1 p.2) [] }

/-- The state after reset with entropy answers listed. -/
def withAnswers (l : List EntropyAnswer) : State := { State.reset with entropy := ⟨l, 0⟩ }

/-- `n` failed entropy attempts. -/
def fails (n : Nat) : List EntropyAnswer := List.replicate n ⟨false, 0⟩

/-- The state after reset with no memory at 0x1000 and up. -/
def withHole : State :=
  withArgs { State.reset with regions := [⟨0x1000, 8, .absent⟩] } 0x1000 14 0x2000 8

/-- The buffers of V-D1's rows: the source word at 0x1000, the destination word at 0x2000. -/
def debiasCase (n m dest : Word64) : State :=
  withArgs (withWords [(0x1000, 0x1AC6), (0x2000, dest)]) 0x1000 n 0x2000 m

/-- One source word at 0x1000, `n` bits, lag `k`. -/
def autocorrCase (w n k : Word64) : State := withArgs (withWords [(0x1000, w)]) 0x1000 n k 0

/-! ## Decoding, words written bit by bit from R53 and R55: RSV, CTX, OPC -/

theorem test_decode_mix : decode 0b0000000000000000_00000000_00000001 = .ok .mix := by decide
theorem test_decode_init : decode 0b0000000000000000_00000011_00000010 = .ok (.init 3) := by decide
theorem test_decode_next : decode 0b0000000000000000_00000111_00000011 = .ok (.next 7) := by decide
theorem test_decode_bounded : decode 0b0000000000000000_00000001_00000100 = .ok (.bounded 1) := by decide
theorem test_decode_bias : decode 0b0000000000000000_10000000_00000101 = .ok (.bias 128) := by decide
theorem test_decode_binomial : decode 0b0000000000000000_00000010_00000110 = .ok (.binomial 2) := by decide
theorem test_decode_debias : decode 0b0000000000000000_00000000_00000111 = .ok .debias := by decide
theorem test_decode_autocorr : decode 0b0000000000000000_00000000_00001000 = .ok .autocorr := by decide
theorem test_decode_vinit : decode 0b0000000000000000_00000001_00001001 = .ok (.vinit 1) := by decide
theorem test_decode_vnext : decode 0b0000000000000000_00000000_00001010 = .ok (.vnext 0) := by decide

/-- The table's numbering and a short word: the bits above `nbits` are 0. -/
theorem test_decodeTableWord_short : decodeTableWord 8 0x303 = some (.next 0) := by decide

/-! ## WellFormed refuses an ill-formed term of each kind (R57 (c), (d); NS = 8, NV = 2) -/

theorem test_wellFormed_refuses_init : (Instr.init 8).wellFormed 8 2 = false := by decide
theorem test_wellFormed_refuses_next : (Instr.next 8).wellFormed 8 2 = false := by decide
theorem test_wellFormed_refuses_bounded : (Instr.bounded 8).wellFormed 8 2 = false := by decide
theorem test_wellFormed_refuses_bias : (Instr.bias 255).wellFormed 8 2 = false := by decide
theorem test_wellFormed_refuses_binomial : (Instr.binomial 8).wellFormed 8 2 = false := by decide
theorem test_wellFormed_refuses_vinit : (Instr.vinit 2).wellFormed 8 2 = false := by decide
theorem test_wellFormed_refuses_vnext : (Instr.vnext 2).wellFormed 8 2 = false := by decide
theorem test_wellFormed_accepts_last : (Instr.next 7).wellFormed 8 2 = true ∧
    (Instr.vnext 1).wellFormed 8 2 = true ∧ Instr.mix.wellFormed 8 2 = true := by decide

/-! ## One step of each command -/

/-- V-M1, seed 42. -/
theorem test_mix : (runWord (withArgs .reset 42 0 0 0) 0x1).res.v0 = 0xA759EA27D4727622 := by decide

/-- V-S1, seed 42. -/
theorem test_init_seed : (runWord (withArgs .reset 42 0 0 0) 0x302).sctx[3]? =
    some ⟨0xA759EA27D4727622, 0x97EA87F7E45C00A5, true⟩ := by decide

/-- V-S1e, second row. -/
theorem test_init_entropy :
    let t := runWord (withAnswers (fails 3 ++ [⟨true, 0⟩, ⟨true, 0x1234⟩])) 0x2
    t.sctx[0]? = some ⟨0, 0x1235, true⟩ ∧ t.entropy.attempts = 5 := by decide

/-- V-S2, r1. -/
theorem test_next : let t := runWord seeded 0x3
    t.res.v0 = 0xC2D85BB11DF40D83 ∧ t.sctx[0]? = some ⟨0x3B9C4107DEDFA29F, 0x97EA87F7E45C00A5, true⟩ := by
  decide

/-- V-R1, fourth row: the first draw is rejected. -/
theorem test_bounded_rejects : let t := runWord (withArgs seeded 0 2 0 0) 0x4
    t.res.v0 = 1 ∧ t.sctx[0]? = some ⟨0x37021C4EDDE37798, 0x97EA87F7E45C00A5, true⟩ := by decide

/-- V-R1, ninth row: the top of the range. -/
theorem test_bounded_top : (runWord (withArgs seeded 0xFFFFFFFFFFFFFFFE 0xFFFFFFFFFFFFFFFF 0 0) 0x4).res.v0 =
    0xFFFFFFFFFFFFFFFF := by decide

/-- V-B1, fifth row. -/
theorem test_bias : let t := runWord (withArgs seeded 5 3 0 0) 0x5
    t.res.v0 = 0xD2ED8B1797FD2B37 ∧ t.sctx[0]? = some ⟨0x192C348679246E5D, 0x97EA87F7E45C00A5, true⟩ := by
  decide

/-- V-B1, the row that judges `m` on 64 bits. -/
theorem test_bias_wide_m : (runWord (withArgs seeded 1 0x100000040 0 0) 0x5).status.err =
    .preconditionViolation := by decide

/-- V-N1, sixth row: a full and a partial block. -/
theorem test_binomial : (runWord (withArgs seeded 100 32 8 0) 0x6).res.v0 = 10 := by decide

/-- V-D1, seventh row: emitted ones are ORed in. -/
theorem test_debias : let t := runWord (debiasCase 14 8 0xF0) 0x7
    t.res.v0 = 14 ∧ t.res.v1 = 5 ∧ readWord t.mem 0x2000 = 0xFD := by decide

/-- V-D1, second row: the pass stops at the full destination. -/
theorem test_debias_full : let t := runWord (debiasCase 14 3 0) 0x7
    t.res.v0 = 10 ∧ t.res.v1 = 3 ∧ readWord t.mem 0x2000 = 0x5 := by decide

/-- V-A1, `0x3`, 5, 1: one sixth. -/
theorem test_autocorr : (runWord (autocorrCase 0x3 5 1) 0x8).res.v0 = 0x3FC5555555555555 := by decide

/-- V-A1, `0xFF`, 8, 1: degenerate. -/
theorem test_autocorr_degenerate : let t := runWord (autocorrCase 0xFF 8 1) 0x8
    t.res.v0 = 0 ∧ statusWord t.status = 0x300 := by decide

/-- V-V1, first row. -/
theorem test_vinit : (runWord (withArgs .reset 1 2 3 4) 0x9).vctx[0]? = laned.vctx[0]? := by decide

/-- V-V1, second row: mixed seeds. -/
theorem test_vinit_mixed : let t := runWord (withArgs .reset 1 0 3 4) 0x9
    statusWord t.status = 0x200 ∧ t.vctx = State.reset.vctx ∧ t.entropy.attempts = 0 := by decide

/-- V-V2, first call. -/
theorem test_vnext : (runWord laned 0xA).res =
    ⟨0xEC5001D76AD77591, 0x877722C5AE279093, 0xCCA2EA94C0B9D5EF, 0x403BD5E157EC6F76⟩ := by decide

/-- V-S4 and section 8: STATUS after an invalid context, an illegal word and a missing context. -/
theorem test_status_words : statusWord (runWord .reset 0x3).status = 0x500 ∧
    statusWord (runWord .reset 0x10003).status = 0x400 ∧
    statusWord (runWord .reset 0x803).status = 0x400 := by decide

/-- R23: a write to CMD while BUSY is dropped and sets OVR. -/
theorem test_busy_write_overruns :
    (windowWrite (issued seeded 0x3) .w32 0 0x105).map (fun t => (t.cmd, statusWord t.status)) =
      some (0x3, 0x3) := by decide

/-- R38: the high half of a 64-bit register alone. -/
theorem test_half_write : (windowWrite (withArgs .reset 5 0 0 0) .w32 0x014 7).map (fun t => t.args.v0) =
    some 0x0000000700000005 := by decide

/-- R58: `mw64` and `mr64` at an address that is no multiple of 8 (R40: the least significant byte first). -/
theorem test_misaligned_host_word : ∃ t, hostStore .reset .w64 0x1003 0x8877665544332211 = .done t ∧
    readByte t.mem 0x1003 = 0x11 ∧ readByte t.mem 0x100A = 0x88 ∧
    hostLoad t .w64 0x1003 = .value 0x8877665544332211 t := by
  refine ⟨_, hostStore_ordinary _ (by decide) (by decide) (by decide), by decide, by decide, ?_⟩
  rw [hostLoad_ordinary (by decide) (by decide) (by decide) (by decide)]
  exact congrArg (Loaded.value · _) (by decide)

/-- R38: an access that starts below the window and reaches into it is refused (log 29). -/
theorem test_access_into_window_refused :
    hostStore .reset .w64 0xFFFFFFFFFFFEFFFC 0 = .refused ∧
    hostLoad .reset .w32 0xFFFFFFFFFFFEFFFE = .refused := by
  rw [hostStore, hostLoad, if_pos (by decide), if_neg (by decide), if_pos (by decide), if_neg (by decide)]
  exact ⟨rfl, rfl⟩

/-- R128: the destination of a running DEBIAS reads as a draw, also where its checks will refuse it (V-D2, odd n);
the byte after it does not. -/
theorem test_destination_busy_when_refused :
    let s := issued (withArgs .reset 0x1000 13 0x2000 8) 0x7
    destBusy s 0x2007 1 = true ∧ destBusy s 0x2008 1 = false ∧ s.debiasOK = false := by decide

/-- R57, R108, R123: `INIT c8` is illegal, so reset finds it with no entropy answer used. -/
theorem test_reset_of_illegal_init :
    (issued (withAnswers (fails 20)) 0x802).assertReset.entropy = ⟨fails 20, 0⟩ := by decide

/-! ## Witnesses: for each obligation with hypotheses, a case that meets them all -/

theorem witness_EncodeOfDecode : decode 0x00000703 = .ok (.next 7) := by decide

/-- The engine moves, `w` is accepted, reset is not asserted. -/
def Running (s : State) : Prop := s.nextTurn = .engine ∧ s.status.busy = true ∧ s.inReset = false

theorem running_issued (s : State) (w : Word32) (h : s.inReset = false) : Running (issued s w) :=
  ⟨rfl, rfl, h⟩

/-- Each case of R57, at the ends of its range. -/
theorem witness_IllegalWordReported :
    ∀ w ∈ [(0x00000000 : Word32), 0x0000000B, 0x000000FF, 0x00010001, 0x80000003, 0x00000802, 0x0000FF06,
      0x00000209, 0x0000FF0A, 0x00000101, 0x00000107, 0x0000FF08],
      Running (issued .reset w) ∧ IllegalWord (issued .reset w) (issued .reset w).cmd := by
  simp only [List.forall_mem_cons, List.not_mem_nil, false_imp_iff, implies_true, and_true]
  refine ⟨?_, ?_, ?_, ?_, ?_, ?_, ?_, ?_, ?_, ?_, ?_, ?_⟩ <;>
    exact ⟨running_issued _ _ rfl, by unfold IllegalWord; decide⟩

/-- Legal words at the ends of the ranges of R57. -/
theorem witness_LegalWordNotReportedIllegal :
    ∀ w ∈ [(0x00000001 : Word32), 0x00000702, 0x00000706, 0x00000109, 0x0000010A, 0x00000008],
      (Running (issued .reset w) ∧ (issued .reset w).status.err = .ok ∧
        ¬IllegalWord (issued .reset w) (issued .reset w).cmd) ∧
      ∃ t, step (issued .reset w) = .next t := by
  simp only [List.forall_mem_cons, List.not_mem_nil, false_imp_iff, implies_true, and_true]
  refine ⟨?_, ?_, ?_, ?_, ?_, ?_⟩ <;>
    exact ⟨⟨running_issued _ _ rfl, rfl, by unfold IllegalWord; decide⟩, _, rfl⟩

theorem witness_StepRunsDecodedCommand :
    Running (issued seeded 0x3) ∧ decode (issued seeded 0x3).cmd = .ok (.next 0) :=
  ⟨running_issued _ _ rfl, by decide⟩

theorem witness_IdleEngineDoesNothing :
    (State.reset.pushTurn .engine).nextTurn = .engine ∧ (State.reset.pushTurn .engine).status.busy = false ∧
    ({ issued seeded 0x3 with inReset := true }).nextTurn = .engine ∧
    ({ issued seeded 0x3 with inReset := true }).inReset = true := ⟨rfl, rfl, rfl, rfl⟩

theorem witness_ReleasedResetGivesTableValues :
    ({ seeded with inReset := true }.pushTurn .releaseReset).nextTurn = .releaseReset ∧
    ({ seeded with inReset := true }.pushTurn .releaseReset).inReset = true := ⟨rfl, rfl⟩

/-- A NEXT running, and a DEBIAS running on good operands. -/
theorem witness_AssertedResetEndsCommand :
    ((issued seeded 0x3).pushTurn .assertReset).nextTurn = .assertReset ∧
    ¬(((issued seeded 0x3).pushTurn .assertReset).status.busy = true ∧
      decode ((issued seeded 0x3).pushTurn .assertReset).cmd = .ok .debias ∧
      ¬PreconditionFails ((issued seeded 0x3).pushTurn .assertReset) .debias) ∧
    ((issued (debiasCase 14 8 0) 0x7).pushTurn .assertReset).nextTurn = .assertReset ∧
    decode ((issued (debiasCase 14 8 0) 0x7).pushTurn .assertReset).cmd = .ok .debias ∧
    ¬PreconditionFails ((issued (debiasCase 14 8 0) 0x7).pushTurn .assertReset) .debias := by
  refine ⟨rfl, ?_, rfl, by decide, ?_⟩
  · rintro ⟨-, h, -⟩; revert h; decide
  · simp only [PreconditionFails, BadBuffer]; decide

theorem witness_CmdWriteAccepted : seeded.status.busy = false ∧ seeded.inReset = false := ⟨rfl, rfl⟩

/-- Offsets at the ends of the window and of the forms R38 names, refused. -/
theorem witness_RefusedAccessesExactly :
    RefusedAccess .w64 0x000 ∧ RefusedAccess .w64 0x008 ∧ RefusedAccess .w64 0x014 ∧
    RefusedAccess .w32 0x0FE ∧ RefusedAccess .w8 0x0FF ∧ RefusedAccess .w16 0x000 ∧ 0x0FF < 256 := by decide

/-- And allowed. -/
theorem witness_RefusedAccessesExactly_allowed :
    ¬RefusedAccess .w32 0x000 ∧ ¬RefusedAccess .w64 0x010 ∧ ¬RefusedAccess .w64 0x0F8 ∧
    ¬RefusedAccess .w32 0x0FC ∧ seeded.inReset = false := by decide

/-- The first and the last offset of the window, at the reset base. -/
theorem witness_HostAccessReachesWindow :
    0 < 256 ∧ State.reset.params.mmioBase.toNat + 0 < 2 ^ 64 ∧
    255 < 256 ∧ State.reset.params.mmioBase.toNat + 255 < 2 ^ 64 := by decide

/-- A running command, and the first and the last half of the operand registers. -/
theorem witness_BusyAccesses :
    (issued seeded 0x3).status.busy = true ∧ (issued seeded 0x3).inReset = false ∧
    ¬RefusedAccess .w32 0x000 ∧ ¬RefusedAccess .w64 0x010 ∧ ¬RefusedAccess .w32 0x02C ∧
    ¬RefusedAccess .w64 0x030 ∧ ¬RefusedAccess .w32 0x04C := by decide

theorem witness_ArgHalvesWrittenAlone : seeded.status.busy = false ∧ seeded.inReset = false := ⟨rfl, rfl⟩

theorem witness_StatusReadAndClear : (issued seeded 0x3).inReset = false := rfl

theorem witness_ParamReadOnlyConstant :
    State.reset.inReset = false ∧ 1 ≤ State.reset.sctx.length ∧ State.reset.sctx.length ≤ 256 ∧
    1 ≤ State.reset.vctx.length ∧ State.reset.vctx.length ≤ 256 := by decide

/-- An idle engine; RES0, the last half of RES3, and the reserved offsets at their ends. -/
theorem witness_ResultsReadOnly :
    seeded.inReset = false ∧ seeded.status.busy = false ∧ ¬RefusedAccess .w64 0x030 ∧
    ¬RefusedAccess .w32 0x04C ∧ ¬RefusedAccess .w32 0x00C ∧ ¬RefusedAccess .w64 0x050 ∧
    ¬RefusedAccess .w32 0x0FC := by decide

theorem witness_WordsAreLittleEndian : (debiasCase 14 8 0xF0).mem.wf := by decide

/-- A host at position 0 of a program, to move. -/
def hosted (s : State) (prog : List HostInstr) : State := { s with host := ⟨prog, 0, [], false⟩, turns := [.host] }

/-- V-D1's buffers with a stale byte in the destination word, which was 0 before a store of 0xF0. -/
def staleCase : State := { debiasCase 14 8 0xF0 with stale := [⟨0x2000, [0xF0, 0]⟩] }

/-- A store of a half word across a word boundary of ordinary memory, made while a command runs; the host's
next step is no barrier. -/
theorem witness_StoresNeedBarrier :
    let s := hosted { issued seeded 0x3 with unfenced := [⟨0x1007, [5, 6]⟩] } [.li 0 (.imm 7)]
    (6 : Byte) ∈ staleValues s.unfenced 0x1007 ∧ (∃ t, step s = .next t) ∧
    s.host.prog[s.host.pos]? ≠ some .fence ∧
    s.mem.wf ∧ inWindow s.params 0x1007 = false ∧ deviceAt s.regions 0x1007 Width.w16.bytes = false ∧
    (∃ t, hostStore s .w16 0x1007 0xBEEF = .done t) ∧ s.status.busy = true :=
  ⟨by decide, ⟨_, rfl⟩, by decide, by decide, by decide, by decide,
    ⟨_, hostStore_ordinary _ (by decide) (by decide) (by decide)⟩, rfl⟩

/-- And a stale byte of a steady word, as a source and as the destination of a DEBIAS that completes. -/
theorem witness_StoresNeedBarrier_stale :
    unsteady staleCase (bitWord 0x2000 5) = false ∧ staleValues staleCase.stale (0x2000 + 5 / 8) = [0xF0, 0] ∧
    staleCase.mem.wf ∧ ¬PreconditionFails staleCase .debias ∧
    (debiasEffect staleCase).status.err = .ok ∧
    ∀ k, k < wordCount staleCase.args.v3.toNat → unsteady staleCase (staleCase.args.v2.toNat + 8 * k) = false := by
  refine ⟨by decide, by decide, by decide, ?_, by decide, by decide⟩
  simp only [PreconditionFails, BadBuffer]; decide

theorem witness_CommandEndsWithOneCode : ∃ t, exec (.bounded 0) (withArgs seeded 0 2 0 0) = .next t := ⟨_, rfl⟩

theorem witness_InvalidContextReported :
    State.reset.scalar? 7 = some ⟨0, 0, false⟩ ∧ State.reset.vector? 1 = some VectorCtx.reset ∧
    VectorCtx.reset.valid = false := by decide

theorem ready_seeded (a0 a1 a2 a3 : Word64) :
    ContextReady (withArgs seeded a0 a1 a2 a3) (.bounded 0) ∧
    ContextReady (withArgs seeded a0 a1 a2 a3) (.bias 0) ∧
    ContextReady (withArgs seeded a0 a1 a2 a3) (.binomial 0) ∧
    ContextReady (withArgs seeded a0 a1 a2 a3) (.vinit 0) ∧
    (withArgs seeded a0 a1 a2 a3).status.err = .ok :=
  ⟨⟨_, rfl, rfl⟩, ⟨_, rfl, rfl⟩, ⟨_, rfl, rfl⟩, ⟨_, rfl⟩, rfl⟩

/-- Each check of R109 for the commands on contexts, at the ends of its range, failing and passing
(rows of V-R1, V-B1, V-N1, V-V1). -/
theorem witness_PreconditionsExactly_contexts :
    PreconditionFails (withArgs seeded 5 5 0 0) (.bounded 0) ∧
    ¬PreconditionFails (withArgs seeded 5 6 0 0) (.bounded 0) ∧
    PreconditionFails (withArgs seeded 0 8 0 0) (.bias 0) ∧
    PreconditionFails (withArgs seeded 1 0 0 0) (.bias 0) ∧
    PreconditionFails (withArgs seeded 1 65 0 0) (.bias 0) ∧
    PreconditionFails (withArgs seeded 256 8 0 0) (.bias 0) ∧
    ¬PreconditionFails (withArgs seeded 255 8 0 0) (.bias 0) ∧
    ¬PreconditionFails (withArgs seeded 0xFFFFFFFFFFFFFFFF 64 0 0) (.bias 0) ∧
    PreconditionFails (withArgs seeded 0 1 1 0) (.binomial 0) ∧
    PreconditionFails (withArgs seeded 5 4 2 0) (.binomial 0) ∧
    ¬PreconditionFails (withArgs seeded 1 1 1 0) (.binomial 0) ∧
    PreconditionFails (withArgs seeded 1 0 3 4) (.vinit 0) ∧
    ¬PreconditionFails (withArgs seeded 1 2 3 4) (.vinit 0) ∧
    ¬PreconditionFails (withArgs seeded 0 0 0 0) (.vinit 0) := by
  simp only [PreconditionFails, BadNM]; decide

/-- Each check of DEBIAS (rows of V-D2). -/
theorem witness_PreconditionsExactly_debias :
    ∀ a ∈ [((0x1000, 13, 0x2000, 8) : Word64 × Word64 × Word64 × Word64), (0x1000, 0, 0x2000, 8),
        (0x1000, 14, 0x2000, 0), (0x1004, 14, 0x2000, 8), (0x1000, 14, 0x2004, 8), (0x1000, 14, 0x1000, 8),
        (0x1000, 128, 0x1008, 8), (0xFFFFFFFFFFFFFFF8, 128, 0x2000, 8)],
      PreconditionFails (withArgs .reset a.1 a.2.1 a.2.2.1 a.2.2.2) .debias := by
  simp only [List.forall_mem_cons, List.not_mem_nil, false_imp_iff, implies_true, and_true]
  refine ⟨?_, ?_, ?_, ?_, ?_, ?_, ?_, ?_⟩ <;> · unfold PreconditionFails BadBuffer; decide

/-- Buffers that end at the top of the space or touch pass; the checks of AUTOCORR (rows of V-A2). -/
theorem witness_PreconditionsExactly_buffers :
    ¬PreconditionFails (withArgs .reset 0xFFFFFFFFFFFFFFF8 2 0x2000 8) .debias ∧
    ¬PreconditionFails (withArgs .reset 0x1000 64 0x1008 8) .debias ∧
    PreconditionFails (withArgs .reset 0x1000 4 4 0) .autocorr ∧
    PreconditionFails (withArgs .reset 0x1000 0 0 0) .autocorr ∧
    PreconditionFails (withArgs .reset 0x1004 4 1 0) .autocorr ∧
    ¬PreconditionFails (withArgs .reset 0x1000 4 3 0) .autocorr ∧
    ContextReady State.reset .debias ∧ ContextReady State.reset .autocorr := by
  refine ⟨?_, ?_, ?_, ?_, ?_, ?_, trivial, trivial⟩ <;> · unfold PreconditionFails BadBuffer; decide

/-- A case of each error whose side effects are stated, but INTERNAL_CONSISTENCY, which no steady source
reaches (R94). -/
theorem witness_ErrorSideEffects :
    State.reset.status.err = .ok ∧
    (nextEffect 8 .reset).status.err = .illegalCommand ∧
    (nextEffect 0 .reset).status.err = .contextInvalid ∧
    (biasEffect 0 (withArgs seeded 0 8 0 0)).status.err = .preconditionViolation ∧
    (initEffect 0 (withAnswers (fails 10))).status.err = .entropyUnavailable ∧
    (vinitEffect 0 (withAnswers (fails 10))).status.err = .entropyUnavailable ∧
    (debiasEffect withHole).status.err = .busError ∧
    (autocorrEffect (withArgs withHole 0x1000 14 1 0)).status.err = .busError ∧
    (autocorrEffect (autocorrCase 0xFF 8 1)).status.err = .degenerateAutocorrelation := by decide

theorem witness_OnlyBufferCommandsUseMemory :
    Instr.next 0 ≠ .debias ∧ Instr.next 0 ≠ .autocorr ∧ ∃ t, exec (.next 0) seeded = .next t :=
  ⟨by decide, by decide, _, rfl⟩

theorem witness_ContextsWrittenOnlyByTheirCommands :
    (∃ t, exec (.binomial 0) (withArgs seeded 65 1 1 0) = .next t) ∧
    ∃ t, hostTurn { seeded with host := ⟨[.fence], 0, [], false⟩ } = .next t := ⟨⟨_, rfl⟩, _, rfl⟩

/-- Two states that differ in an invalid scalar and an invalid vector context. -/
theorem witness_InvalidContextsUnobservable :
    State.Similar { State.reset with sctx := [⟨1, 2, true⟩, ⟨3, 4, false⟩] }
      { State.reset with
        sctx := [⟨1, 2, true⟩, ⟨5, 6, false⟩]
        vctx := [⟨Quad.all 1, Quad.all 2, false⟩, VectorCtx.reset] } := by
  refine ⟨rfl, ?_, ?_⟩
  · exact .cons ⟨rfl, fun _ => rfl⟩ (.cons ⟨rfl, fun h => absurd h (by decide)⟩ .nil)
  · exact .cons ⟨rfl, fun h => absurd h (by decide)⟩ (.cons ⟨rfl, fun _ => rfl⟩ .nil)

theorem witness_EntropyAttemptsBounded : ∃ t, exec (.init 0) (withAnswers (fails 20)) = .next t := ⟨_, rfl⟩

theorem witness_InitFromSeed : seeded.scalar? 7 = some ScalarCtx.reset ∧
    (withArgs seeded 42 0 0 0).args.v0 ≠ 0 := by decide

/-- The fifth row of V-S1e: nine failures before each success. -/
theorem witness_InitFromEntropy :
    let s := withAnswers (drawScript [(fails 9, 7), (fails 9, 2)] ++ [⟨true, 1⟩])
    s.scalar? 0 = some ScalarCtx.reset ∧ s.args.v0 = 0 ∧ WithinAttempts [(fails 9, 7), (fails 9, 2)] ∧
    s.entropy.answers = drawScript [(fails 9, 7), (fails 9, 2)] ++ [⟨true, 1⟩] :=
  ⟨by decide, by decide, by unfold WithinAttempts AllFail; decide, rfl⟩

/-- The fourth row of V-S1e: the second draw fails; and the third: the first does. -/
theorem witness_InitEntropyFailure :
    let s := withAnswers (drawScript [([], 7)] ++ fails 10 ++ [])
    s.scalar? 0 = some ScalarCtx.reset ∧ s.args.v0 = 0 ∧ [(([] : List EntropyAnswer), (7 : Word64))].length < 2 ∧
    WithinAttempts [([], 7)] ∧ AllFail (fails 10) ∧ (fails 10).length = 10 ∧
    s.entropy.answers = drawScript [([], 7)] ++ fails 10 ++ [] ∧
    (withAnswers (drawScript [] ++ fails 10 ++ [])).entropy.answers = drawScript [] ++ fails 10 ++ [] ∧
    WithinAttempts [] :=
  ⟨by decide, by decide, by decide, by unfold WithinAttempts AllFail; decide, by unfold AllFail; decide,
    by decide, rfl, rfl, by unfold WithinAttempts; simp⟩

theorem witness_NextDrawsOnce :
    seeded.scalar? 0 = some ⟨0xA759EA27D4727622, 0x97EA87F7E45C00A5, true⟩ := by decide

/-- The states of a run that initialises scalar context `c` and then draws. -/
def nextTrace (s : State) (c : Ctx) : Nat → State
  | 0 => initEffect c s
  | k + 1 => nextEffect c (nextTrace s c k)

theorem witness_SameSeedSameSequence :
    let s := withArgs .reset 42 0 0 0
    s.params = seeded.params ∧ s.args.v0 = (withArgs seeded 42 0 0 0).args.v0 ∧ s.args.v0 ≠ 0 ∧
    (0 : Ctx).toNat < s.sctx.length ∧ (7 : Ctx).toNat < (withArgs seeded 42 0 0 0).sctx.length ∧
    exec (.init 0) s = .next (nextTrace s 0 0) ∧
    exec (.init 7) (withArgs seeded 42 0 0 0) = .next (nextTrace (withArgs seeded 42 0 0 0) 7 0) ∧
    (∀ k, exec (.next 0) (nextTrace s 0 k) = .next (nextTrace s 0 (k + 1))) ∧
    ∀ k, exec (.next 7) (nextTrace (withArgs seeded 42 0 0 0) 7 k) =
      .next (nextTrace (withArgs seeded 42 0 0 0) 7 (k + 1)) :=
  ⟨rfl, rfl, by decide, by decide, by decide, rfl, rfl, fun _ => rfl, fun _ => rfl⟩

theorem witness_VinitFromSeeds : State.reset.vector? 1 = some VectorCtx.reset ∧
    ∀ l, (withArgs .reset 1 2 3 4).args.get l ≠ 0 := by decide

/-- The eight draws of V-V1's third row, the last after nine failures. -/
def laneDraws : List (List EntropyAnswer × Word64) :=
  [([], 0x1111111100000001), ([], 0x1111111100000002), ([], 0x1111111100000003), ([], 0x1111111100000004),
   ([], 0x1111111100000005), ([], 0x1111111100000006), ([], 0x1111111100000007),
   (fails 9, 0x1111111100000008)]

theorem witness_VinitFromEntropy :
    let s := withAnswers (drawScript laneDraws ++ [])
    s.vector? 0 = some VectorCtx.reset ∧ s.args = Quad.all 0 ∧ WithinAttempts laneDraws ∧
    s.entropy.answers = drawScript laneDraws ++ [] ∧ laneDraws.length = 8 :=
  ⟨by decide, by decide, by unfold WithinAttempts AllFail; decide, rfl, rfl⟩

/-- V-V1's fourth row, and the last draw that can fail. -/
theorem witness_VinitEntropyFailure :
    let s := withAnswers (drawScript [([], 5), ([], 5), ([], 5)] ++ fails 10 ++ [])
    s.vector? 0 = some VectorCtx.reset ∧ s.args = Quad.all 0 ∧
    [(([] : List EntropyAnswer), (5 : Word64)), ([], 5), ([], 5)].length < 8 ∧
    WithinAttempts [([], 5), ([], 5), ([], 5)] ∧ AllFail (fails 10) ∧ (fails 10).length = 10 ∧
    s.entropy.answers = drawScript [([], 5), ([], 5), ([], 5)] ++ fails 10 ++ [] ∧
    (laneDraws.take 7).length < 8 ∧ WithinAttempts (laneDraws.take 7) :=
  ⟨by decide, by decide, by decide, by unfold WithinAttempts AllFail; decide, by unfold AllFail; decide,
    by decide, rfl, by decide, by unfold WithinAttempts AllFail; decide⟩

theorem witness_VnextDrawsTwicePerLane : ∃ x, laned.vector? 0 = some x ∧ x.valid = true := ⟨_, rfl, rfl⟩

/-- The states of a run that initialises vector context `c` and then draws. -/
def vnextTrace (s : State) (c : Ctx) : Nat → State
  | 0 => vinitEffect c s
  | k + 1 => vnextEffect c (vnextTrace s c k)

theorem witness_LanesEqualReferenceGenerator :
    let s := withArgs .reset 1 2 3 4
    (1 : Ctx).toNat < s.vctx.length ∧ (∀ l, s.args.get l ≠ 0) ∧
    exec (.vinit 1) s = .next (vnextTrace s 1 0) ∧
    ∀ k, exec (.vnext 1) (vnextTrace s 1 k) = .next (vnextTrace s 1 (k + 1)) :=
  ⟨by decide, by decide, rfl, fun _ => rfl⟩

/-- The shortest and the longest program of BIAS (V-B1). -/
theorem witness_BiasIsColumnChain :
    (∃ x, (withArgs seeded 1 1 0 0).scalar? 0 = some x ∧ x.valid = true) ∧
    ¬BadNM (withArgs seeded 1 1 0 0).args.v0 (withArgs seeded 1 1 0 0).args.v1 ∧
    ¬BadNM (withArgs seeded 0xFFFFFFFFFFFFFFFF 64 0 0).args.v0
      (withArgs seeded 0xFFFFFFFFFFFFFFFF 64 0 0).args.v1 :=
  ⟨⟨_, rfl, rfl⟩, by unfold BadNM; decide, by unfold BadNM; decide⟩

theorem witness_BiasDoubledProbabilitySame :
    (∃ x, (withArgs seeded 1 63 0 0).scalar? 0 = some x ∧ x.valid = true) ∧
    ¬BadNM (withArgs seeded 1 63 0 0).args.v0 (withArgs seeded 1 63 0 0).args.v1 ∧
    (withArgs seeded 1 63 0 0).args.v1.toNat < 64 :=
  ⟨⟨_, rfl, rfl⟩, by unfold BadNM; decide, by decide⟩

/-- The smallest and the largest span. -/
theorem witness_MaskIsSmallestAllOnes : (0xFFFFFFFFFFFFFFFE : Word64).toNat < (0xFFFFFFFFFFFFFFFF : Word64).toNat ∧
    (0 : Word64).toNat < (0xFFFFFFFFFFFFFFFF : Word64).toNat := by decide

/-- V-R1's fourth row: draw 0 is rejected, draw 1 accepted. -/
theorem witness_BoundedReturnsFirstAccepted :
    let x : ScalarCtx := ⟨0xA759EA27D4727622, 0x97EA87F7E45C00A5, true⟩
    let s := withArgs seeded 0 2 0 0
    s.scalar? 0 = some x ∧ x.valid = true ∧ s.args.v0.toNat < s.args.v1.toNat ∧
    (maskedDraw s.params x (maskOf (s.args.v1 - s.args.v0)) 1).toNat ≤ (s.args.v1 - s.args.v0).toNat ∧
    ∀ i, i < 1 →
      ¬(maskedDraw s.params x (maskOf (s.args.v1 - s.args.v0)) i).toNat ≤ (s.args.v1 - s.args.v0).toNat := by
  decide

/-- A context that stands still: its increment undoes the multiplication, and its masked draw is 3. -/
def still : ScalarCtx := ⟨11, 11 - mult64 * 11, true⟩

theorem still_advance : still.advance = still := by decide

/-- No draw of that context is accepted for the range 0 to 2. -/
theorem witness_BoundedMayNeverComplete :
    let s := withArgs { State.reset with sctx := [still] } 0 2 0 0
    s.scalar? 0 = some still ∧ still.valid = true ∧ s.args.v0.toNat < s.args.v1.toNat ∧
    ∀ i, ¬(maskedDraw s.params still (maskOf (s.args.v1 - s.args.v0)) i).toNat
      ≤ (s.args.v1 - s.args.v0).toNat := by
  refine ⟨rfl, rfl, by decide, fun i => ?_⟩
  have h : advanceBy i still = still := Function.iterate_fixed still_advance i
  rw [maskedDraw, drawWord, h]
  decide

theorem witness_BoundedCompletesForReference :
    let x : ScalarCtx := ⟨0xA759EA27D4727622, 0x97EA87F7E45C00A5, true⟩
    let s := withArgs seeded 0 0x8000000000000000 0 0
    s.params.perm64 = .reference ∧ s.scalar? 0 = some x ∧ x.valid = true ∧ x.inc.getLsbD 0 = true ∧
    s.args.v0.toNat < s.args.v1.toNat := by decide

theorem witness_BoundedResultInRange :
    let s := (withArgs seeded 10 20 0 0).accept 0x4
    s.status.busy = true ∧ exec (.bounded 0) s = .next (boundedEffect 0 s) ∧
    (boundedEffect 0 s).status.busy = false ∧ (boundedEffect 0 s).status.err = .ok :=
  ⟨rfl, rfl, by decide, by decide⟩

/-- Only a partial block, and a full block exactly (V-N1). -/
theorem witness_BinomialCountsTrials :
    (∃ x, (withArgs seeded 63 1 1 0).scalar? 0 = some x ∧ x.valid = true) ∧
    ¬PreconditionFails (withArgs seeded 63 1 1 0) (.binomial 0) ∧
    ¬PreconditionFails (withArgs seeded 64 1 64 0) (.binomial 0) := by
  refine ⟨⟨_, rfl, rfl⟩, ?_, ?_⟩ <;> · simp only [PreconditionFails, BadNM]; decide

theorem witness_BinomialAtMostTrials :
    exec (.binomial 0) (withArgs seeded 65 1 1 0) = .next (binomialEffect 0 (withArgs seeded 65 1 1 0)) ∧
    (binomialEffect 0 (withArgs seeded 65 1 1 0)).status.err = .ok := ⟨rfl, by decide⟩

/-- Buffers of ordinary memory that answers, and the operands pass. -/
theorem witness_DebiasPassResult :
    let s := debiasCase 14 8 0xF0
    s.mem.wf ∧ ¬PreconditionFails s .debias ∧ SteadyBuffer s s.args.v0.toNat s.args.v1.toNat ∧
    SteadyBuffer s s.args.v2.toNat s.args.v3.toNat ∧
    ReadableBuffer s s.args.v0.toNat s.args.v1.toNat ∧
    ErrorFreeBuffer s s.args.v2.toNat s.args.v3.toNat := by
  simp only [PreconditionFails, BadBuffer, SteadyBuffer, ReadableBuffer, ErrorFreeBuffer]; decide

/-- `s` with the source word at 0x1000 in memory that denies the engine writes. -/
def writeDeniedSource (s : State) : State := { s with regions := [⟨0x1000, 8, .writeDenied⟩] }

/-- The same with a source that the engine may only read. -/
theorem witness_DebiasPassResult_writeDenied :
    let s := writeDeniedSource (debiasCase 14 8 0xF0)
    ¬PreconditionFails s .debias ∧ ReadableBuffer s s.args.v0.toNat s.args.v1.toNat ∧
    ¬ErrorFreeBuffer s s.args.v0.toNat s.args.v1.toNat ∧
    ErrorFreeBuffer s s.args.v2.toNat s.args.v3.toNat := by
  simp only [PreconditionFails, BadBuffer, ReadableBuffer, ErrorFreeBuffer]; decide

theorem witness_DebiasBookkeeping :
    ¬PreconditionFails (debiasCase 14 3 0) .debias ∧ ¬PreconditionFails withHole .debias := by
  simp only [PreconditionFails, BadBuffer]; decide

/-- `s` with one region of eight bytes. -/
def withRegion (s : State) (base : Nat) (kind : RegionKind) : State := { s with regions := [⟨base, 8, kind⟩] }

/-- The first source word errs, and a later one that AUTOCORR comes to. -/
theorem witness_BusErrorReported :
    readErrs withHole.regions withHole.args.v0.toNat 8 = true ∧ ¬PreconditionFails withHole .debias ∧
    (∀ a ∈ [(0x1000 : Nat), 0x1008],
      let s := withRegion (withArgs .reset 0x1000 65 1 0) a .denied
      ¬PreconditionFails s .autocorr ∧ readErrs s.regions s.args.v0.toNat (8 * wordCount s.args.v1.toNat) = true) := by
  simp only [PreconditionFails, BadBuffer]; decide

/-- What the second clause for DEBIAS asks of a state before its pair `p`. -/
def SteadyAt (s : State) (p : Nat) : Prop :=
  ¬PreconditionFails s .debias ∧ s.mem.wf ∧ SteadyBuffer s s.args.v0.toNat s.args.v1.toNat ∧
    SteadyBuffer s s.args.v2.toNat s.args.v3.toNat ∧ 2 * p < s.args.v1.toNat ∧
    (emittedBits (bitRead s.mem s.args.v0.toNat) p).length < s.args.v3.toNat

/-- A later source word, at pair 32, after 32 pairs of zeros. -/
theorem witness_BusErrorReported_laterWord :
    let s := withRegion (withArgs .reset 0x1000 66 0x2000 1) 0x1008 .absent
    SteadyAt s 32 ∧ readErrs s.regions (bitWord s.args.v0.toNat (2 * 32)) 8 = true := by
  unfold SteadyAt PreconditionFails BadBuffer SteadyBuffer; decide

/-- A destination word that the first pair, `01`, sets a bit of: denied, and denied to writes alone. -/
theorem witness_BusErrorReported_destination :
    let s := withRegion (debiasCase 14 8 0xF0) 0x2000 .denied
    let t := withRegion (debiasCase 14 8 0xF0) 0x2000 .writeDenied
    SteadyAt s 0 ∧ SteadyAt t 0 ∧ bitRead s.mem 0x1000 0 = false ∧ bitRead s.mem 0x1000 1 = true ∧
    (emittedBits (bitRead s.mem 0x1000) 0).length = 0 ∧ readErrs s.regions (bitWord 0x2000 0) 8 = true ∧
    readErrs t.regions (bitWord 0x2000 0) 8 = false ∧ writeErrs t.regions (bitWord 0x2000 0) 8 = true ∧
    bitRead t.mem 0x2000 0 = false := by
  unfold SteadyAt PreconditionFails BadBuffer SteadyBuffer; decide

/-- The source `w`, `n` bits with lag `k`, passes the checks, is ordinary memory and is readable. -/
def PlainSource (w n k : Word64) : Prop :=
  ¬PreconditionFails (autocorrCase w n k) .autocorr ∧ SteadyBuffer (autocorrCase w n k) 0x1000 n.toNat ∧
    ReadableBuffer (autocorrCase w n k) 0x1000 n.toNat

/-- An ordinary source, one of all zeros and one of all ones (V-A1). -/
theorem witness_AutocorrResult :
    (PlainSource 0x3 8 1 ∧ oneCount (bitRead (autocorrCase 0x3 8 1).mem 0x1000) 8 = 2) ∧
    (PlainSource 0x00 8 1 ∧ oneCount (bitRead (autocorrCase 0x00 8 1).mem 0x1000) 8 = 0) ∧
    (PlainSource 0xFF 8 1 ∧ oneCount (bitRead (autocorrCase 0xFF 8 1).mem 0x1000) 8 = 8) := by
  refine ⟨⟨?_, by decide⟩, ⟨?_, by decide⟩, ⟨?_, by decide⟩⟩ <;>
    · unfold PlainSource PreconditionFails BadBuffer SteadyBuffer ReadableBuffer; decide

/-- And a source that the engine may only read. -/
theorem witness_AutocorrResult_writeDenied :
    let s := writeDeniedSource (autocorrCase 0x3 8 1)
    ¬PreconditionFails s .autocorr ∧ SteadyBuffer s 0x1000 8 ∧ ReadableBuffer s 0x1000 8 ∧
    ¬ErrorFreeBuffer s 0x1000 8 := by
  simp only [PreconditionFails, BadBuffer, SteadyBuffer, ReadableBuffer, ErrorFreeBuffer]; decide

theorem witness_InternalConsistencyUnreachable :
    (autocorrCase 0x3 8 1).status.err = .ok ∧ SteadyBuffer (autocorrCase 0x3 8 1) 0x1000 8 ∧
    ∃ t, exec .autocorr (autocorrCase 0x3 8 1) = .next t :=
  ⟨rfl, by unfold SteadyBuffer; decide, _, rfl⟩

theorem witness_AutocorrLagSymmetry :
    ¬PreconditionFails (autocorrCase 0x3 5 4) .autocorr ∧ SteadyBuffer (autocorrCase 0x3 5 4) 0x1000 5 ∧
    (autocorrCase 0x3 5 4).args.v2 ≠ 0 := by
  simp only [PreconditionFails, BadBuffer, SteadyBuffer]; decide

/-- The pattern of S5 for `n = 8`, an odd and an even lag. -/
theorem witness_AutocorrOfAlternatingPattern :
    PlainSource 0x55 8 0 ∧ PlainSource 0x55 8 7 ∧
    (∀ i, i < 8 → bitRead (autocorrCase 0x55 8 0).mem 0x1000 i = decide (i % 2 = 0)) ∧
    (autocorrCase 0x55 8 0).args.v1.toNat % 2 = 0 := by
  refine ⟨?_, ?_, by decide, by decide⟩ <;>
    · unfold PlainSource PreconditionFails BadBuffer SteadyBuffer ReadableBuffer; decide

/-- Ordinary quotients, the two ends of the range, zero, and a quotient half way between two values. -/
theorem witness_RoundsToNearestEven :
    (0 < 3 ∧ (-2 : Int).natAbs ≤ 3) ∧ (0 < 1 ∧ (1 : Int).natAbs ≤ 1) ∧ (0 < 1 ∧ (-1 : Int).natAbs ≤ 1) ∧
    (0 < 7 ∧ (0 : Int).natAbs ≤ 7) ∧ (0 < 2 ^ 54 ∧ (2 ^ 53 + 1 : Int).natAbs ≤ 2 ^ 54) ∧
    rne64 (2 ^ 53 + 1) (2 ^ 54) = 0x3FE0000000000000 := by decide

theorem value64_half : value64 0x3FE0000000000000 = 1 / 2 := by
  rw [value64, show ((0x3FE0000000000000 : Word64).extractLsb' 52 11).toNat = 1022 by decide,
    show ((0x3FE0000000000000 : Word64).extractLsb' 0 52).toNat = 0 by decide,
    show (0x3FE0000000000000 : Word64).getLsbD 63 = false by decide,
    show (2 : Rat) ^ 1075 = 2 ^ 1022 * 2 ^ 53 by rw [← pow_add]]
  field_simp
  norm_num

theorem value64_half_next : value64 0x3FE0000000000001 = 1 / 2 + 1 / 2 ^ 53 := by
  rw [value64, show ((0x3FE0000000000001 : Word64).extractLsb' 52 11).toNat = 1022 by decide,
    show ((0x3FE0000000000001 : Word64).extractLsb' 0 52).toNat = 1 by decide,
    show (0x3FE0000000000001 : Word64).getLsbD 63 = false by decide,
    show (2 : Rat) ^ 1075 = 2 ^ 1022 * 2 ^ 53 by rw [← pow_add]]
  field_simp
  norm_num

/-- The two neighbours of that quotient are equally near, and differ. -/
theorem witness_RoundsToNearestEven_tie :
    finite64 0x3FE0000000000001 = true ∧
    |value64 0x3FE0000000000001 - (((2 ^ 53 + 1 : Int) : Rat) / ((2 ^ 54 : Nat) : Rat))| =
      |value64 0x3FE0000000000000 - (((2 ^ 53 + 1 : Int) : Rat) / ((2 ^ 54 : Nat) : Rat))| ∧
    value64 0x3FE0000000000001 ≠ value64 0x3FE0000000000000 := by
  rw [value64_half, value64_half_next]
  exact ⟨by decide, by norm_num, by norm_num⟩

/-- Words with the lowest and with the highest bit alone set. -/
theorem witness_BitCountsAreRight : (1 : Word64) ≠ 0 ∧ (0x8000000000000000 : Word64) ≠ 0 := by decide

/-- Reset finds an INIT on its entropy path, an illegal one, and an idle engine. -/
theorem witness_AbortedCommandEntropyUse :
    let s := (issued (withAnswers (fails 20)) 0x2).pushTurn .assertReset
    let t := (issued (withAnswers (fails 20)) 0x802).pushTurn .assertReset
    s.nextTurn = .assertReset ∧ s.status.busy = true ∧ decode s.cmd = .ok (.init 0) ∧
    (∃ u, exec (.init 0) s = .next u ∧ u.entropy.attempts = 10) ∧
    t.nextTurn = .assertReset ∧ IllegalWord t t.cmd ∧
    (State.reset.pushTurn .assertReset).nextTurn = .assertReset ∧
    (State.reset.pushTurn .assertReset).status.busy = false :=
  ⟨rfl, rfl, by decide, ⟨_, rfl, by decide⟩, rfl, by unfold IllegalWord; decide, rfl, rfl⟩

theorem inv_reset : State.reset.Inv where
  scalarCount := by decide
  vectorCount := by decide
  paramsInRange := by decide
  scalarOdd := by decide
  vectorOdd := by decide
  memCanonical := by decide
  memInSpace := by decide
  busyErrOk := by decide
  idleNoTransient := by decide
  resetIdle := by decide

/-- A DEBIAS that is about to run, from a state that meets the invariant. -/
theorem witness_StepKeepsInvariant :
    (issued (debiasCase 14 8 0xF0) 0x7).Inv ∧ ∃ t, step (issued (debiasCase 14 8 0xF0) 0x7) = .next t :=
  ⟨⟨by decide, by decide, by decide, by decide, by decide, by decide, by decide, by decide, by decide,
    by decide⟩, _, rfl⟩

end Sys2Proof.Tests
end

section
/-! PROOFS. The bit counts of 00_scope.md R14: `ctz` is a first index, `bitlen` a binary logarithm, and each
count is pinned by the bits of its word. -/

namespace Sys2Proof.Machine

/-! ## Number of set bits -/

theorem popcount_eq_setBits (v : Word64) : popcount v = setBits v := by
  have hcard := List.nodup_range (n := 64) |>.card_eq_countP (P := fun i => v.getLsbD i = true)
  simpa [popcount, setBits, List.toFinset_range] using hcard.symm

/-! ## Lowest set bit -/

theorem exists_getLsbD_of_ne_zero {v : Word64} (hv : v ≠ 0) : ∃ i < 64, v.getLsbD i = true := by
  by_contra! hnone
  exact hv (BitVec.eq_of_getLsbD_eq fun i hi => by simpa using hnone i hi)

/-- The zeros `ctz` counts end at the first set bit. -/
theorem ctz_eq_findIdx (v : Word64) : ctz v = (List.range 64).findIdx v.getLsbD := by
  have hle := List.findIdx_le_length (p := v.getLsbD) (xs := List.range 64)
  simpa [ctz, List.takeWhile_eq_take_findIdx_not] using hle

theorem ctz_lt {v : Word64} (hv : v ≠ 0) : ctz v < 64 := by
  obtain ⟨i, hi, hbit⟩ := exists_getLsbD_of_ne_zero hv
  have hlt := List.findIdx_lt_length_of_exists ⟨i, List.mem_range.mpr hi, hbit⟩
  simpa [ctz_eq_findIdx] using hlt

theorem getLsbD_ctz {v : Word64} (hv : v ≠ 0) : v.getLsbD (ctz v) = true := by
  have hlt : (List.range 64).findIdx v.getLsbD < (List.range 64).length := by
    simpa [ctz_eq_findIdx] using ctz_lt hv
  simpa [ctz_eq_findIdx] using List.findIdx_getElem (w := hlt)

theorem getLsbD_of_lt_ctz {v : Word64} {i : Nat} (hi : i < ctz v) : v.getLsbD i = false := by
  rw [ctz_eq_findIdx] at hi
  simpa using List.not_of_lt_findIdx hi

/-! ## Highest set bit -/

theorem bitlen_of_ne_zero {v : Word64} (hv : v ≠ 0) : bitlen v = Nat.log2 v.toNat + 1 := if_neg hv

theorem toNat_lt_two_pow_bitlen (v : Word64) : v.toNat < 2 ^ bitlen v := by
  by_cases hv : v = 0
  · subst hv; decide
  · rw [bitlen_of_ne_zero hv]; exact Nat.lt_log2_self

theorem bitlen_le {v : Word64} (hv : v ≠ 0) : bitlen v ≤ 64 := by
  rw [bitlen_of_ne_zero hv]
  exact (Nat.log2_lt (BitVec.toNat_ne_iff_ne.mpr hv)).mpr v.isLt

theorem getLsbD_bitlen_sub_one {v : Word64} (hv : v ≠ 0) : v.getLsbD (bitlen v - 1) = true := by
  rw [bitlen_of_ne_zero hv, Nat.add_sub_cancel, ← BitVec.testBit_toNat]
  exact Nat.testBit_log2 (BitVec.toNat_ne_iff_ne.mpr hv)

theorem getLsbD_of_bitlen_le {v : Word64} {i : Nat} (hi : bitlen v ≤ i) : v.getLsbD i = false := by
  rw [← BitVec.testBit_toNat]
  exact Nat.testBit_lt_two_pow ((toNat_lt_two_pow_bitlen v).trans_le (Nat.pow_le_pow_right two_pos hi))

/-- Settles O59: `ctz` is the first index of a set bit, and `bitlen` the binary logarithm plus one. -/
theorem bitCountsAreRight : Obligations.BitCountsAreRight := by
  intro v
  refine ⟨popcount_eq_setBits v, fun hv => ⟨⟨ctz_lt hv, getLsbD_ctz hv, fun _ => getLsbD_of_lt_ctz⟩, ?_⟩⟩
  have hpos : 1 ≤ bitlen v := by rw [bitlen_of_ne_zero hv]; exact Nat.le_add_left 1 _
  exact ⟨hpos, bitlen_le hv, getLsbD_bitlen_sub_one hv, fun _ => getLsbD_of_bitlen_le⟩

end Sys2Proof.Machine
end

section
/-! PROOFS. What one turn of the host can do, said once (10_state.md R19, 20_memory.md R38, R48, 30_encoding.md R58). -/

namespace Sys2Proof.Machine

/-- All that one host instruction can do to the machine, the host's own state aside. -/
inductive HostEffect (s : State) : State → Prop where
  | same : HostEffect s s
  | draw : HostEffect s s.countDraw
  | fence : HostEffect s s.fence
  | overrun : HostEffect s s.overrun
  | accept (w : Word32) (hidle : s.status.busy = false) (hr : s.inReset = false) : HostEffect s (s.accept w)
  | status (v : Word32) : HostEffect s { s with status := writeStatus s.status v }
  | arg (i : Fin 4) (v : Word64) : HostEffect s (s.setArg i v)
  | store (w : Width) (a : Nat) (v : Word64) (hm : noMemory s.regions a w.bytes = false) :
      HostEffect s ((s.noteStore a w.bytes v.toNat).setMem (writeLE s.mem a w.bytes v.toNat))

theorem windowWrite_effect {s t : State} {w : Width} {off : Nat} {v : Word64}
    (h : windowWrite s w off v = some t) : HostEffect s t := by
  obtain ⟨hr, -, rfl | ⟨-, rfl⟩ | ⟨hidle, rfl⟩ | rfl | ⟨i, -, rfl⟩⟩ := windowWrite_cases h
  · exact .same
  · exact .overrun
  · exact .accept _ hidle hr
  · exact .status _
  · exact .arg _ _

theorem hostStore_effect {s t : State} {w : Width} {a : Nat} {v : Word64} (h : hostStore s w a v = .done t) :
    HostEffect s t := by
  obtain ⟨-, hw⟩ | ⟨-, hm, ⟨-, rfl⟩ | ⟨-, rfl⟩⟩ := hostStore_cases h
  · exact windowWrite_effect hw
  · exact .same
  · exact .store w a v hm

theorem hostLoad_effect {s t : State} {w : Width} {a : Nat} {v : Word64} (h : hostLoad s w a = .value v t) :
    HostEffect s t := by
  obtain rfl | rfl := hostLoad_state h
  · exact .same
  · exact .draw

/-- A host turn is one such effect, and a change of the host's own state. -/
def HostStep (s t : State) : Prop := ∃ u h, HostEffect s u ∧ t = { u with host := h }

theorem loadRefused_step (s : State) (r : Nat) : HostStep s (s.loadRefused r) := by
  unfold State.loadRefused
  split <;> exact ⟨s, _, .same, rfl⟩

theorem storeRefused_step (s : State) : HostStep s s.storeRefused := by
  unfold State.storeRefused
  split <;> exact ⟨s, _, .same, rfl⟩

theorem hostExec_step {i : HostInstr} {s t : State} (h : hostExec i s = .next t) : HostStep s t := by
  cases i with
  | store w addr v =>
    rw [hostExec] at h
    cases hs : hostStore s w (s.hostVal addr).toNat (s.hostVal v) <;> rw [hs] at h <;> cases h
    · exact ⟨_, _, hostStore_effect hs, rfl⟩
    · exact storeRefused_step s
  | load w r addr =>
    rw [hostExec] at h
    cases hl : hostLoad s w (s.hostVal addr).toNat <;> rw [hl] at h <;> cases h
    · exact ⟨_, _, hostLoad_effect hl, rfl⟩
    · exact loadRefused_step s r
  | fence => cases h; exact ⟨_, _, .fence, rfl⟩
  | bnz x target | bz x target => cases h; split <;> exact ⟨s, _, .same, rfl⟩
  | li | and | shr | add | b => cases h; exact ⟨s, _, .same, rfl⟩

theorem hostTurn_step {s t : State} (h : hostTurn s = .next t) : HostStep s t := by
  unfold hostTurn at h
  split at h
  · cases h; exact ⟨s, s.host, .same, rfl⟩
  · split at h
    · cases h; exact ⟨s, s.host, .same, rfl⟩
    · exact hostExec_step h

end Sys2Proof.Machine
end

section
/-! PROOFS. The invariant `State.Inv`: each update of the state keeps it, so every turn does. -/

namespace Sys2Proof.Machine

/-! ## Updates that keep the invariant -/

section
variable {s : State} (h : s.Inv)
include h

theorem State.Inv.setRes (i : Fin 4) (v : Word64) : (s.setRes i v).Inv := { h with }
theorem State.Inv.setAllRes (q : Quad Word64) : (s.setAllRes q).Inv := { h with }
theorem State.Inv.setArg (i : Fin 4) (v : Word64) : (s.setArg i v).Inv := { h with }
theorem State.Inv.setEntropy (p : EntropyPort) : (s.setEntropy p).Inv := { h with }
theorem State.Inv.countDraw : s.countDraw.Inv := { h with }
theorem State.Inv.popTurn : s.popTurn.Inv := { h with }
theorem State.Inv.overrun : s.overrun.Inv := { h with }
theorem State.Inv.remap (rs : List Region) : (s.remap rs).Inv := { h with }
theorem State.Inv.fence : s.fence.Inv := { h with }
theorem State.Inv.withHost (a : HostState) : State.Inv { s with host := a } := { h with }

theorem State.Inv.running (hb : s.status.busy = true) (tr : Transient) : (s.running tr).Inv :=
  { h with idleNoTransient := fun hidle => absurd hb (by simp_all) }

theorem State.Inv.complete (e : StatusCode) : (s.complete e).Inv :=
  { h with busyErrOk := nofun, idleNoTransient := fun _ => rfl, resetIdle := fun _ => rfl }

theorem State.Inv.accept (hr : s.inReset = false) (w : Word32) : (s.accept w).Inv :=
  { h with busyErrOk := fun _ => rfl, idleNoTransient := fun _ => rfl
           resetIdle := fun hr' => absurd hr' (by simp [hr]) }

theorem State.Inv.setScalar (c : Ctx) {x : ScalarCtx} (hx : x.Odd) : (s.setScalar c x).Inv :=
  { h with scalarCount := by simpa using h.scalarCount
           scalarOdd := fun y hy => (List.mem_or_eq_of_mem_set hy).elim (h.scalarOdd y) fun e => e ▸ hx }

theorem State.Inv.setVector (c : Ctx) {x : VectorCtx} (hx : x.Odd) : (s.setVector c x).Inv :=
  { h with vectorCount := by simpa using h.vectorCount
           vectorOdd := fun y hy => (List.mem_or_eq_of_mem_set hy).elim (h.vectorOdd y) fun e => e ▸ hx }

theorem State.Inv.setMem {m : Memory} (hm : m.wf) (hb : Memory.below m (2 ^ 64)) : (s.setMem m).Inv :=
  { h with memCanonical := hm, memInSpace := hb }

end


/-! ## The host -/

@[simp] theorem writeStatus_busy (st : Status) (v : Word32) : (writeStatus st v).busy = st.busy := by
  unfold writeStatus; split <;> rfl

@[simp] theorem writeStatus_err (st : Status) (v : Word32) : (writeStatus st v).err = st.err := by
  unfold writeStatus; split <;> rfl

theorem State.Inv.writeStatus {s : State} (h : s.Inv) (v : Word32) :
    State.Inv { s with status := writeStatus s.status v } :=
  { h with busyErrOk := by simpa using h.busyErrOk
           idleNoTransient := by simpa using h.idleNoTransient
           resetIdle := by simpa using h.resetIdle }

/-- An access that some memory answers ends inside the address space. -/
theorem access_end_le {rs : List Region} {a len : Nat} (h : noMemory rs a len = false) : a + len ≤ 2 ^ 64 := by
  simp only [noMemory, Bool.or_eq_false_iff, decide_eq_false_iff_not, not_lt] at h
  exact h.1

theorem HostEffect.inv {s t : State} (h : HostEffect s t) (hs : s.Inv) : t.Inv := by
  cases h with
  | same => exact hs
  | draw => exact hs.countDraw
  | fence => exact hs.fence
  | overrun => exact hs.overrun
  | accept w _ hr => exact hs.accept hr w
  | status v => exact hs.writeStatus v
  | arg i v => exact hs.setArg i v
  | store w a v hm =>
    have hnoted : (s.noteStore a w.bytes v.toNat).Inv := { hs with }
    exact hnoted.setMem (writeLE_wf _ _ _ hs.memCanonical) (writeLE_below _ hs.memInSpace (access_end_le hm))

theorem hostTurn_inv {s t : State} (h : hostTurn s = .next t) (hs : s.Inv) : t.Inv := by
  obtain ⟨u, a, hu, rfl⟩ := hostTurn_step h
  exact (hu.inv hs).withHost a

/-! ## Contexts: what the commands write is odd where it is valid (R27, R28) -/

theorem ScalarCtx.Odd.of_invalid {x : ScalarCtx} (h : x.valid = false) : x.Odd :=
  fun hv => absurd hv (by simp [h])

theorem VectorCtx.Odd.of_invalid {x : VectorCtx} (h : x.valid = false) : x.Odd :=
  fun hv => absurd hv (by simp [h])

theorem ScalarCtx.Odd.advanceBy {x : ScalarCtx} (h : x.Odd) (n : Nat) : (advanceBy n x).Odd := by
  simpa [ScalarCtx.Odd] using h

theorem VectorCtx.Odd.advance {x : VectorCtx} (h : x.Odd) (p : Config.Params) : (x.advance p).Odd := h

theorem rejectionLoop_draws {p : Config.Params} {span mask v : Word64} {n : Nat} {x y : ScalarCtx}
    (h : rejectionLoop p span mask n x = some (v, y)) : ∃ k, y = advanceBy k x := by
  obtain ⟨hn, -⟩ | ⟨j, -, -, -, hj⟩ := rejectionLoop_cases p span mask n x
  · rw [hn] at h; cases h
  · rw [hj] at h; cases h; exact ⟨j + 1, rfl⟩

/-- A successful chain of draws: its first draw succeeds, and the rest of the chain does from there on. -/
theorem afterDraw_some {α β : Type} {d : EntropyPort → Option α × EntropyPort}
    {k : α → EntropyPort → Option β × EntropyPort} {p : EntropyPort} {b : β}
    (h : (afterDraw d k p).1 = some b) : ∃ v, (d p).1 = some v ∧ (k v (d p).2).1 = some b := by
  obtain ⟨-, e⟩ | ⟨v, hv, e⟩ := afterDraw_cases d k p <;> rw [e] at h
  · cases h
  · exact ⟨v, hv, h⟩

theorem entropyVector_odd {p : EntropyPort} {x : VectorCtx} (h : (entropyVector p).1 = some x) : x.Odd := by
  obtain ⟨l0, h0, h⟩ := afterDraw_some h
  obtain ⟨l1, h1, h⟩ := afterDraw_some h
  obtain ⟨l2, h2, h⟩ := afterDraw_some h
  obtain ⟨l3, h3, h⟩ := afterDraw_some h
  obtain rfl := Option.some.inj h
  exact fun _ => ⟨entropyLane_odd h0, entropyLane_odd h1, entropyLane_odd h2, entropyLane_odd h3⟩

theorem State.Inv.scalar_odd {s : State} (h : s.Inv) {c : Ctx} {x : ScalarCtx} (hx : s.scalar? c = some x) :
    x.Odd :=
  h.scalarOdd x (List.mem_of_getElem? hx)

theorem State.Inv.vector_odd {s : State} (h : s.Inv) {c : Ctx} {x : VectorCtx} (hx : s.vector? c = some x) :
    x.Odd :=
  h.vectorOdd x (List.mem_of_getElem? hx)

/-! ## Memory: what DEBIAS writes is canonical and inside the address space -/

/-- The destination words of a DEBIAS in range end inside the address space (R39, R42). -/
theorem dest_end_le {s : State} (hs : s.Inv) (hn : ¬PreconditionFails s .debias) :
    s.args.v2.toNat + 8 * wordCount s.args.v3.toNat ≤ 2 ^ 64 := by
  have haddr : 2 ^ s.params.addrW ≤ 2 ^ 64 := by
    have hp := hs.paramsInRange
    simp only [Config.Params.wellFormed, Bool.and_eq_true, decide_eq_true_eq] at hp
    exact Nat.pow_le_pow_right two_pos hp.1.2
  simp only [PreconditionFails, BadBuffer, not_or, not_lt] at hn
  obtain ⟨-, -, -, -, ⟨-, -, hend⟩, -⟩ := hn
  exact hend.trans haddr

theorem State.Inv.setDestAnyValue {s u : State} (hs : s.Inv) (hu : u.Inv) (hn : ¬PreconditionFails s .debias)
    (pick : Nat → Bool) {m : Memory} (hm : m.wf) (hb : Memory.below m (2 ^ 64)) :
    (u.setMem (s.destAnyValue pick m)).Inv :=
  hu.setMem (overwriteWords_wf _ _ _ _ hm) (overwriteWords_below _ _ _ _ hb (dest_end_le hs hn))

theorem debiasPass_ones_lt (s : State) : ∀ w ∈ s.debiasPass.ones, w < 64 * wordCount s.args.v3.toNat := by
  intro w hw
  have hlt : w < s.args.v3.toNat := (debiasPass_ones _ _ _ w hw).2
  unfold wordCount
  omega

/-! ## Commands -/

/-- A running command keeps the invariant, however it goes. -/
theorem Executed.inv {i : Instr} {s t : State} (h : Executed s i t) (hs : s.Inv) (hb : s.status.busy = true) :
    t.Inv := by
  have hrun (tr : Transient) : (s.running tr).Inv := hs.running hb tr
  have hport (p : EntropyPort) (tr : Transient) : ((s.setEntropy p).running tr).Inv :=
    (hs.setEntropy p).running hb tr
  cases h with
  | rejected => exact hs.complete _
  | mix => exact (hs.setRes _ _).complete _
  | initSeed c => exact (hs.setScalar c (seedScalar_odd _ _)).complete _
  | initEntropy c x y p tr hx h hp =>
    exact ((hport p tr).setScalar c (entropyScalar_odd (congrArg Prod.fst hp))).complete _
  | initFails c x p tr => exact ((hport p tr).setScalar c (.of_invalid rfl)).complete _
  | next c x hx => exact ((hs.setScalar c ((hs.scalar_odd hx).advanceBy 1)).setRes _ _).complete _
  | bounded c x y v tr hx hv hn hl =>
    obtain ⟨k, rfl⟩ := rejectionLoop_draws hl
    exact (((hrun tr).setScalar c ((hs.scalar_odd hx).advanceBy k)).setRes _ _).complete _
  | boundedRuns c x tr => exact hrun tr
  | bias c x tr hx =>
    obtain ⟨k, hk⟩ := biasCore_draws s.params s.args.v0 s.args.v1 x
    exact (((hrun tr).setScalar c (hk ▸ (hs.scalar_odd hx).advanceBy k)).setRes _ _).complete _
  | binomial c x tr hx =>
    obtain ⟨k, hk⟩ := binomialCore_draws s.params s.args.v0 s.args.v1 s.args.v2 x
    exact (((hrun tr).setScalar c (hk ▸ (hs.scalar_odd hx).advanceBy k)).setRes _ _).complete _
  | debias tr hn =>
    refine ((State.Inv.setRes ?_ _ _).setRes _ _).complete _
    exact hs.setDestAnyValue (hrun tr).countDraw hn _ (orOnes_wf _ _ (destSettled_wf hs.memCanonical))
      (orOnes_below _ _ _ (destSettled_below hs.memInSpace (dest_end_le hs hn)) (debiasPass_ones_lt s)
        (dest_end_le hs hn))
  | debiasFails tr hn =>
    exact (hs.setDestAnyValue (hrun tr).countDraw hn _ hs.memCanonical hs.memInSpace).complete _
  | autocorr tr => exact ((hrun tr).countDraw.setRes _ _).complete _
  | autocorrFails tr => exact (hrun tr).countDraw.complete _
  | vinitSeeds c => exact (hs.setVector c (seedVector_odd _ _)).complete _
  | vinitEntropy c x y p tr hx h hp =>
    exact ((hport p tr).setVector c (entropyVector_odd (congrArg Prod.fst hp))).complete _
  | vinitFails c x p tr => exact ((hport p tr).setVector c (.of_invalid rfl)).complete _
  | vnext c x hx => exact ((hs.setVector c ((hs.vector_odd hx).advance _)).setAllRes _).complete _

theorem engineTurn_inv {s t : State} (h : engineTurn s = .next t) (hs : s.Inv) : t.Inv := by
  unfold engineTurn at h
  split at h
  · next hb =>
    split at h
    · exact (exec_executed h).inv hs (Bool.and_eq_true_iff.1 hb).1
    · cases h; exact hs.complete _
  · cases h; exact hs

/-! ## Reset (R122, R123) -/

theorem State.Inv.abandonAttempts {s : State} (hs : s.Inv) (whole : EntropyPort) :
    (s.abandonAttempts whole).Inv :=
  (hs.setEntropy _).countDraw

theorem abortEffect_inv {s : State} (hs : s.Inv) (i : Instr) : (abortEffect i s).Inv := by
  cases i with
  | init c | vinit c =>
    rw [abortEffect]
    split
    · exact hs.abandonAttempts _
    · exact hs
  | debias =>
    rw [abortEffect]
    split
    · next hok =>
      exact (hs.setDestAnyValue hs ((debiasOK_iff s).1 hok) _ hs.memCanonical hs.memInSpace).countDraw
    · exact hs
  | mix | next | bounded | bias | binomial | autocorr | vnext => exact hs

theorem State.Inv.abort {s : State} (hs : s.Inv) : s.abort.Inv := by
  unfold State.abort
  split
  · split
    · exact abortEffect_inv hs _
    · exact hs
  · exact hs

theorem State.Inv.assertReset {s : State} (hs : s.Inv) : s.assertReset.Inv :=
  { hs.abort with busyErrOk := nofun, idleNoTransient := fun _ => rfl, resetIdle := fun _ => rfl }

/-- The registers of R37 meet the invariant, whatever stood in them before. -/
theorem inv_resetRegisters {s : State} (hsc : 1 ≤ s.sctx.length ∧ s.sctx.length ≤ 256)
    (hvc : 1 ≤ s.vctx.length ∧ s.vctx.length ≤ 256) (hp : s.params.wellFormed = true) (hm : s.mem.wf)
    (hb : Memory.below s.mem (2 ^ 64)) : s.resetRegisters.Inv where
  scalarCount := by simpa using hsc
  vectorCount := by simpa using hvc
  paramsInRange := hp
  scalarOdd := List.forall_mem_map.2 fun _ _ => .of_invalid rfl
  vectorOdd := List.forall_mem_map.2 fun _ _ => .of_invalid rfl
  memCanonical := hm
  memInSpace := hb
  busyErrOk := nofun
  idleNoTransient := fun _ => rfl
  resetIdle := fun _ => rfl

theorem State.Inv.releaseReset {s : State} (hs : s.Inv) : s.releaseReset.Inv := by
  unfold State.releaseReset
  split
  · exact { inv_resetRegisters hs.scalarCount hs.vectorCount hs.paramsInRange hs.memCanonical hs.memInSpace with
      resetIdle := nofun }
  · exact hs

/-! ## Every step -/

/-- Settles O57: whoever's turn it is, the agent that moves keeps the invariant. -/
theorem stepKeepsInvariant : Obligations.StepKeepsInvariant := by
  intro s t hs h
  unfold step at h
  split at h
  · exact engineTurn_inv h hs.popTurn
  · exact hostTurn_inv h hs.popTurn
  · cases h; exact hs.popTurn.assertReset
  · cases h; exact hs.popTurn.releaseReset
  · cases h; exact hs.popTurn.remap _

/-- Settles O58: the reset state is the one whose registers have just been reset. -/
theorem resetMeetsInvariant : Obligations.ResetMeetsInvariant := by
  show State.reset.resetRegisters.Inv
  exact inv_resetRegisters (by decide) (by decide) (by decide) (by decide) (by decide)

end Sys2Proof.Machine
end

section
/-! PROOFS. Which agent writes a context (10_state.md R29). -/

namespace Sys2Proof.Machine

/-- What a command does to the scalar contexts: nothing, or one of them is written, by INIT or by draws from it. -/
theorem Executed.sctx {i : Instr} {s t : State} (h : Executed s i t) :
    t.sctx = s.sctx ∨ ∃ c x y, s.sctx[c.toNat]? = some x ∧ t.sctx = s.sctx.set c.toNat y ∧
      (i = .init c ∨ ((i = .next c ∨ i = .bounded c ∨ i = .bias c ∨ i = .binomial c) ∧
        ∃ n, y = advanceBy n x)) := by
  cases h with
  | initSeed c x hx | initEntropy c x y p tr hx | initFails c x p tr hx =>
    exact .inr ⟨c, x, _, hx, rfl, .inl rfl⟩
  | next c x hx => exact .inr ⟨c, x, _, hx, rfl, .inr ⟨.inl rfl, 1, rfl⟩⟩
  | bounded c x y v tr hx hv hn hl =>
    exact .inr ⟨c, x, y, hx, rfl, .inr ⟨.inr (.inl rfl), rejectionLoop_draws hl⟩⟩
  | bias c x tr hx => exact .inr ⟨c, x, _, hx, rfl, .inr ⟨.inr (.inr (.inl rfl)), biasCore_draws _ _ _ _⟩⟩
  | binomial c x tr hx =>
    exact .inr ⟨c, x, _, hx, rfl, .inr ⟨.inr (.inr (.inr rfl)), binomialCore_draws _ _ _ _ _⟩⟩
  | rejected | mix | boundedRuns | debias | debiasFails | autocorr | autocorrFails | vinitSeeds | vinitEntropy
  | vinitFails | vnext => exact .inl rfl

/-- What a command does to the vector contexts: nothing, or one of them is written, by VINIT or by VNEXT. -/
theorem Executed.vctx {i : Instr} {s t : State} (h : Executed s i t) :
    t.vctx = s.vctx ∨ ∃ c x y, s.vctx[c.toNat]? = some x ∧ t.vctx = s.vctx.set c.toNat y ∧
      (i = .vinit c ∨ (i = .vnext c ∧ y = x.advance s.params)) := by
  cases h with
  | vinitSeeds c x hx | vinitEntropy c x y p tr hx | vinitFails c x p tr hx =>
    exact .inr ⟨c, x, _, hx, rfl, .inl rfl⟩
  | vnext c x hx => exact .inr ⟨c, x, _, hx, rfl, .inr ⟨rfl, rfl⟩⟩
  | rejected | mix | initSeed | initEntropy | initFails | next | bounded | boundedRuns | bias | binomial
  | debias | debiasFails | autocorr | autocorrFails => exact .inl rfl

/-- An entry of a list with one entry replaced: it is as before, or it is the new one in the place of an old. -/
theorem getElem?_set_cases {α : Type} {l : List α} {j : Nat} {x : α} (hx : l[j]? = some x) (y : α) (k : Nat) :
    (l.set j y)[k]? = l[k]? ∨ (k = j ∧ l[k]? = some x ∧ (l.set j y)[k]? = some y) := by
  by_cases hk : k = j
  · subst hk
    exact .inr ⟨rfl, hx, List.getElem?_set_self (List.getElem?_eq_some_iff.1 hx).1⟩
  · exact .inl (List.getElem?_set_ne (Ne.symm hk))

theorem HostStep.contexts {s t : State} (h : HostStep s t) : t.sctx = s.sctx ∧ t.vctx = s.vctx := by
  obtain ⟨u, a, hu, rfl⟩ := h
  cases hu <;> exact ⟨rfl, rfl⟩

/-- Settles O26, by what each command does to the context files as a whole. -/
theorem contextsWrittenOnlyByTheirCommands : Obligations.ContextsWrittenOnlyByTheirCommands := by
  refine ⟨fun i s t h => ⟨fun k => ?_, fun k => ?_⟩, fun s t h => (hostTurn_step h).contexts⟩
  · obtain e | ⟨c, x, y, hx, e, hi⟩ := (exec_executed h).sctx <;> rw [e]
    · exact .inl rfl
    · refine (getElem?_set_cases hx y k).imp_right fun ⟨hk, hold, hnew⟩ => ⟨c, hk, hi.imp_right ?_⟩
      rintro ⟨hdraws, n, rfl⟩
      exact ⟨hdraws, x, n, hold, hnew⟩
  · obtain e | ⟨c, x, y, hx, e, hi⟩ := (exec_executed h).vctx <;> rw [e]
    · exact .inl rfl
    · refine (getElem?_set_cases hx y k).imp_right fun ⟨hk, hold, hnew⟩ => ⟨c, hk, hi.imp_right ?_⟩
      rintro ⟨hvnext, rfl⟩
      exact ⟨hvnext, x, hold, hnew⟩

end Sys2Proof.Machine
end

section
/-! PROOFS. CUR and INC of an invalid context cannot be observed (10_state.md R30): similar states stay similar
under every update the engine, the host and the platform make, so under every turn. -/

namespace Sys2Proof.Machine

/-! ## Similar contexts, and lists of them -/

theorem ScalarCtx.Similar.refl (x : ScalarCtx) : x.Similar x := ⟨rfl, fun _ => rfl⟩
theorem VectorCtx.Similar.refl (x : VectorCtx) : x.Similar x := ⟨rfl, fun _ => rfl⟩

theorem ScalarCtx.similar_of_invalid {x y : ScalarCtx} (hx : x.valid = false) (hy : y.valid = false) :
    x.Similar y :=
  ⟨hx.trans hy.symm, fun hv => absurd hv (by simp [hx])⟩

theorem VectorCtx.similar_of_invalid {x y : VectorCtx} (hx : x.valid = false) (hy : y.valid = false) :
    x.Similar y :=
  ⟨hx.trans hy.symm, fun hv => absurd hv (by simp [hx])⟩

theorem forall₂_getElem? {α : Type} {R : α → α → Prop} {l m : List α} (h : List.Forall₂ R l m) (k : Nat) :
    Option.Rel R l[k]? m[k]? := by
  induction h generalizing k with
  | nil => exact .none
  | cons hxy _ ih =>
    cases k with
    | zero => exact .some hxy
    | succ k => exact ih k

theorem isSome_eq_of_rel {α : Type} {R : α → α → Prop} {x y : Option α} (h : Option.Rel R x y) :
    y.isSome = x.isSome := by
  cases h <;> rfl

theorem forall₂_set {α : Type} {R : α → α → Prop} {l m : List α} {x y : α} (h : List.Forall₂ R l m)
    (hxy : R x y) (k : Nat) : List.Forall₂ R (l.set k x) (m.set k y) := by
  induction h generalizing k with
  | nil => exact .nil
  | cons hd htl ih =>
    cases k with
    | zero => exact .cons hxy htl
    | succ k => exact .cons hd (ih k)

/-! ## Similar states -/

/-- `s` with its context files replaced. -/
def State.withContexts (s : State) (a : List ScalarCtx) (b : List VectorCtx) : State := { s with sctx := a, vctx := b }

theorem similar_iff {s t : State} : s.Similar t ↔ ∃ a b, t = s.withContexts a b ∧
    List.Forall₂ ScalarCtx.Similar s.sctx a ∧ List.Forall₂ VectorCtx.Similar s.vctx b := by
  constructor
  · exact fun h => ⟨t.sctx, t.vctx, h⟩
  · rintro ⟨a, b, rfl, ha, hb⟩
    exact ⟨rfl, ha, hb⟩

/-- The update neither reads nor writes a context. -/
def Blind (f : State → State) : Prop := ∀ s a b, f (s.withContexts a b) = (f s).withContexts a b

theorem Blind.ite {c : State → Bool} {f g : State → State} (hc : ∀ s a b, c (s.withContexts a b) = c s)
    (hf : Blind f) (hg : Blind g) : Blind fun s => if c s then f s else g s := by
  intro s a b
  dsimp only
  rw [hc, hf, hg]
  exact (apply_ite (State.withContexts · a b) _ _ _).symm

/-- A blind update keeps states similar: it leaves the context files of each as they were. -/
theorem Blind.similar {f : State → State} (hf : Blind f) {s t : State} (h : s.Similar t) :
    (f s).Similar (f t) := by
  obtain ⟨a, b, rfl, ha, hb⟩ := similar_iff.1 h
  have hown : f s = (f s).withContexts s.sctx s.vctx := hf s s.sctx s.vctx
  refine similar_iff.2 ⟨a, b, hf s a b, ?_, ?_⟩ <;> rw [hown]
  · exact ha
  · exact hb

section
variable {s t : State} (h : s.Similar t)
include h

theorem State.Similar.cmd : t.cmd = s.cmd := by rw [h.1]
theorem State.Similar.status : t.status = s.status := by rw [h.1]
theorem State.Similar.args : t.args = s.args := by rw [h.1]
theorem State.Similar.res : t.res = s.res := by rw [h.1]
theorem State.Similar.inReset : t.inReset = s.inReset := by rw [h.1]
theorem State.Similar.params : t.params = s.params := by rw [h.1]
theorem State.Similar.mem : t.mem = s.mem := by rw [h.1]
theorem State.Similar.regions : t.regions = s.regions := by rw [h.1]
theorem State.Similar.entropy : t.entropy = s.entropy := by rw [h.1]
theorem State.Similar.host : t.host = s.host := by rw [h.1]
theorem State.Similar.free : t.free = s.free := by rw [h.1]

theorem State.Similar.paramWord : paramWord t = paramWord s := by
  simp only [Machine.paramWord, numVector, numScalar, h.2.1.length_eq, h.2.2.length_eq]

theorem State.Similar.nextTurn : t.nextTurn = s.nextTurn := by rw [h.1]; rfl

/-- Any update that is seen to be blind by unfolding it. -/
theorem State.Similar.update (f : State → State) (hf : Blind f := by exact fun _ _ _ => rfl) :
    (f s).Similar (f t) :=
  hf.similar h

theorem State.Similar.setRes (i : Fin 4) (v : Word64) : (s.setRes i v).Similar (t.setRes i v) :=
  h.update (·.setRes i v)
theorem State.Similar.setAllRes (q : Quad Word64) : (s.setAllRes q).Similar (t.setAllRes q) :=
  h.update (·.setAllRes q)
theorem State.Similar.running (tr : Transient) : (s.running tr).Similar (t.running tr) :=
  h.update (·.running tr)
theorem State.Similar.setEntropy (p : EntropyPort) : (s.setEntropy p).Similar (t.setEntropy p) :=
  h.update (·.setEntropy p)
theorem State.Similar.complete (e : StatusCode) : (s.complete e).Similar (t.complete e) :=
  h.update (·.complete e)
theorem State.Similar.popTurn : s.popTurn.Similar t.popTurn := h.update (·.popTurn)
theorem State.Similar.hostSet (r : Nat) (v : Word64) : (s.hostSet r v).Similar (t.hostSet r v) :=
  h.update (·.hostSet r v)
theorem State.Similar.hostAt (pos : Nat) : (s.hostAt pos).Similar (t.hostAt pos) := h.update (·.hostAt pos)

theorem State.Similar.setScalar {x y : ScalarCtx} (c : Ctx) (hxy : x.Similar y) :
    (s.setScalar c x).Similar (t.setScalar c y) := by
  obtain ⟨a, b, rfl, ha, hb⟩ := similar_iff.1 h
  exact ⟨rfl, forall₂_set ha hxy _, hb⟩
theorem State.Similar.setVector {x y : VectorCtx} (c : Ctx) (hxy : x.Similar y) :
    (s.setVector c x).Similar (t.setVector c y) := by
  obtain ⟨a, b, rfl, ha, hb⟩ := similar_iff.1 h
  exact ⟨rfl, ha, forall₂_set hb hxy _⟩

theorem State.Similar.scalar? (c : Ctx) : Option.Rel ScalarCtx.Similar (s.scalar? c) (t.scalar? c) :=
  forall₂_getElem? h.2.1 _
theorem State.Similar.vector? (c : Ctx) : Option.Rel VectorCtx.Similar (s.vector? c) (t.vector? c) :=
  forall₂_getElem? h.2.2 _

/-! ## The checks of a command (R114) -/

theorem State.Similar.withScalar {k k' : ScalarCtx → State} (c : Ctx)
    (hk : ∀ x y, x.Similar y → (k x).Similar (k' y)) : (withScalar s c k).Similar (withScalar t c k') := by
  unfold Machine.withScalar
  have hrel := h.scalar? c
  generalize s.scalar? c = x, t.scalar? c = y at hrel
  cases hrel with
  | none => exact h.complete _
  | some hxy => exact hk _ _ hxy

theorem State.Similar.withVector {k k' : VectorCtx → State} (c : Ctx)
    (hk : ∀ x y, x.Similar y → (k x).Similar (k' y)) : (withVector s c k).Similar (withVector t c k') := by
  unfold Machine.withVector
  have hrel := h.vector? c
  generalize s.vector? c = x, t.vector? c = y at hrel
  cases hrel with
  | none => exact h.complete _
  | some hxy => exact hk _ _ hxy

theorem State.Similar.withValidScalar {k k' : ScalarCtx → State} (c : Ctx)
    (hk : ∀ x, (k x).Similar (k' x)) : (withValidScalar s c k).Similar (withValidScalar t c k') := by
  refine h.withScalar c fun x y ⟨hv, hxy⟩ => ?_
  rw [← hv]
  split
  · next hx => rw [← hxy hx]; exact hk x
  · exact h.complete _

theorem State.Similar.withValidVector {k k' : VectorCtx → State} (c : Ctx)
    (hk : ∀ x, (k x).Similar (k' x)) : (withValidVector s c k).Similar (withValidVector t c k') := by
  refine h.withVector c fun x y ⟨hv, hxy⟩ => ?_
  rw [← hv]
  split
  · next hx => rw [← hxy hx]; exact hk x
  · exact h.complete _

theorem State.Similar.requireOperands {u v : State} (ok : Bool) (huv : u.Similar v) :
    (requireOperands s ok u).Similar (requireOperands t ok v) := by
  cases ok with
  | false => exact h.complete _
  | true => exact huv

end

/-! ## Commands -/

theorem blind_mixEffect : Blind mixEffect := fun _ _ _ => rfl

theorem blind_debiasEffect : Blind debiasEffect :=
  .ite (c := State.debiasOK) (fun _ _ _ => rfl)
    (.ite (c := fun s => debiasBusError s s.debiasPass (orOnes s.arg2.toNat s.debiasPass.ones s.destSettled))
      (fun _ _ _ => rfl) (fun _ _ _ => rfl) (fun _ _ _ => rfl))
    (fun _ _ _ => rfl)

theorem blind_autocorrEffect : Blind autocorrEffect :=
  .ite (c := fun s => autocorrOK s.params s.arg0 s.arg1 s.arg2) (fun _ _ _ => rfl)
    (.ite (c := autocorrBusError) (fun _ _ _ => rfl) (fun _ _ _ => rfl) (fun _ _ _ => rfl))
    (fun _ _ _ => rfl)

section
variable {s t : State} (h : s.Similar t) (c : Ctx)
include h

theorem initFromEntropy_similar (x y : ScalarCtx) :
    (initFromEntropy s c x).Similar (initFromEntropy t c y) := by
  have hrun (p : EntropyPort) (tr : Transient) := (h.setEntropy p).running tr
  unfold initFromEntropy
  rw [h.entropy]
  rcases entropyScalar s.entropy with ⟨_ | z, p⟩
  · exact ((hrun p _).setScalar c (ScalarCtx.similar_of_invalid rfl rfl)).complete _
  · exact ((hrun p _).setScalar c (.refl z)).complete _

theorem vinitFromEntropy_similar (x y : VectorCtx) :
    (vinitFromEntropy s c x).Similar (vinitFromEntropy t c y) := by
  have hrun (p : EntropyPort) (tr : Transient) := (h.setEntropy p).running tr
  unfold vinitFromEntropy
  rw [h.entropy]
  rcases entropyVector s.entropy with ⟨_ | z, p⟩
  · exact ((hrun p _).setVector c (VectorCtx.similar_of_invalid rfl rfl)).complete _
  · exact ((hrun p _).setVector c (.refl z)).complete _

theorem initEffect_similar : (initEffect c s).Similar (initEffect c t) := by
  refine h.withScalar c fun x y _ => ?_
  rw [State.arg0_eq, State.arg0_eq, h.args, h.params]
  split
  · exact (h.setScalar c (.refl _)).complete _
  · exact initFromEntropy_similar h c x y

theorem vinitEffect_similar : (vinitEffect c s).Similar (vinitEffect c t) := by
  refine h.withVector c fun x y _ => ?_
  rw [h.args, h.params]
  split
  · exact (h.setVector c (.refl _)).complete _
  · split
    · exact vinitFromEntropy_similar h c x y
    · exact h.complete _

theorem nextEffect_similar : (nextEffect c s).Similar (nextEffect c t) := by
  refine h.withValidScalar c fun x => ?_
  rw [h.params]
  exact ((h.setScalar c (.refl _)).setRes _ _).complete _

theorem vnextEffect_similar : (vnextEffect c s).Similar (vnextEffect c t) := by
  refine h.withValidVector c fun x => ?_
  rw [h.params]
  exact ((h.setVector c (.refl _)).setAllRes _).complete _

theorem biasEffect_similar : (biasEffect c s).Similar (biasEffect c t) := by
  refine h.withValidScalar c fun x => ?_
  simp only [State.arg0_eq, State.arg1_eq, h.args, h.params]
  exact h.requireOperands _ ((((h.running _).setScalar c (.refl _)).setRes _ _).complete _)

theorem binomialEffect_similar : (binomialEffect c s).Similar (binomialEffect c t) := by
  refine h.withValidScalar c fun x => ?_
  simp only [State.arg0_eq, State.arg1_eq, State.arg2_eq, h.args, h.params]
  exact h.requireOperands _ ((((h.running _).setScalar c (.refl _)).setRes _ _).complete _)

theorem boundedEffect_similar : (boundedEffect c s).Similar (boundedEffect c t) := by
  refine h.withValidScalar c fun x => ?_
  simp only [State.arg0_eq, State.arg1_eq, h.args, h.params]
  refine h.requireOperands _ ?_
  split
  · exact (((h.running _).setScalar c (.refl _)).setRes _ _).complete _
  · exact h.running _

end

/-- Two outcomes that cannot be told apart: similar next states, or the same stop. -/
inductive SimilarOutcome : Host.Outcome State Fault Refusal → Host.Outcome State Fault Refusal → Prop where
  | next {s t : State} (h : s.Similar t) : SimilarOutcome (.next s) (.next t)
  | fault (f : Fault) : SimilarOutcome (.fault f) (.fault f)
  | refused (r : Refusal) : SimilarOutcome (.refused r) (.refused r)

theorem exec_similar {s t : State} (h : s.Similar t) (i : Instr) : SimilarOutcome (exec i s) (exec i t) := by
  cases i with
  | mix => exact .next (blind_mixEffect.similar h)
  | init c => exact .next (initEffect_similar h c)
  | next c => exact .next (nextEffect_similar h c)
  | bounded c => exact .next (boundedEffect_similar h c)
  | bias c => exact .next (biasEffect_similar h c)
  | binomial c => exact .next (binomialEffect_similar h c)
  | debias => exact .next (blind_debiasEffect.similar h)
  | autocorr => exact .next (blind_autocorrEffect.similar h)
  | vinit c => exact .next (vinitEffect_similar h c)
  | vnext c => exact .next (vnextEffect_similar h c)

theorem engineTurn_similar {s t : State} (h : s.Similar t) : SimilarOutcome (engineTurn s) (engineTurn t) := by
  unfold engineTurn
  rw [h.status, h.inReset, State.command_eq, State.command_eq, h.cmd]
  split
  · split
    · exact exec_similar h _
    · exact .next (h.complete _)
  · exact .next h

/-! ## The host -/

/-- Two answers to a host load that cannot be told apart. -/
inductive SimilarLoaded : Loaded → Loaded → Prop where
  | value (v : Word64) {s t : State} (h : s.Similar t) : SimilarLoaded (.value v s) (.value v t)
  | refused : SimilarLoaded .refused .refused
  | stops (f : Fault) : SimilarLoaded (.stops f) (.stops f)

/-- Two answers to a host store that cannot be told apart. -/
inductive SimilarStored : Stored → Stored → Prop where
  | done {s t : State} (h : s.Similar t) : SimilarStored (.done s) (.done t)
  | refused : SimilarStored .refused .refused
  | stops (f : Fault) : SimilarStored (.stops f) (.stops f)

section
variable {s t : State} (h : s.Similar t)
include h

theorem windowRead_similar (w : Width) (off : Nat) :
    Option.Rel (fun x y => x.1 = y.1 ∧ x.2.Similar y.2) (windowRead s w off) (windowRead t w off) := by
  unfold windowRead
  simp only [h.inReset, h.cmd, h.status, h.paramWord, h.args, h.res, h.free]
  split
  · split
    case h_5 =>
      split
      · exact .some ⟨rfl, h.update (·.countDraw)⟩
      · exact .some ⟨rfl, h⟩
    all_goals exact .some ⟨rfl, h⟩
  · exact .none

theorem windowWrite_similar (w : Width) (off : Nat) (v : Word64) :
    Option.Rel State.Similar (windowWrite s w off v) (windowWrite t w off v) := by
  have hclear := h.update fun u => { u with status := writeStatus u.status (trunc32 v) }
  unfold windowWrite
  simp only [h.inReset, h.status, h.args] at hclear ⊢
  split
  · split
    · split
      · exact .some (h.update (·.overrun))
      · exact .some (h.update (·.accept (trunc32 v)))
    · exact .some hclear
    · exact .some h
    · split
      · exact .some (h.update (·.overrun))
      · exact .some (h.update fun u => u.setArg _ _)
    · exact .some h
    · exact .some h
  · exact .none

theorem hostLoad_similar (w : Width) (a : Nat) : SimilarLoaded (hostLoad s w a) (hostLoad t w a) := by
  have hdest : destBusy t a w.bytes = destBusy s a w.bytes := by rw [h.1]; rfl
  unfold hostLoad
  simp only [h.params, h.regions, h.mem, h.free, hdest]
  split
  · split
    · have hrel := windowRead_similar h w (a - s.params.mmioBase.toNat)
      generalize windowRead s w _ = x, windowRead t w _ = y at hrel
      cases hrel with
      | none => exact .refused
      | @some x y hxy =>
        obtain ⟨v, u⟩ := x
        obtain ⟨_, u'⟩ := y
        obtain ⟨rfl, hu⟩ := hxy
        exact .value v hu
    · exact .refused
  · split
    · exact .stops _
    · split
      · exact .value _ (h.update (·.countDraw))
      · exact .value _ h

theorem hostStore_similar (w : Width) (a : Nat) (v : Word64) :
    SimilarStored (hostStore s w a v) (hostStore t w a v) := by
  unfold hostStore
  simp only [h.params, h.regions, h.mem]
  split
  · split
    · have hrel := windowWrite_similar h w (a - s.params.mmioBase.toNat) v
      generalize windowWrite s w _ v = x, windowWrite t w _ v = y at hrel
      cases hrel with
      | none => exact .refused
      | some hxy => exact .done hxy
    · exact .refused
  · split
    · exact .stops _
    · split
      · exact .done h
      · exact .done (h.update fun u => (u.noteStore a w.bytes v.toNat).setMem _)

theorem State.Similar.hostVal (x : HostVal) : t.hostVal x = s.hostVal x := by rw [h.1]; cases x <;> rfl

theorem loadRefused_similar (r : Nat) : (s.loadRefused r).Similar (t.loadRefused r) := by
  unfold State.loadRefused
  rw [h.params]
  split
  · exact h.hostSet _ _
  · exact h.update (·.hostStop)

theorem storeRefused_similar : s.storeRefused.Similar t.storeRefused := by
  unfold State.storeRefused
  rw [h.params]
  split
  · exact h.update (·.hostNext)
  · exact h.update (·.hostStop)

theorem hostExec_similar (i : HostInstr) : SimilarOutcome (hostExec i s) (hostExec i t) := by
  cases i with
  | store w addr v =>
    rw [hostExec, hostExec, h.hostVal, h.hostVal]
    have hrel := hostStore_similar h w (s.hostVal addr).toNat (s.hostVal v)
    generalize hostStore s w _ _ = x, hostStore t w _ _ = y at hrel
    cases hrel with
    | done hst => exact .next (hst.update (·.hostNext))
    | refused => exact .next (storeRefused_similar h)
    | stops f => exact .fault f
  | load w r addr =>
    rw [hostExec, hostExec, h.hostVal]
    have hrel := hostLoad_similar h w (s.hostVal addr).toNat
    generalize hostLoad s w _ = x, hostLoad t w _ = y at hrel
    cases hrel with
    | value v hst => exact .next (hst.hostSet r v)
    | refused => exact .next (loadRefused_similar h r)
    | stops f => exact .fault f
  | li r v =>
    rw [hostExec, hostExec, h.hostVal]
    exact .next (h.hostSet _ _)
  | and r x y | shr r x y | add r x y =>
    rw [hostExec, hostExec, h.hostVal, h.hostVal]
    exact .next (h.hostSet _ _)
  | bnz x target | bz x target =>
    rw [hostExec, hostExec, h.hostVal]
    split
    · exact .next (h.hostAt _)
    · exact .next (h.update (·.hostNext))
  | b target => exact .next (h.hostAt _)
  | fence => exact .next (h.update (·.fence.hostNext))

theorem hostTurn_similar : SimilarOutcome (hostTurn s) (hostTurn t) := by
  unfold hostTurn
  rw [h.host]
  split
  · exact .next h
  · split
    · exact .next h
    · exact hostExec_similar h _

/-! ## Reset -/

theorem abortEffect_similar (i : Instr) : (abortEffect i s).Similar (abortEffect i t) := by
  cases i with
  | init c =>
    have hsome := isSome_eq_of_rel (h.scalar? c)
    rw [abortEffect, abortEffect, hsome, State.arg0_eq, State.arg0_eq, h.args, h.entropy]
    split
    · exact h.update (·.abandonAttempts _)
    · exact h
  | vinit c =>
    have hsome := isSome_eq_of_rel (h.vector? c)
    rw [abortEffect, abortEffect, hsome, h.args, h.entropy]
    split
    · exact h.update (·.abandonAttempts _)
    · exact h
  | debias =>
    exact h.update (abortEffect .debias)
      (.ite (c := State.debiasOK) (fun _ _ _ => rfl) (fun _ _ _ => rfl) (fun _ _ _ => rfl))
  | mix | next | bounded | bias | binomial | autocorr | vnext => exact h

theorem State.Similar.abort : s.abort.Similar t.abort := by
  unfold State.abort
  rw [h.status, State.command_eq, State.command_eq, h.cmd]
  split
  · split
    · exact abortEffect_similar h _
    · exact h
  · exact h

theorem State.Similar.assertReset : s.assertReset.Similar t.assertReset :=
  h.abort.update fun s => { s with
    inReset := true, status := { s.status with busy := false }, transient := .none, stale := [], disturbed := [] }

theorem State.Similar.releaseReset : s.releaseReset.Similar t.releaseReset := by
  unfold State.releaseReset
  rw [h.inReset]
  split
  · obtain ⟨a, b, rfl, ha, hb⟩ := similar_iff.1 h
    exact ⟨rfl,
      List.forall₂_map_left_iff.2 (List.forall₂_map_right_iff.2 (ha.imp fun _ _ _ => .refl _)),
      List.forall₂_map_left_iff.2 (List.forall₂_map_right_iff.2 (hb.imp fun _ _ _ => .refl _))⟩
  · exact h

theorem step_similar : SimilarOutcome (step s) (step t) := by
  unfold step
  rw [h.nextTurn]
  split
  · exact engineTurn_similar h.popTurn
  · exact hostTurn_similar h.popTurn
  · exact .next h.popTurn.assertReset
  · exact .next h.popTurn.releaseReset
  · exact .next (h.popTurn.update (·.remap _))

end

/-- Settles O27: similar states take similar steps. -/
theorem invalidContextsUnobservable : Obligations.InvalidContextsUnobservable := by
  intro s t h
  have hst := step_similar h
  generalize step s = x, step t = y at hst
  cases hst with
  | next hnext => exact hnext
  | fault f => rfl
  | refused r => rfl

end Sys2Proof.Machine
end

section
/-! PROOFS. The register window (10_state.md R20-R26, 20_memory.md R38): what stands at an offset, what an access
there does, and which half of a register it moves. -/

namespace Sys2Proof.Machine

/-! ## Offsets -/

theorem accessAllowed_w32 {off : Nat} (h : off % 4 = 0) : accessAllowed .w32 off = true := decide_eq_true h

theorem accessAllowed_w64 {off : Nat} (h : off % 8 = 0) (h' : 0x010 ≤ off) : accessAllowed .w64 off = true :=
  Bool.and_eq_true_iff.2 ⟨decide_eq_true h, decide_eq_true h'⟩

theorem accessAllowed_of_not_refused {w : Width} {off : Nat} (h : ¬RefusedAccess w off) :
    accessAllowed w off = true := by
  cases w with
  | w8 | w16 => exact absurd h (by simp)
  | w32 => exact accessAllowed_w32 (by simpa using h)
  | w64 =>
    simp only [RefusedAccess, reduceCtorEq, false_and, true_and, false_or, not_or, not_not] at h
    exact accessAllowed_w64 h.1 (by omega)

theorem windowReg_arg (i : Fin 4) {off : Nat} (h : 0x010 + 8 * i.val ≤ off) (h' : off < 0x018 + 8 * i.val) :
    windowReg off = .arg i := by
  obtain hslot | hslot : off / 4 = 4 + 2 * i.val ∨ off / 4 = 5 + 2 * i.val := by omega
  all_goals rw [windowReg, hslot]; fin_cases i <;> rfl

theorem windowReg_res (i : Fin 4) {off : Nat} (h : 0x030 + 8 * i.val ≤ off) (h' : off < 0x038 + 8 * i.val) :
    windowReg off = .res i := by
  obtain hslot | hslot : off / 4 = 12 + 2 * i.val ∨ off / 4 = 13 + 2 * i.val := by omega
  all_goals rw [windowReg, hslot]; fin_cases i <;> rfl

theorem exists_windowReg_arg {off : Nat} (h : 0x010 ≤ off) (h' : off < 0x030) : ∃ i, windowReg off = .arg i :=
  ⟨⟨(off - 0x010) / 8, by omega⟩, windowReg_arg _ (by dsimp only; omega) (by dsimp only; omega)⟩

theorem exists_windowReg_res {off : Nat} (h : 0x030 ≤ off) (h' : off < 0x050) : ∃ i, windowReg off = .res i :=
  ⟨⟨(off - 0x030) / 8, by omega⟩, windowReg_res _ (by dsimp only; omega) (by dsimp only; omega)⟩

theorem windowReg_reserved {off : Nat} (h : 0x050 ≤ off) : windowReg off = .reserved := by
  obtain ⟨k, hk⟩ := Nat.exists_eq_add_of_le (show 20 ≤ off / 4 by omega)
  rw [windowReg, hk, Nat.add_comm]
  rfl

/-! ## Halves (R38) -/

theorem toNat_append_eq_add {m n : Nat} (x : BitVec m) (y : BitVec n) :
    (x ++ y).toNat = x.toNat * 2 ^ n + y.toNat := by
  rw [BitVec.toNat_append, ← Nat.shiftLeft_add_eq_or_of_lt y.isLt, Nat.shiftLeft_eq]

theorem isHighHalf_low {off : Nat} (h : off % 8 = 0) : isHighHalf off = false := by simp [isHighHalf, h]

theorem isHighHalf_high {off : Nat} (h : off % 8 = 4) : isHighHalf off = true := by simp [isHighHalf, h]

theorem readPart_low {off : Nat} (h : off % 8 = 0) (v : Word64) :
    readPart .w32 off v = BitVec.ofNat 64 (v.toNat % 2 ^ 32) := by
  have hmask : v.toNat &&& 0xFFFFFFFF = v.toNat % 2 ^ 32 := Nat.and_two_pow_sub_one_eq_mod v.toNat 32
  have hlt : v.toNat % 2 ^ 32 < 2 ^ 64 := by omega
  rw [readPart, isHighHalf_low h]
  apply BitVec.eq_of_toNat_eq
  rw [BitVec.toNat_ofNat, Nat.mod_eq_of_lt hlt]
  exact hmask

theorem readPart_high {off : Nat} (h : off % 8 = 4) (v : Word64) :
    readPart .w32 off v = BitVec.ofNat 64 (v.toNat / 2 ^ 32) := by
  have hlt : v.toNat / 2 ^ 32 < 2 ^ 64 := by omega
  rw [readPart, isHighHalf_high h, if_pos rfl]
  apply BitVec.eq_of_toNat_eq
  rw [BitVec.toNat_ushiftRight, Nat.shiftRight_eq_div_pow, BitVec.toNat_ofNat, Nat.mod_eq_of_lt hlt]

theorem toNat_writePart_low {off : Nat} (h : off % 8 = 0) (old v : Word64) :
    (writePart .w32 off old v).toNat = old.toNat / 2 ^ 32 * 2 ^ 32 + v.toNat % 2 ^ 32 := by
  have hparts : writePart .w32 off old v = old.extractLsb' 32 32 ++ trunc32 v := by
    rw [writePart, isHighHalf_low h]; rfl
  have hlt : old.toNat / 2 ^ 32 < 2 ^ 32 := by omega
  rw [hparts, toNat_append_eq_add, BitVec.extractLsb'_toNat, Nat.shiftRight_eq_div_pow, Nat.mod_eq_of_lt hlt,
    trunc32, BitVec.toNat_setWidth]

theorem toNat_writePart_high {off : Nat} (h : off % 8 = 4) (old v : Word64) :
    (writePart .w32 off old v).toNat = v.toNat % 2 ^ 32 * 2 ^ 32 + old.toNat % 2 ^ 32 := by
  have hparts : writePart .w32 off old v = trunc32 v ++ trunc32 old := by
    rw [writePart, isHighHalf_high h]; rfl
  rw [hparts, toNat_append_eq_add, trunc32, trunc32, BitVec.toNat_setWidth, BitVec.toNat_setWidth]

/-! ## Accesses, by what stands at the offset -/

section
variable {s : State} {w : Width} {off : Nat} {i : Fin 4} (hr : s.inReset = false)
  (ha : accessAllowed w off = true)
include hr ha

theorem windowRead_arg (h : windowReg off = .arg i) :
    windowRead s w off = some (readPart w off (s.args.get i), s) := by
  simp [windowRead, hr, ha, h]

theorem windowRead_res_idle (h : windowReg off = .res i) (hb : s.status.busy = false) :
    windowRead s w off = some (readPart w off (s.res.get i), s) := by
  simp [windowRead, hr, ha, h, hb]

theorem windowRead_res_busy (h : windowReg off = .res i) (hb : s.status.busy = true) :
    windowRead s w off = some (readPart w off (Config.freeWord s.free off), s.countDraw) := by
  simp [windowRead, hr, ha, h, hb]

theorem windowRead_reserved (h : windowReg off = .reserved) : windowRead s w off = some (0, s) := by
  simp [windowRead, hr, ha, h]

theorem windowWrite_arg_idle (h : windowReg off = .arg i) (hb : s.status.busy = false) (v : Word64) :
    windowWrite s w off v = some (s.setArg i (writePart w off (s.args.get i) v)) := by
  simp [windowWrite, hr, ha, h, hb]

/-- A write to `CMD` or to an `ARGi` while BUSY is dropped (R23). -/
theorem windowWrite_busy (h : windowReg off = .cmd ∨ ∃ i, windowReg off = .arg i) (hb : s.status.busy = true)
    (v : Word64) : windowWrite s w off v = some s.overrun := by
  obtain h | ⟨i, h⟩ := h <;> simp [windowWrite, hr, ha, h, hb]

theorem windowWrite_res (h : windowReg off = .res i) (v : Word64) : windowWrite s w off v = some s := by
  simp [windowWrite, hr, ha, h]

theorem windowWrite_reserved (h : windowReg off = .reserved) (v : Word64) :
    windowWrite s w off v = some s := by
  simp [windowWrite, hr, ha, h]

end

/-! ## The four ways into a 64-bit register: whole, and by halves -/

/-- A register that answers every access to its eight bytes with the part read is read whole, and by halves. -/
theorem windowRead_parts {s : State} {base high : Nat} {v : Word64} (hbase : base % 8 = 0) (hlow : 0x010 ≤ base)
    (hhigh : high = base + 4)
    (hread : ∀ w off, accessAllowed w off = true → base ≤ off → off < base + 8 →
      windowRead s w off = some (readPart w off v, s)) :
    windowRead s .w64 base = some (v, s) ∧
    windowRead s .w32 base = some (BitVec.ofNat 64 (v.toNat % 2 ^ 32), s) ∧
    windowRead s .w32 high = some (BitVec.ofNat 64 (v.toNat / 2 ^ 32), s) := by
  refine ⟨hread _ _ (accessAllowed_w64 hbase hlow) (by omega) (by omega), ?_, ?_⟩
  · rw [hread _ _ (accessAllowed_w32 (by omega)) (by omega) (by omega), readPart_low hbase]
  · rw [hread _ _ (accessAllowed_w32 (by omega)) (by omega) (by omega), readPart_high (by omega)]

theorem windowRead_arg_parts {s : State} (hr : s.inReset = false) (i : Fin 4) :
    windowRead s .w64 (0x010 + 8 * i.val) = some (s.args.get i, s) ∧
    windowRead s .w32 (0x010 + 8 * i.val) = some (BitVec.ofNat 64 ((s.args.get i).toNat % 2 ^ 32), s) ∧
    windowRead s .w32 (0x014 + 8 * i.val) = some (BitVec.ofNat 64 ((s.args.get i).toNat / 2 ^ 32), s) :=
  windowRead_parts (by omega) (by omega) (by omega) fun _ _ ha h h' =>
    windowRead_arg hr ha (windowReg_arg i h (by omega))

theorem windowRead_res_parts {s : State} (hr : s.inReset = false) (hb : s.status.busy = false) (i : Fin 4) :
    windowRead s .w64 (0x030 + 8 * i.val) = some (s.res.get i, s) ∧
    windowRead s .w32 (0x030 + 8 * i.val) = some (BitVec.ofNat 64 ((s.res.get i).toNat % 2 ^ 32), s) ∧
    windowRead s .w32 (0x034 + 8 * i.val) = some (BitVec.ofNat 64 ((s.res.get i).toNat / 2 ^ 32), s) :=
  windowRead_parts (by omega) (by omega) (by omega) fun _ _ ha h h' =>
    windowRead_res_idle hr ha (windowReg_res i h (by omega)) hb

/-! ## CMD, STATUS and PARAM -/

section
variable {s : State} (hr : s.inReset = false)
include hr

theorem windowRead_cmd : windowRead s .w32 0x000 = some (s.cmd.setWidth 64, s) := by
  simp [windowRead, hr, accessAllowed, windowReg]

theorem windowRead_status : windowRead s .w32 0x004 = some ((statusWord s.status).setWidth 64, s) := by
  simp [windowRead, hr, accessAllowed, windowReg]

theorem windowRead_param : windowRead s .w32 0x008 = some ((paramWord s).setWidth 64, s) := by
  simp [windowRead, hr, accessAllowed, windowReg]

theorem windowWrite_cmd_idle (hb : s.status.busy = false) (v : Word64) :
    windowWrite s .w32 0x000 v = some (s.accept (trunc32 v)) := by
  simp [windowWrite, hr, accessAllowed, windowReg, hb]

theorem windowWrite_status (v : Word64) :
    windowWrite s .w32 0x004 v = some { s with status := writeStatus s.status (trunc32 v) } := by
  simp [windowWrite, hr, accessAllowed, windowReg]

theorem windowWrite_param (v : Word64) : windowWrite s .w32 0x008 v = some s := by
  simp [windowWrite, hr, accessAllowed, windowReg]

end

theorem toNat_statusWord (st : Status) :
    (statusWord st).toNat = (codeBits st.err).toNat * 256 + st.ovr.toNat * 2 + st.busy.toNat := by
  rw [statusWord, toNat_append_eq_add, toNat_append_eq_add, toNat_append_eq_add, toNat_append_eq_add,
    BitVec.toNat_ofBool, BitVec.toNat_ofBool]
  simp only [BitVec.ofNat_eq_ofNat, BitVec.toNat_ofNat]
  omega

/-- A 1 in bit 1 clears OVR; a 0 leaves it (R22). -/
theorem writeStatus_eq (st : Status) (v : Word32) :
    writeStatus st v = ⟨st.busy, st.ovr && !v.getLsbD 1, st.err⟩ := by
  unfold writeStatus
  cases v.getLsbD 1 <;> simp

theorem getLsbD_trunc32 (v : Word64) {i : Nat} (hi : i < 32) : (trunc32 v).getLsbD i = v.getLsbD i := by
  simp [trunc32, hi]

theorem toNat_paramWord {s : State} (hs : s.sctx.length ≤ 256) (hv : s.vctx.length ≤ 256) :
    (paramWord s).toNat = 1 * 2 ^ 24 + 10 * 2 ^ 16 + (s.vctx.length - 1) * 2 ^ 8 + (s.sctx.length - 1) := by
  rw [paramWord, toNat_append_eq_add, toNat_append_eq_add, toNat_append_eq_add]
  simp only [numVector, numScalar, commandSetVersion, entropyAttempts, BitVec.toNat_ofNat, BitVec.ofNat_eq_ofNat]
  omega

/-! ## Host accesses (R20) -/

section
variable (s : State) (w : Width) {off : Nat} (h : off < 256)
include h

theorem meetsWindow_offset (p : Config.Params) : meetsWindow p (p.mmioBase.toNat + off) w.bytes = true := by
  have hbytes : 0 < w.bytes := by cases w <;> decide
  simp only [meetsWindow, Bool.and_eq_true, decide_eq_true_eq]
  omega

theorem inWindow_offset (p : Config.Params) : inWindow p (p.mmioBase.toNat + off) = true := by
  simpa [inWindow] using h

theorem hostStore_window (v : Word64) :
    hostStore s w (s.params.mmioBase.toNat + off) v = (windowWrite s w off v).elim .refused .done := by
  rw [hostStore, if_pos (meetsWindow_offset w h s.params), if_pos (inWindow_offset h s.params),
    Nat.add_sub_cancel_left]
  cases windowWrite s w off v <;> rfl

theorem hostLoad_window : hostLoad s w (s.params.mmioBase.toNat + off) =
    (windowRead s w off).elim .refused fun p => .value p.1 p.2 := by
  rw [hostLoad, if_pos (meetsWindow_offset w h s.params), if_pos (inWindow_offset h s.params),
    Nat.add_sub_cancel_left]
  cases windowRead s w off <;> rfl

end

theorem toNat_add_ofNat {base : Word64} {off : Nat} (hoff : off < 256) (h : base.toNat + off < 2 ^ 64) :
    (base + BitVec.ofNat 64 off).toNat = base.toNat + off := by
  rw [BitVec.toNat_add, BitVec.toNat_ofNat, Nat.mod_eq_of_lt (by omega : off < 2 ^ 64), Nat.mod_eq_of_lt h]

theorem loadRefused_frame (s : State) (r : Nat) : { s.loadRefused r with host := s.host } = s := by
  unfold State.loadRefused
  split <;> rfl

theorem storeRefused_frame (s : State) : { s.storeRefused with host := s.host } = s := by
  unfold State.storeRefused
  split <;> rfl

/-! ## The statements -/

/-- Settles O13: an address in the window is its offset again, for stores and for loads. -/
theorem hostAccessReachesWindow : Obligations.HostAccessReachesWindow := by
  intro s w off v r hoff hspace
  have haddr := toNat_add_ofNat hoff hspace
  refine ⟨?_, ?_, storeRefused_frame s, loadRefused_frame s r⟩
  · rw [hostExec, State.hostVal, State.hostVal, haddr, hostStore_window s w hoff]
    cases windowWrite s w off v <;> rfl
  · rw [hostExec, State.hostVal, haddr, hostLoad_window s w hoff]
    cases windowRead s w off <;> rfl

theorem overrun_of_busy {s : State} (hb : s.status.busy = true) :
    s.overrun = { s with status := ⟨true, true, s.status.err⟩ } := by
  simp only [State.overrun, hb]

/-- Settles O14: the registers a busy engine guards drop the write, the others are read as they stand. -/
theorem busyAccesses : Obligations.BusyAccesses := by
  intro s hb hr
  refine ⟨fun w off v href hoff => ?_, windowRead_cmd hr, windowRead_status hr, windowRead_param hr,
    windowRead_arg_parts hr, fun w off href h h' => ?_⟩
  · have hreg : windowReg off = .cmd ∨ ∃ i, windowReg off = .arg i :=
      hoff.imp (congrArg windowReg) fun ⟨h, h'⟩ => exists_windowReg_arg h h'
    rw [windowWrite_busy hr (accessAllowed_of_not_refused href) hreg hb, overrun_of_busy hb]
  · obtain ⟨i, hi⟩ := exists_windowReg_res h h'
    exact ⟨_, windowRead_res_busy hr (accessAllowed_of_not_refused href) hi hb⟩

/-- Settles O15: a half write keeps the other half. -/
theorem argHalvesWrittenAlone : Obligations.ArgHalvesWrittenAlone := by
  intro s i v hb hr
  have hwrite {w : Width} {off : Nat} (ha : accessAllowed w off = true) (h : 0x010 + 8 * i.val ≤ off)
      (h' : off < 0x018 + 8 * i.val) :=
    windowWrite_arg_idle hr ha (windowReg_arg i h h') hb v
  refine ⟨hwrite (accessAllowed_w64 (by omega) (by omega)) (by omega) (by omega),
    ⟨_, hwrite (accessAllowed_w32 (by omega)) (by omega) (by omega), toNat_writePart_low (by omega) _ _⟩,
    ⟨_, hwrite (accessAllowed_w32 (by omega)) (by omega) (by omega), toNat_writePart_high (by omega) _ _⟩,
    windowRead_arg_parts hr i⟩

/-- Settles O16: the fields of `STATUS` stand side by side, and only a 1 in bit 1 writes anything. -/
theorem statusReadAndClear : Obligations.StatusReadAndClear := by
  refine ⟨by decide, fun s v hr => ⟨?_, ?_⟩⟩
  · rw [windowRead_status hr, ← BitVec.ofNat_toNat, toNat_statusWord]
  · rw [windowWrite_status hr, writeStatus_eq, getLsbD_trunc32 v (by decide)]

/-- Settles O17: the fields of `PARAM` stand side by side. -/
theorem paramReadOnlyConstant : Obligations.ParamReadOnlyConstant := by
  intro s v hr _ hs _ hv
  refine ⟨?_, windowWrite_param hr v⟩
  rw [windowRead_param hr, ← BitVec.ofNat_toNat, toNat_paramWord hs hv]

/-- Settles O18: above the operands stand results and reserved offsets, and neither takes a write. -/
theorem resultsReadOnly : Obligations.ResultsReadOnly := by
  intro s w off v i hr
  refine ⟨fun hb => windowRead_res_parts hr hb i, fun href h _ => ?_, fun href hoff => ?_⟩
  · have ha := accessAllowed_of_not_refused href
    by_cases h' : off < 0x050
    · obtain ⟨j, hj⟩ := exists_windowReg_res h h'
      exact windowWrite_res hr ha hj v
    · exact windowWrite_reserved hr ha (windowReg_reserved (by omega)) v
  · have ha := accessAllowed_of_not_refused href
    have hreg : windowReg off = .reserved := hoff.elim (congrArg windowReg) fun h => windowReg_reserved h.1
    exact ⟨windowRead_reserved hr ha hreg, windowWrite_reserved hr ha hreg v⟩

/-- Settles O11: an idle engine takes the word, and `CMD` reads it back. -/
theorem cmdWriteAccepted : Obligations.CmdWriteAccepted := by
  intro s v hb hr
  have hword : (trunc32 v).toNat = v.toNat % 2 ^ 32 := BitVec.toNat_setWidth 32 v
  have hread : windowRead (s.accept (trunc32 v)) .w32 0x000 = _ := windowRead_cmd hr
  refine ⟨_, windowWrite_cmd_idle hr hb v, hword, rfl, rfl, ?_⟩
  rw [hread, State.accept_cmd, ← BitVec.ofNat_toNat, hword]

end Sys2Proof.Machine
end

section
/-! PROOFS. The command word that runs (30_encoding.md R53, R57), and what reset makes of the engine and of a running
command (70_reset_and_hazards.md R122, R123). -/

namespace Sys2Proof

/-! ## Decoded words -/

theorem decode_encode (i : Instr) : decode (encode i) = .ok i := by
  rw [decode, fieldRsv_encode, if_pos rfl, fieldOpc_encode, fieldCtx_encode]
  cases i <;> rfl

theorem tableWord_toNat (w : Word32) : tableWord 32 w.toNat = w := by
  rw [tableWord, Nat.mod_eq_of_lt w.isLt, BitVec.ofNat_toNat, BitVec.setWidth_eq]

theorem withoutCtx_ok {c : Ctx} {i j : Instr} (h : withoutCtx c i = .ok j) : c = 0 ∧ j = i := by
  unfold withoutCtx at h
  split at h
  · next hc => exact ⟨hc, (Decoded.ok.inj h).symm⟩
  · cases h

theorem decodeFields_ok {opc : BitVec 8} {c : Ctx} {i : Instr} (h : decodeFields opc c = .ok i) :
    i.opcode = opc ∧ i.ctxField = c := by
  unfold decodeFields at h
  split at h
  case h_1 hopc | h_7 hopc | h_8 hopc =>
    obtain ⟨rfl, rfl⟩ := withoutCtx_ok h
    exact ⟨BitVec.eq_of_toNat_eq hopc.symm, rfl⟩
  case h_11 => cases h
  all_goals
    obtain rfl := Decoded.ok.inj h
    exact ⟨BitVec.eq_of_toNat_eq (Eq.symm ‹_›), rfl⟩

/-- The fields of a word that decodes, as numbers. -/
theorem fields_of_decode {w : Word32} {i : Instr} (h : decode w = .ok i) :
    w.toNat % 256 = i.opcode.toNat ∧ w.toNat / 256 % 256 = i.ctxField.toNat ∧ w.toNat / 65536 = 0 := by
  unfold decode at h
  split at h
  · next hrsv =>
    obtain ⟨hopc, hctx⟩ := decodeFields_ok h
    have hhigh : (fieldRsv w).toNat = 0 := by rw [hrsv]; rfl
    rw [hopc, hctx]
    simp only [fieldRsv, fieldOpc, fieldCtx, BitVec.extractLsb'_toNat, Nat.shiftRight_eq_div_pow] at hhigh ⊢
    exact ⟨by omega, trivial, by omega⟩
  · cases h

end Sys2Proof

namespace Sys2Proof.Machine

/-- A word that decodes is illegal only for want of its context (R57 (c), (d)). -/
theorem wellFormed_eq_false_of_illegal {s : State} {w : Word32} {i : Instr} (h : IllegalWord s w)
    (hd : decode w = .ok i) : i.wellFormed s.sctx.length s.vctx.length = false := by
  obtain ⟨hopc, hctx, hrsv⟩ := fields_of_decode hd
  simp only [IllegalWord, hopc, hctx, hrsv] at h
  cases i <;> simp [Instr.opcode, Instr.ctxField, Instr.ctx?, Instr.wellFormed] at h ⊢ <;> exact h

/-! ## The engine's turn -/

theorem engineTurn_runs {s : State} {i : Instr} (hb : s.status.busy = true) (hr : s.inReset = false)
    (hd : decode s.cmd = .ok i) : engineTurn s = exec i s := by
  rw [engineTurn, hb, hr, State.command_eq, hd]
  rfl

theorem step_runs {s : State} {i : Instr} (hturn : s.nextTurn = .engine) (hb : s.status.busy = true)
    (hr : s.inReset = false) (hd : decode s.cmd = .ok i) : step s = exec i s.popTurn := by
  rw [step, hturn]
  exact engineTurn_runs hb hr hd

/-- Settles O6: a word placed by `withFetchWord` is an accepted one, with the engine to move. -/
theorem stepRunsDecodedCommand : Obligations.StepRunsDecodedCommand := by
  refine ⟨fun s i => step_runs, fun s i => ?_⟩
  rw [State.withFetchWord, tableWord_toNat]
  exact step_runs rfl rfl rfl (decode_encode i)

/-! ## The reset values (R37) -/

/-- Settles O8, by evaluation: the reset state is a literal. -/
theorem resetStateHasTableValues : Obligations.ResetStateHasTableValues :=
  ⟨rfl, rfl, rfl, rfl, rfl, rfl, by decide, by decide, rfl, by decide⟩

theorem step_releaseReset {s : State} (hturn : s.nextTurn = .releaseReset) (hr : s.inReset = true) :
    step s = .next { s.popTurn.resetRegisters with inReset := false } := by
  rw [step, hturn]
  exact congrArg Host.Outcome.next (if_pos hr)

theorem paramWord_resetRegisters (s : State) : paramWord s.resetRegisters = paramWord s := by
  simp [paramWord, numScalar, numVector]

/-- Settles O9: the release of reset writes the registers, and nothing around them. -/
theorem releasedResetGivesTableValues : Obligations.ReleasedResetGivesTableValues := by
  intro s hturn hr
  exact ⟨_, step_releaseReset hturn hr, rfl, rfl, rfl, rfl, List.length_map _,
    List.forall_mem_map.2 fun _ _ => rfl, List.length_map _, List.forall_mem_map.2 fun _ _ => rfl, rfl, rfl,
    paramWord_resetRegisters s, rfl, rfl, rfl, rfl, rfl⟩

/-! ## Attempts are only ever added to the port (R31) -/

theorem attempts_le_entropyDrawIn (n : Nat) (p : EntropyPort) : p.attempts ≤ (entropyDrawIn n p).2.attempts := by
  obtain ⟨-, e⟩ | ⟨v, j, -, -, e⟩ := entropyDrawIn_cases n p <;> rw [e] <;> exact Nat.le_add_right _ _

theorem attempts_le_afterDraw {α β : Type} {d : EntropyPort → Option α × EntropyPort}
    {k : α → EntropyPort → Option β × EntropyPort} (hd : ∀ p, p.attempts ≤ (d p).2.attempts)
    (hk : ∀ v p, p.attempts ≤ (k v p).2.attempts) (p : EntropyPort) :
    p.attempts ≤ (afterDraw d k p).2.attempts := by
  obtain ⟨-, e⟩ | ⟨v, -, e⟩ := afterDraw_cases d k p <;> rw [e]
  · exact hd p
  · exact (hd p).trans (hk v _)

theorem attempts_le_entropyScalar : ∀ p, p.attempts ≤ (entropyScalar p).2.attempts :=
  attempts_le_afterDraw (attempts_le_entropyDrawIn _) fun _ =>
    attempts_le_afterDraw (attempts_le_entropyDrawIn _) fun _ _ => le_rfl

theorem attempts_le_entropyLane : ∀ p, p.attempts ≤ (entropyLane p).2.attempts :=
  attempts_le_afterDraw (attempts_le_entropyDrawIn _) fun _ =>
    attempts_le_afterDraw (attempts_le_entropyDrawIn _) fun _ _ => le_rfl

theorem attempts_le_entropyVector : ∀ p, p.attempts ≤ (entropyVector p).2.attempts :=
  attempts_le_afterDraw attempts_le_entropyLane fun _ => attempts_le_afterDraw attempts_le_entropyLane fun _ =>
    attempts_le_afterDraw attempts_le_entropyLane fun _ => attempts_le_afterDraw attempts_le_entropyLane fun _ _ =>
      le_rfl

theorem Executed.attempts_le {i : Instr} {s t : State} (h : Executed s i t) :
    s.entropy.attempts ≤ t.entropy.attempts := by
  cases h with
  | initEntropy c x y p tr hx h0 hp | initFails c x p tr hx h0 hp =>
    have hle := attempts_le_entropyScalar s.entropy
    rwa [hp] at hle
  | vinitEntropy c x y p tr hx h0 hp | vinitFails c x p tr hx h0 hp =>
    have hle := attempts_le_entropyVector s.entropy
    rwa [hp] at hle
  | rejected | mix | initSeed | next | bounded | boundedRuns | bias | binomial | debias | debiasFails | autocorr
  | autocorrFails | vinitSeeds | vnext => exact le_rfl

/-! ## A command that reset ends (R123) -/

theorem initEffect_entropyPort {s : State} {c : Ctx} {x : ScalarCtx} (hx : s.scalar? c = some x)
    (h0 : s.args.v0 = 0) : (initEffect c s).entropy = (entropyScalar s.entropy).2 := by
  rw [initEffect_entropy hx h0]
  obtain ⟨p, tr, hp, e⟩ | ⟨y, p, tr, hp, e⟩ := initFromEntropy_cases s c x <;> rw [e, hp] <;> rfl

theorem vinitEffect_entropyPort {s : State} {c : Ctx} {x : VectorCtx} (hx : s.vector? c = some x)
    (h0 : s.args = Quad.all 0) : (vinitEffect c s).entropy = (entropyVector s.entropy).2 := by
  rw [vinitEffect_entropy hx h0]
  obtain ⟨p, tr, hp, e⟩ | ⟨y, p, tr, hp, e⟩ := vinitFromEntropy_cases s c x <;> rw [e, hp] <;> rfl

/-- An aborted command leaves the port alone, or its context exists and it gives up on the way to the port it would
have left. -/
theorem abortEffect_entropy (i : Instr) (s : State) : (abortEffect i s).entropy = s.entropy ∨
    (i.wellFormed s.sctx.length s.vctx.length = true ∧
      ∀ u, exec i s = .next u → (abortEffect i s).entropy = (s.abandonAttempts u.entropy).entropy) := by
  cases i with
  | init c =>
    rw [abortEffect]
    split
    · next hpath =>
      obtain ⟨hsome, hzero⟩ := Bool.and_eq_true_iff.1 hpath
      obtain ⟨x, hx⟩ := Option.isSome_iff_exists.1 hsome
      obtain ⟨hlt, -⟩ := List.getElem?_eq_some_iff.1 hx
      refine .inr ⟨decide_eq_true hlt, fun u hu => ?_⟩
      cases hu
      rw [initEffect_entropyPort hx (of_decide_eq_true hzero)]
    · exact .inl rfl
  | vinit c =>
    rw [abortEffect]
    split
    · next hpath =>
      obtain ⟨hsome, hzero⟩ := Bool.and_eq_true_iff.1 hpath
      obtain ⟨x, hx⟩ := Option.isSome_iff_exists.1 hsome
      obtain ⟨hlt, -⟩ := List.getElem?_eq_some_iff.1 hx
      refine .inr ⟨decide_eq_true hlt, fun u hu => ?_⟩
      cases hu
      rw [vinitEffect_entropyPort hx ((seedsZero_iff _).1 hzero)]
    · exact .inl rfl
  | debias => rw [abortEffect]; split <;> exact .inl rfl
  | mix | next | bounded | bias | binomial | autocorr | vnext => exact .inl rfl

theorem abortEffect_popTurn (i : Instr) (s : State) : abortEffect i s.popTurn = (abortEffect i s).popTurn := by
  cases i with
  | init | vinit | debias => rw [abortEffect, abortEffect, apply_ite State.popTurn]; rfl
  | mix | next | bounded | bias | binomial | autocorr | vnext => rfl

theorem abort_idle {s : State} (hb : s.status.busy = false) : s.abort = s := by
  simp [State.abort, hb]

theorem abort_ok {s : State} {i : Instr} (hb : s.status.busy = true) (hd : decode s.cmd = .ok i) :
    s.abort = abortEffect i s := by
  simp [State.abort, hb, hd]

theorem abort_undecoded {s : State} {e : DecodeError} (hd : decode s.cmd = .illegal e) : s.abort = s := by
  simp [State.abort, hd]

theorem abort_popTurn (s : State) : s.popTurn.abort = s.abort.popTurn := by
  cases hb : s.status.busy with
  | false => rw [abort_idle hb, abort_idle (s := s.popTurn) hb]
  | true =>
    cases hd : decode s.cmd with
    | ok i => rw [abort_ok hb hd, abort_ok (s := s.popTurn) hb hd, abortEffect_popTurn]
    | illegal e => rw [abort_undecoded hd, abort_undecoded (s := s.popTurn) hd]

theorem abort_entropy_of_illegal {s : State} (h : IllegalWord s s.cmd) : s.abort.entropy = s.entropy := by
  cases hb : s.status.busy with
  | false => rw [abort_idle hb]
  | true =>
    cases hd : decode s.cmd with
    | illegal e => rw [abort_undecoded hd]
    | ok i =>
      rw [abort_ok hb hd]
      refine (abortEffect_entropy i s).resolve_right fun ⟨hwf, _⟩ => ?_
      rw [wellFormed_eq_false_of_illegal h hd] at hwf
      cases hwf

/-- The port after an abort: some answers used up from the first one on, no more than the whole command uses. -/
theorem abort_entropy_le {s u : State} {i : Instr} (hb : s.status.busy = true) (hd : decode s.cmd = .ok i)
    (hu : exec i s = .next u) : ∃ n, s.abort.entropy = ⟨s.entropy.answers.drop n, s.entropy.attempts + n⟩ ∧
      s.entropy.attempts + n ≤ u.entropy.attempts := by
  have hmono := (exec_executed hu).attempts_le
  rw [abort_ok hb hd]
  obtain hsame | ⟨-, habandon⟩ := abortEffect_entropy i s
  · exact ⟨0, hsame, hmono⟩
  · obtain ⟨n, hn, e⟩ := abandonAttempts_entropy s u.entropy
    exact ⟨n, (habandon u hu).trans e, by omega⟩

/-- Settles O60: asserting reset leaves the port as the abort does. -/
theorem abortedCommandEntropyUse : Obligations.AbortedCommandEntropyUse := by
  intro s hturn
  have hstep : step s = .next s.popTurn.assertReset := by rw [step, hturn]
  have hport : s.popTurn.assertReset.entropy = s.abort.entropy := by
    show s.popTurn.abort.entropy = _
    rw [abort_popTurn, State.popTurn_entropy]
  refine ⟨_, hstep, ?_, fun i u hb hd hu => ?_⟩
  · rintro (hidle | hill)
    · rw [hport, abort_idle hidle]
    · rw [hport, abort_entropy_of_illegal hill]
  · obtain ⟨n, hn, hle⟩ := abort_entropy_le hb hd hu
    rw [hport, hn]
    exact ⟨n, rfl, hle⟩

end Sys2Proof.Machine
end

section
/-! PROOFS. Host memory (20_memory.md R38, R40, R41): which window accesses are refused, and the bytes of a word. -/

namespace Sys2Proof.Machine

/-! ## Refused accesses (R38, R122) -/

theorem accessAllowed_iff {w : Width} {off : Nat} : accessAllowed w off = true ↔ ¬RefusedAccess w off := by
  refine ⟨fun ha href => ?_, accessAllowed_of_not_refused⟩
  cases w with
  | w8 | w16 => cases ha
  | w32 => simp_all [accessAllowed, RefusedAccess]
  | w64 =>
    simp only [accessAllowed, RefusedAccess, Bool.and_eq_true, decide_eq_true_eq, reduceCtorEq, false_and, true_and,
      false_or] at ha href
    omega

/-- The one gate every access passes is closed by reset (R122), and to the accesses of R38. -/
theorem accessGate_eq_false_iff (s : State) (w : Width) (off : Nat) :
    (accessAllowed w off && !s.inReset) = false ↔ s.inReset = true ∨ RefusedAccess w off := by
  rw [Bool.and_eq_false_iff, Bool.not_eq_false', ← Bool.not_eq_true, accessAllowed_iff, not_not, or_comm]

theorem windowRead_eq_none_iff (s : State) (w : Width) (off : Nat) :
    windowRead s w off = none ↔ (accessAllowed w off && !s.inReset) = false := by
  unfold windowRead
  split
  · next ha =>
    rw [ha]
    split
    case h_5 => split <;> simp
    all_goals simp
  · next ha => simpa using ha

theorem windowWrite_eq_none_iff (s : State) (w : Width) (off : Nat) (v : Word64) :
    windowWrite s w off v = none ↔ (accessAllowed w off && !s.inReset) = false := by
  unfold windowWrite
  split
  · next ha => rw [ha]; split <;> simp
  · next ha => simpa using ha

/-- Settles O12: reads and writes of the window pass the same gate. -/
theorem refusedAccessesExactly : Obligations.RefusedAccessesExactly := fun s w off v _ =>
  ⟨(windowRead_eq_none_iff s w off).trans (accessGate_eq_false_iff s w off),
    (windowWrite_eq_none_iff s w off v).trans (accessGate_eq_false_iff s w off)⟩

/-! ## The bytes of a word (R40) -/

theorem readWord_writeWord {m : Memory} (h : m.wf) (a : Nat) (w : Word64) : readWord (writeWord m a w) a = w :=
  BitVec.eq_of_getLsbD_eq fun i hi => readWord_writeWord_bit h a w i hi

theorem byte_eq_extractLsb' (w : Word64) (j : Nat) : BitVec.ofNat 8 (w.toNat / 256 ^ j) = w.extractLsb' (8 * j) 8 := by
  rw [BitVec.extractLsb', Nat.shiftRight_eq_div_pow, pow_mul]
  rfl

theorem readByte_writeWord_inside {m : Memory} (h : m.wf) (a : Nat) (w : Word64) {j : Nat} (hj : j < 8) :
    readByte (writeWord m a w) (a + j) = w.extractLsb' (8 * j) 8 := by
  rw [writeWord, readByte_writeLE_inside a 8 _ j h hj, byte_eq_extractLsb']

theorem extractLsb'_readWord (m : Memory) (a : Nat) {j : Nat} (hj : j < 8) :
    (readWord m a).extractLsb' (8 * j) 8 = readByte m (a + j) := by
  refine BitVec.eq_of_getLsbD_eq fun i hi => ?_
  have hbit := testBit_readLE m a 8 (8 * j + i) (by omega)
  rw [show (8 * j + i) / 8 = j by omega, show (8 * j + i) % 8 = i by omega] at hbit
  rw [BitVec.getLsbD_extractLsb', readWord, BitVec.getLsbD_ofNat, hbit]
  simp [hi, show 8 * j + i < 64 by omega]

/-- Settles O19: the byte-wise laws of `writeLE` and `readLE`, at the eight bytes of a word. -/
theorem wordsAreLittleEndian : Obligations.WordsAreLittleEndian := fun m a w h =>
  ⟨writeWord_wf a w h, readWord_writeWord h a w,
    fun _ hj => ⟨readByte_writeWord_inside h a w hj, extractLsb'_readWord m a hj⟩,
    readByte_writeWord_outside m a w, bitRead_eq_byte m a⟩

end Sys2Proof.Machine
end

section
/-! PROOFS. Host stores and the barrier (20_memory.md R48, R49, 70_reset_and_hazards.md R127): what a byte stored to may
still read as, and what a command makes of it. -/

namespace Sys2Proof.Machine

/-! ## No step but a barrier orders a store -/

/-- Every value a byte may still read as in `s`, it may still read as in `t`. -/
def KeepsStaleValues (s t : State) : Prop :=
  ∀ a, ∀ v ∈ staleValues s.unfenced a, v ∈ staleValues t.unfenced a

theorem KeepsStaleValues.of_eq {s t : State} (h : t.unfenced = s.unfenced) : KeepsStaleValues s t :=
  fun _ _ hv => h ▸ hv

/-- Noting a store only adds values. -/
theorem keepsStaleValues_noteBytes {s t : State} {a n v : Nat}
    (h : t.unfenced = noteBytes s.mem a n v s.unfenced) : KeepsStaleValues s t := by
  intro b x hx
  rw [h, staleValues_noteBytes]
  split
  · exact List.mem_cons_of_mem _ (List.mem_cons_of_mem _ hx)
  · exact hx

theorem windowWrite_unfenced {s t : State} {w : Width} {off : Nat} {v : Word64}
    (h : windowWrite s w off v = some t) : t.unfenced = s.unfenced := by
  obtain ⟨-, -, rfl | ⟨-, rfl⟩ | ⟨-, rfl⟩ | rfl | ⟨i, -, rfl⟩⟩ := windowWrite_cases h <;> rfl

theorem hostStore_keepsStaleValues {s t : State} {w : Width} {a : Nat} {v : Word64}
    (h : hostStore s w a v = .done t) : KeepsStaleValues s t := by
  obtain ⟨-, hw⟩ | ⟨-, -, ⟨-, rfl⟩ | ⟨-, rfl⟩⟩ := hostStore_cases h
  · exact .of_eq (windowWrite_unfenced hw)
  · exact .of_eq rfl
  · exact keepsStaleValues_noteBytes rfl

theorem hostLoad_unfenced {s t : State} {w : Width} {a : Nat} {v : Word64} (h : hostLoad s w a = .value v t) :
    t.unfenced = s.unfenced := by
  obtain rfl | rfl := hostLoad_state h <;> rfl

theorem hostExec_keepsStaleValues {i : HostInstr} {s t : State} (hi : i ≠ .fence) (h : hostExec i s = .next t) :
    KeepsStaleValues s t := by
  cases i with
  | store w addr v =>
    rw [hostExec] at h
    cases hs : hostStore s w (s.hostVal addr).toNat (s.hostVal v) with
    | done u =>
      rw [hs] at h
      cases h
      show KeepsStaleValues s u
      exact hostStore_keepsStaleValues hs
    | refused => rw [hs] at h; cases h; exact .of_eq (congrArg State.unfenced (storeRefused_frame s) :)
    | stops f => rw [hs] at h; cases h
  | load w r addr =>
    rw [hostExec] at h
    cases hl : hostLoad s w (s.hostVal addr).toNat with
    | value v u =>
      rw [hl] at h
      cases h
      exact .of_eq (show u.unfenced = s.unfenced from hostLoad_unfenced hl)
    | refused => rw [hl] at h; cases h; exact .of_eq (congrArg State.unfenced (loadRefused_frame s r) :)
    | stops f => rw [hl] at h; cases h
  | fence => exact absurd rfl hi
  | bnz x target | bz x target => cases h; split <;> exact .of_eq rfl
  | li | and | shr | add | b => cases h; exact .of_eq rfl

theorem hostTurn_keepsStaleValues {s t : State}
    (hbarrier : ¬(s.host.stopped = false ∧ s.host.prog[s.host.pos]? = some .fence)) (h : hostTurn s = .next t) :
    KeepsStaleValues s t := by
  unfold hostTurn at h
  split at h
  · cases h; exact .of_eq rfl
  · next hrun =>
    split at h
    · cases h; exact .of_eq rfl
    · next i hi =>
      refine hostExec_keepsStaleValues (fun hfence => hbarrier ⟨by simpa using hrun, ?_⟩) h
      rw [hi, hfence]

theorem Executed.unfenced {i : Instr} {s t : State} (h : Executed s i t) : t.unfenced = s.unfenced := by
  cases h <;> rfl

theorem engineTurn_unfenced {s t : State} (h : engineTurn s = .next t) : t.unfenced = s.unfenced := by
  unfold engineTurn at h
  split at h
  · split at h
    · exact (exec_executed h).unfenced
    · cases h; rfl
  · cases h; rfl

theorem abortEffect_unfenced (i : Instr) (s : State) : (abortEffect i s).unfenced = s.unfenced := by
  cases i with
  | init | vinit | debias => rw [abortEffect]; split <;> rfl
  | mix | next | bounded | bias | binomial | autocorr | vnext => rfl

theorem assertReset_unfenced (s : State) : s.assertReset.unfenced = s.unfenced := by
  show s.abort.unfenced = _
  unfold State.abort
  split
  · split
    · exact abortEffect_unfenced _ s
    · rfl
  · rfl

theorem releaseReset_unfenced (s : State) : s.releaseReset.unfenced = s.unfenced := by
  unfold State.releaseReset
  split <;> rfl

theorem step_keepsStaleValues {s t : State} (h : step s = .next t)
    (hbarrier : ¬(s.nextTurn = .host ∧ s.host.stopped = false ∧ s.host.prog[s.host.pos]? = some .fence)) :
    KeepsStaleValues s t := by
  unfold step at h
  split at h
  · exact .of_eq (engineTurn_unfenced (s := s.popTurn) h)
  · next hturn => exact hostTurn_keepsStaleValues (s := s.popTurn) (fun hf => hbarrier ⟨hturn, hf⟩) h
  · cases h; exact .of_eq (assertReset_unfenced s.popTurn)
  · cases h; exact .of_eq (releaseReset_unfenced s.popTurn)
  · cases h; exact .of_eq rfl

/-! ## What a store to ordinary memory leaves -/

theorem mem_addAddress {a b : Nat} {l : List Nat} : b ∈ addAddress a l ↔ b = a ∨ b ∈ l := by
  unfold addAddress
  split
  · next h => exact (or_iff_right_of_imp fun e => e ▸ List.contains_iff_mem.1 h).symm
  · exact List.mem_cons

/-- At most eight bytes lie in the first word or in the last one. -/
theorem mem_disturbWords {a n j : Nat} (hj : j < n) (hn : n ≤ 8) (l : List Nat) :
    wordAddress (a + j) ∈ disturbWords a n l := by
  have hword : wordAddress (a + j) = wordAddress a ∨ wordAddress (a + j) = wordAddress (a + n - 1) := by
    unfold wordAddress
    omega
  rw [disturbWords, mem_addAddress, mem_addAddress]
  exact hword.imp_right .inl

theorem unsteady_of_disturbed {s : State} {a : Nat} (h : a ∈ s.disturbed) : unsteady s a = true := by
  simp [unsteady, h]

theorem Width.bytes_le (w : Width) : w.bytes ≤ 8 := by cases w <;> decide

/-- `s` after a host store to ordinary memory. -/
def State.stored (s : State) (w : Width) (a : Nat) (v : Word64) : State :=
  (s.noteStore a w.bytes v.toNat).setMem (writeLE s.mem a w.bytes v.toNat)

theorem hostStore_eq_stored {s t : State} {w : Width} {a : Nat} {v : Word64} (hwin : inWindow s.params a = false)
    (hdev : deviceAt s.regions a w.bytes = false) (h : hostStore s w a v = .done t) : t = s.stored w a v := by
  obtain ⟨hw, -⟩ | ⟨-, -, ⟨hd, -⟩ | ⟨-, e⟩⟩ := hostStore_cases h
  · rw [hwin] at hw; cases hw
  · rw [hdev] at hd; cases hd
  · exact e

section
variable {s : State} {w : Width} (a : Nat) (v : Word64)

theorem readByte_stored_inside {j : Nat} (hm : s.mem.wf) (hj : j < w.bytes) :
    readByte (s.stored w a v).mem (a + j) = BitVec.ofNat 8 (v.toNat / 256 ^ j) :=
  readByte_writeLE_inside a w.bytes v.toNat j hm hj

theorem readByte_stored_outside {b : Nat} (hb : b < a ∨ a + w.bytes ≤ b) :
    readByte (s.stored w a v).mem b = readByte s.mem b :=
  readByte_writeLE_outside s.mem a w.bytes v.toNat b hb

/-- A byte stored to may read as it now is, as it was, and as it could before. -/
theorem staleValues_stored_inside {j : Nat} (hj : j < w.bytes) :
    staleValues (s.stored w a v).unfenced (a + j) =
      BitVec.ofNat 8 (v.toNat / 256 ^ j) :: readByte s.mem (a + j) :: staleValues s.unfenced (a + j) := by
  have hnoted := staleValues_noteBytes s.mem a w.bytes v.toNat (a + j) s.unfenced
  rwa [if_pos (by omega), Nat.add_sub_cancel_left] at hnoted

theorem staleValues_stored_outside {b : Nat} (hb : b < a ∨ a + w.bytes ≤ b) :
    staleValues (s.stored w a v).unfenced b = staleValues s.unfenced b :=
  (staleValues_noteBytes s.mem a w.bytes v.toNat b s.unfenced).trans (if_neg (by omega))

theorem unsteady_stored {j : Nat} (hj : j < w.bytes) (hb : s.status.busy = true) :
    unsteady (s.stored w a v) (wordAddress (a + j)) = true := by
  have hdisturbed : (s.stored w a v).disturbed = disturbWords a w.bytes s.disturbed := if_pos hb
  exact unsteady_of_disturbed (hdisturbed ▸ mem_disturbWords hj w.bytes_le _)

end

/-! ## What a command reads, and what DEBIAS ORs into -/

/-- A bit of a steady word is that bit of one of the values of its byte. -/
theorem sourceBit_mem {s : State} {base i : Nat} (role : Nat) (h : unsteady s (bitWord base i) = false) :
    ∃ v ∈ readByte s.mem (base + i / 8) :: staleValues s.stale (base + i / 8),
      sourceBit s base role i = v.getLsbD (i % 8) := by
  rw [sourceBit, staleValues, h]
  cases staleAt? s.stale (base + i / 8) with
  | none => exact ⟨_, List.mem_cons_self, bitRead_eq_byte s.mem base i⟩
  | some r => exact ⟨_, pickByte_mem _ _ _, rfl⟩

/-- Memory after a DEBIAS that ends OK: the bits of its pass ORed into the settled destination. -/
theorem debias_mem_of_ok {s t : State} (h : exec .debias s = .next t) (hok : t.status.err = .ok) : t.mem =
    s.destAnyValue (unsteady s) (orOnes s.args.v2.toNat s.debiasPass.ones s.destSettled) := by
  cases exec_executed h with
  | rejected _ e hi he =>
    obtain rfl : e = .ok := hok
    obtain he | he | he := he <;> cases he
  | debiasFails => cases hok
  | debias => rfl

theorem debias_steady_mem {s t : State} (h : exec .debias s = .next t) (hok : t.status.err = .ok)
    (hdest : ∀ k, k < wordCount s.args.v3.toNat → unsteady s (s.args.v2.toNat + 8 * k) = false) :
    t.mem = orOnes s.args.v2.toNat s.debiasPass.ones s.destSettled :=
  (debias_mem_of_ok h hok).trans (overwriteWords_none _ _ _ _ _ hdest)

/-- Settles O20: a store adds values to the record of its bytes, a barrier alone empties it, and every reading picks
from it. -/
theorem storesNeedBarrier : Obligations.StoresNeedBarrier := by
  refine ⟨fun s w => ⟨rfl, rfl⟩, fun s w a => rfl, fun s t a h hbarrier => step_keepsStaleValues h hbarrier a,
    fun s t w a v hm hwin hdev h => ?_, fun s base role i h => sourceBit_mem role h,
    fun s t hm _ h hok hdest k hk => ?_⟩
  · obtain rfl := hostStore_eq_stored hwin hdev h
    refine ⟨fun j hj => ?_, fun b hb => ⟨readByte_stored_outside a v hb, staleValues_stored_outside a v hb⟩⟩
    rw [staleValues_stored_inside a v hj, readByte_stored_inside a v hm hj]
    exact ⟨rfl, .tail _ (.head _), .head _, unsteady_stored a v hj⟩
  · have hin : s.inDest (s.args.v2.toNat + k) = true := inDest_iff.2 (by omega)
    refine ⟨_, readByte_destSettled_mem hm hin, fun j hj => ?_⟩
    rw [debias_steady_mem h hok hdest, bitRead_orOnes (destSettled_wf hm), bitRead_eq_byte,
      show (8 * k + j) / 8 = k by omega, show (8 * k + j) % 8 = j by omega]

end Sys2Proof.Machine
end

section
/-! PROOFS. The data port (20_memory.md R44): the eight commands that name no buffer neither read nor write memory, and
do not see how it answers. -/

namespace Sys2Proof.Machine

/-- `s` with host memory, and the way it answers, replaced. -/
def State.withMemory (s : State) (m : Memory) (rs : List Region) : State := { s with mem := m, regions := rs }

@[simp] theorem State.withMemory_args (s : State) (m : Memory) (rs : List Region) :
    (s.withMemory m rs).args = s.args := rfl
@[simp] theorem State.withMemory_params (s : State) (m : Memory) (rs : List Region) :
    (s.withMemory m rs).params = s.params := rfl
@[simp] theorem State.withMemory_entropy (s : State) (m : Memory) (rs : List Region) :
    (s.withMemory m rs).entropy = s.entropy := rfl
@[simp] theorem State.withMemory_scalar? (s : State) (m : Memory) (rs : List Region) (c : Ctx) :
    (s.withMemory m rs).scalar? c = s.scalar? c := rfl
@[simp] theorem State.withMemory_vector? (s : State) (m : Memory) (rs : List Region) (c : Ctx) :
    (s.withMemory m rs).vector? c = s.vector? c := rfl

/-- The update neither reads nor writes memory, nor sees how it answers. -/
def MemoryBlind (f : State → State) : Prop := ∀ s m rs, f (s.withMemory m rs) = (f s).withMemory m rs

/-- A memory-blind update leaves memory as it was: it does so to a state whose memory is replaced by its own. -/
theorem MemoryBlind.mem {f : State → State} (hf : MemoryBlind f) (s : State) : (f s).mem = s.mem := by
  have hown : f s = (f s).withMemory s.mem s.regions := hf s s.mem s.regions
  rw [hown]
  rfl

theorem MemoryBlind.ite {c : State → Prop} [∀ s, Decidable (c s)] {f g : State → State}
    (hc : ∀ s m rs, c (s.withMemory m rs) ↔ c s) (hf : MemoryBlind f) (hg : MemoryBlind g) :
    MemoryBlind fun s => if c s then f s else g s := by
  intro s m rs
  dsimp only
  rw [hf, hg, apply_ite (State.withMemory · m rs)]
  exact if_congr (hc s m rs) rfl rfl

/-! ## The checks of a command (R114) -/

theorem MemoryBlind.requireOperands {ok : State → Bool} {f : State → State}
    (hok : ∀ s m rs, ok (s.withMemory m rs) = ok s) (hf : MemoryBlind f) :
    MemoryBlind fun s => requireOperands s (ok s) (f s) :=
  .ite (fun s m rs => by rw [hok]) hf fun _ _ _ => rfl

section
variable (c : Ctx)

theorem MemoryBlind.withScalar {k : State → ScalarCtx → State} (hk : ∀ x, MemoryBlind (k · x)) :
    MemoryBlind fun s => withScalar s c (k s) := by
  intro s m rs
  simp only [Machine.withScalar, State.withMemory_scalar?]
  cases s.scalar? c with
  | none => rfl
  | some x => exact hk x s m rs

theorem MemoryBlind.withVector {k : State → VectorCtx → State} (hk : ∀ x, MemoryBlind (k · x)) :
    MemoryBlind fun s => withVector s c (k s) := by
  intro s m rs
  simp only [Machine.withVector, State.withMemory_vector?]
  cases s.vector? c with
  | none => rfl
  | some x => exact hk x s m rs

theorem MemoryBlind.withValidScalar {k : State → ScalarCtx → State} (hk : ∀ x, MemoryBlind (k · x)) :
    MemoryBlind fun s => withValidScalar s c (k s) :=
  .withScalar c fun x => .ite (fun _ _ _ => Iff.rfl) (hk x) fun _ _ _ => rfl

theorem MemoryBlind.withValidVector {k : State → VectorCtx → State} (hk : ∀ x, MemoryBlind (k · x)) :
    MemoryBlind fun s => withValidVector s c (k s) :=
  .withVector c fun x => .ite (fun _ _ _ => Iff.rfl) (hk x) fun _ _ _ => rfl

/-! ## The eight commands -/

theorem memoryBlind_initFromEntropy (old : ScalarCtx) : MemoryBlind (initFromEntropy · c old) := by
  intro s m rs
  simp only [initFromEntropy, State.withMemory_entropy]
  rcases entropyScalar s.entropy with ⟨_ | x, p⟩ <;> rfl

theorem memoryBlind_vinitFromEntropy (old : VectorCtx) : MemoryBlind (vinitFromEntropy · c old) := by
  intro s m rs
  simp only [vinitFromEntropy, State.withMemory_entropy]
  rcases entropyVector s.entropy with ⟨_ | x, p⟩ <;> rfl

theorem memoryBlind_mixEffect : MemoryBlind mixEffect := fun _ _ _ => rfl

theorem memoryBlind_initEffect : MemoryBlind (initEffect c) :=
  .withScalar c fun old =>
    .ite (fun _ _ _ => Iff.rfl) (fun _ _ _ => rfl) (memoryBlind_initFromEntropy c old)

theorem memoryBlind_nextEffect : MemoryBlind (nextEffect c) := .withValidScalar c fun _ _ _ _ => rfl

theorem memoryBlind_boundedEffect : MemoryBlind (boundedEffect c) := by
  refine .withValidScalar c fun x => .requireOperands (fun _ _ _ => rfl) fun s m rs => ?_
  simp only [State.arg0_eq, State.arg1_eq, State.withMemory_params, State.withMemory_args]
  cases rejectionLoop s.params (s.args.v1 - s.args.v0) (maskOf (s.args.v1 - s.args.v0)) drawsBeforeRepeat x <;> rfl

theorem memoryBlind_biasEffect : MemoryBlind (biasEffect c) :=
  .withValidScalar c fun _ => .requireOperands (fun _ _ _ => rfl) fun _ _ _ => rfl

theorem memoryBlind_binomialEffect : MemoryBlind (binomialEffect c) :=
  .withValidScalar c fun _ => .requireOperands (fun _ _ _ => rfl) fun _ _ _ => rfl

theorem memoryBlind_vinitEffect : MemoryBlind (vinitEffect c) :=
  .withVector c fun old =>
    .ite (fun _ _ _ => Iff.rfl) (fun _ _ _ => rfl)
      (.ite (fun _ _ _ => Iff.rfl) (memoryBlind_vinitFromEntropy c old) fun _ _ _ => rfl)

theorem memoryBlind_vnextEffect : MemoryBlind (vnextEffect c) := .withValidVector c fun _ _ _ _ => rfl

end

/-- Every command but DEBIAS and AUTOCORR answers with a memory-blind update. -/
theorem exec_memoryBlind {i : Instr} (hd : i ≠ .debias) (ha : i ≠ .autocorr) :
    ∃ f, MemoryBlind f ∧ ∀ s, exec i s = .next (f s) := by
  cases i with
  | mix => exact ⟨_, memoryBlind_mixEffect, fun _ => rfl⟩
  | init c => exact ⟨_, memoryBlind_initEffect c, fun _ => rfl⟩
  | next c => exact ⟨_, memoryBlind_nextEffect c, fun _ => rfl⟩
  | bounded c => exact ⟨_, memoryBlind_boundedEffect c, fun _ => rfl⟩
  | bias c => exact ⟨_, memoryBlind_biasEffect c, fun _ => rfl⟩
  | binomial c => exact ⟨_, memoryBlind_binomialEffect c, fun _ => rfl⟩
  | debias => exact absurd rfl hd
  | autocorr => exact absurd rfl ha
  | vinit c => exact ⟨_, memoryBlind_vinitEffect c, fun _ => rfl⟩
  | vnext c => exact ⟨_, memoryBlind_vnextEffect c, fun _ => rfl⟩

/-- Settles O25: a memory-blind update commutes with any change of memory, so leaves it alone. -/
theorem onlyBufferCommandsUseMemory : Obligations.OnlyBufferCommandsUseMemory := by
  intro i s t m rs hd ha h
  obtain ⟨f, hf, he⟩ := exec_memoryBlind hd ha
  obtain rfl := Host.Outcome.next.inj ((he s).symm.trans h)
  exact ⟨hf.mem s, (he _).trans (congrArg Host.Outcome.next (hf s m rs))⟩

end Sys2Proof.Machine
end

section
/-! PROOFS. Error responses on the data port (20_memory.md R45, 60_exceptions.md R112): an access that a buffer command
needs and that errs ends it with BUS_ERROR. -/

namespace Sys2Proof.Machine

/-! ## Ranges -/

theorem meetsKind_mono {rs : List Region} {p : RegionKind → Bool} {a len b len' : Nat}
    (h : meetsKind rs p a len = true) (hstart : b ≤ a) (hend : a + len ≤ b + len') :
    meetsKind rs p b len' = true := by
  simp only [meetsKind, List.any_eq_true, Bool.and_eq_true, Region.meets, decide_eq_true_eq] at h ⊢
  obtain ⟨r, hr, hkind, hlow, hhigh⟩ := h
  exact ⟨r, hr, hkind, by omega, by omega⟩

theorem readErrs_mono {rs : List Region} {a len b len' : Nat} (h : readErrs rs a len = true) (hstart : b ≤ a)
    (hend : a + len ≤ b + len') : readErrs rs b len' = true :=
  meetsKind_mono h hstart hend

/-! ## The pass of DEBIAS on a steady source -/

theorem emittedBits_congr {bit bit' : Nat → Bool} {p : Nat} (h : ∀ i, i < 2 * p → bit i = bit' i) :
    emittedBits bit p = emittedBits bit' p := by
  refine List.filterMap_congr fun j hj => ?_
  have hj := List.mem_range.1 hj
  rw [h (2 * j) (by omega), h (2 * j + 1) (by omega)]

/-- On a steady source the pass comes to the pairs of the source in memory, as long as there is room for bits. -/
theorem debiasPass_reaches_steady {s : State} {p : Nat} (hsrc : SteadyBuffer s s.args.v0.toNat s.args.v1.toNat)
    (heven : s.args.v1.toNat % 2 ≠ 1) (hp : 2 * p < s.args.v1.toNat)
    (hroom : (emittedBits (bitRead s.mem s.args.v0.toNat) p).length < s.args.v3.toNat) :
    2 * p + 2 ≤ s.debiasPass.used ∧
      (bitRead s.mem s.args.v0.toNat (2 * p) = false → bitRead s.mem s.args.v0.toNat (2 * p + 1) = true →
        (emittedBits (bitRead s.mem s.args.v0.toNat) p).length ∈ s.debiasPass.ones) := by
  have hbit {i : Nat} (hi : i < s.args.v1.toNat) :
      sourceBit s s.args.v0.toNat 0 i = bitRead s.mem s.args.v0.toNat i := sourceBit_steady 0 hsrc hi
  rw [← emittedBits_congr fun i hi => hbit (by omega)] at hroom ⊢
  rw [← hbit (by omega), ← hbit (by omega)]
  exact debiasPass_reaches _ hp hroom

/-! ## Accesses that DEBIAS needs -/

section
variable {s : State} {r : DebiasRun} {after : Memory}

theorem debiasBusError_of_needed (h : debiasNeedsBadAccess s r after = true) : debiasBusError s r after = true := by
  rw [debiasBusError, h, Bool.true_or]

/-- A source word up to the read cursor errs. -/
theorem debiasBusError_of_source {a : Nat} (h : readErrs s.regions a 8 = true) (hstart : s.args.v0.toNat ≤ a)
    (hend : a + 8 ≤ s.args.v0.toNat + 8 * wordCount r.used) : debiasBusError s r after = true :=
  debiasBusError_of_needed (Bool.or_eq_true_iff.2 (.inl (readErrs_mono h hstart hend)))

/-- The destination word of a 1 errs: its read, or its write where the word changes. -/
theorem debiasBusError_of_one {w : Nat} (hw : w ∈ r.ones)
    (h : readErrs s.regions (bitWord s.args.v2.toNat w) 8 = true ∨
      (writeErrs s.regions (bitWord s.args.v2.toNat w) 8 = true ∧
        unsteady s (bitWord s.args.v2.toNat w) = false ∧
        readWord after (bitWord s.args.v2.toNat w) ≠ readWord s.destSettled (bitWord s.args.v2.toNat w))) :
    debiasBusError s r after = true := by
  refine debiasBusError_of_needed (Bool.or_eq_true_iff.2 (.inr (List.any_eq_true.2 ⟨w, hw, ?_⟩)))
  refine Bool.or_eq_true_iff.2 (h.imp_right fun ⟨hwrite, hsteady, hne⟩ => ?_)
  exact Bool.and_eq_true_iff.2 ⟨Bool.and_eq_true_iff.2 ⟨hwrite, congrArg not hsteady⟩, decide_eq_true hne⟩

end

/-- Where the pass sets a bit that is 0 in a steady destination, the word of that bit changes. -/
theorem readWord_orOnes_ne {s : State} (hm : s.mem.wf) (hdest : SteadyBuffer s s.args.v2.toNat s.args.v3.toNat)
    {ones : List Nat} {w : Nat} (hw : w ∈ ones) (hzero : bitRead s.mem s.args.v2.toNat w = false) :
    readWord (orOnes s.args.v2.toNat ones s.destSettled) (bitWord s.args.v2.toNat w) ≠
      readWord s.destSettled (bitWord s.args.v2.toNat w) := by
  rw [destSettled_steady hdest]
  intro heq
  have hset : bitRead (orOnes s.args.v2.toNat ones s.mem) s.args.v2.toNat w = true := by
    rw [bitRead_orOnes hm, decide_eq_true hw, Bool.or_true]
  rw [bitRead, heq] at hset
  exact Bool.false_ne_true (hzero.symm.trans hset)

/-! ## A bus error ends the command (R112) -/

theorem readByte_destAnyValue_outside (s : State) (pick : Nat → Bool) (m : Memory) (a : Nat)
    (ha : ¬(s.args.v2.toNat ≤ a ∧ a < s.args.v2.toNat + 8 * wordCount s.args.v3.toNat)) :
    readByte (s.destAnyValue pick m) a = readByte m a :=
  readByte_overwriteWords_outside _ _ _ _ _ a (by rw [State.arg2_eq, State.arg3_eq]; omega)

theorem autocorr_busError {s : State} (hn : ¬PreconditionFails s .autocorr)
    (hb : readErrs s.regions s.args.v0.toNat (8 * wordCount s.args.v1.toNat) = true) :
    ∃ tr, exec .autocorr s = .next (((s.running tr).countDraw).complete .busError) :=
  ⟨_, congrArg Host.Outcome.next ((autocorrEffect_ok hn).trans (if_pos hb))⟩

theorem debias_busError {s : State} (hn : ¬PreconditionFails s .debias)
    (hb : debiasBusError s s.debiasPass (orOnes s.args.v2.toNat s.debiasPass.ones s.destSettled) = true) :
    ∃ tr, exec .debias s =
      .next ((((s.running tr).countDraw).setMem (s.destAnyValue (fun _ => true) s.mem)).complete .busError) :=
  ⟨_, congrArg Host.Outcome.next ((debiasEffect_ok hn).trans (if_pos hb))⟩

/-- What R109 asks of the bit counts of a DEBIAS in range. -/
theorem debias_counts {s : State} (hn : ¬PreconditionFails s .debias) :
    s.args.v1.toNat ≠ 0 ∧ s.args.v1.toNat % 2 ≠ 1 ∧ s.args.v3.toNat ≠ 0 := by
  simp only [PreconditionFails, not_or] at hn
  obtain ⟨hsrc, heven, hdest, -⟩ := hn
  exact ⟨hsrc, heven, hdest⟩

/-- Every DEBIAS in range reads its first source word. -/
theorem debiasBusError_of_firstWord {s : State} (hn : ¬PreconditionFails s .debias)
    (h : readErrs s.regions s.args.v0.toNat 8 = true) (after : Memory) :
    debiasBusError s s.debiasPass after = true := by
  obtain ⟨hsrc, -, hdest⟩ := debias_counts hn
  have hused : 2 ≤ s.debiasPass.used :=
    (debiasPass_reaches (p := 0) _ (Nat.pos_of_ne_zero hsrc) (Nat.pos_of_ne_zero hdest)).1
  exact debiasBusError_of_source h le_rfl (by unfold wordCount; omega)

/-- Settles O51: an access the pass needs and that errs is among those `debiasBusError` looks at. -/
theorem busErrorReported : Obligations.BusErrorReported := by
  intro s
  refine ⟨fun hn hb => ?_, fun hn hcase => ?_⟩
  · obtain ⟨tr, e⟩ := autocorr_busError hn hb
    exact ⟨_, e, .of_complete _ rfl rfl rfl rfl rfl rfl rfl rfl rfl, rfl, rfl, rfl, rfl, rfl⟩
  · have hb : debiasBusError s s.debiasPass (orOnes s.args.v2.toNat s.debiasPass.ones s.destSettled) = true := by
      obtain hfirst | ⟨hm, hsrc, hdest, p, hp, hroom, hacc⟩ := hcase
      · exact debiasBusError_of_firstWord hn hfirst _
      · obtain ⟨hused, hones⟩ := debiasPass_reaches_steady hsrc (debias_counts hn).2.1 hp hroom
        obtain hread | ⟨h0, h1, hword⟩ := hacc
        · exact debiasBusError_of_source hread (by unfold bitWord; omega) (by unfold bitWord wordCount; omega)
        · have hw := hones h0 h1
          refine debiasBusError_of_one hw (hword.imp_right fun ⟨hwrite, hzero⟩ => ⟨hwrite, ?_, ?_⟩)
          · exact hdest.1 _ (by unfold wordCount; omega)
          · exact readWord_orOnes_ne hm hdest hw hzero
    obtain ⟨tr, e⟩ := debias_busError hn hb
    exact ⟨_, e, .of_complete _ rfl rfl rfl rfl rfl rfl rfl rfl rfl, rfl, rfl, rfl, rfl,
      readByte_destAnyValue_outside s (fun _ => true) s.mem⟩

end Sys2Proof.Machine
end

section
/-! PROOFS. Command words (30_encoding.md R53-R58): encoding and decoding undo each other, and the engine reports
ILLEGAL_COMMAND for exactly the words of R57. -/

namespace Sys2Proof

/-! ## The fields of a word -/

/-- The word is `(N << 8) | OPC` (R53, R58). -/
theorem encode_toNat (i : Instr) : (encode i).toNat = i.ctxField.toNat * 256 + i.opcode.toNat := by
  obtain ⟨hopc, hctx, hrsv⟩ := fields_of_decode (decode_encode i)
  omega

/-- Laid out as bytes, lowest address first, a word is read back whole (R38). -/
theorem wordOfBytes_extractLsb' (w : Word32) : wordOfBytes (w.extractLsb' 0 8) (w.extractLsb' 8 8)
    (w.extractLsb' 16 8) (w.extractLsb' 24 8) = w := by
  have h16 : w.extractLsb' 24 8 ++ w.extractLsb' 16 8 = w.extractLsb' 16 16 :=
    BitVec.extractLsb'_append_extractLsb'_eq_extractLsb' rfl
  have h8 : w.extractLsb' 16 16 ++ w.extractLsb' 8 8 = w.extractLsb' 8 24 :=
    BitVec.extractLsb'_append_extractLsb'_eq_extractLsb' rfl
  have h0 : w.extractLsb' 8 24 ++ w.extractLsb' 0 8 = w.extractLsb' 0 32 :=
    BitVec.extractLsb'_append_extractLsb'_eq_extractLsb' rfl
  rw [wordOfBytes, h16, h8, h0, BitVec.extractLsb'_eq_self]

theorem decodeTableWord_of_decode {w : Word32} {i : Instr} (h : decode w = .ok i) :
    decodeTableWord 32 w.toNat = some i := by
  rw [decodeTableWord, tableWord_toNat]
  simp only [decodeBytes, wordOfBytes_extractLsb', h]

/-- Settles O1: the decoder reads back the three fields the encoder writes. -/
theorem decodeOfEncode : Obligations.DecodeOfEncode := fun i =>
  ⟨decode_encode i, decodeTableWord_of_decode (decode_encode i), encode_toNat i⟩

/-- Settles O2: the three fields of a word that decodes are those of its command, and they are all of its bits. -/
theorem encodeOfDecode : Obligations.EncodeOfDecode := by
  intro w i h
  obtain ⟨hopc, hctx, hrsv⟩ := fields_of_decode h
  apply BitVec.eq_of_toNat_eq
  rw [encode_toNat]
  omega

/-- Settles O3, by evaluation: the words are literals. -/
theorem encodingVectorsDecode : Obligations.EncodingVectorsDecode := by
  unfold Obligations.EncodingVectorsDecode
  decide

/-! ## Words the decoder turns away -/

theorem withoutCtx_illegal {c : Ctx} {i : Instr} {e : DecodeError} (h : withoutCtx c i = .illegal e) :
    c.toNat ≠ 0 := by
  unfold withoutCtx at h
  split at h
  · cases h
  · next hc => exact fun h0 => hc (BitVec.eq_of_toNat_eq h0)

/-- What the opcode map turns away: an opcode out of the table, or a CTX that must be 0 (R57 (a), (e)). -/
theorem decodeFields_illegal {opc : BitVec 8} {c : Ctx} {e : DecodeError} (h : decodeFields opc c = .illegal e) :
    (opc.toNat = 0 ∨ 0x0B ≤ opc.toNat) ∨
      ((opc.toNat = 1 ∨ opc.toNat = 7 ∨ opc.toNat = 8) ∧ c.toNat ≠ 0) := by
  unfold decodeFields at h
  split at h
  case h_1 hopc | h_7 hopc | h_8 hopc => exact .inr ⟨by omega, withoutCtx_illegal h⟩
  case h_11 =>
    simp only [imp_false] at *
    omega
  all_goals cases h

end Sys2Proof

namespace Sys2Proof.Machine

/-! ## The words of R57 -/

/-- A word the decoder turns away is illegal on every engine (R57 (a), (b), (e)). -/
theorem illegalWord_of_undecoded {w : Word32} {e : DecodeError} (s : State) (h : decode w = .illegal e) :
    IllegalWord s w := by
  unfold decode at h
  split at h
  · have hfields := decodeFields_illegal h
    simp only [fieldOpc, fieldCtx, BitVec.extractLsb'_toNat, Nat.shiftRight_eq_div_pow] at hfields
    simp only [IllegalWord]
    omega
  · next hrsv =>
    refine .inr (.inl fun hzero => hrsv (BitVec.eq_of_toNat_eq ?_))
    rw [fieldRsv, BitVec.extractLsb'_toNat, Nat.shiftRight_eq_div_pow]
    simpa using congrArg (· % 65536) hzero

/-- A word that is not illegal decodes, to a command whose context exists. -/
theorem decode_of_not_illegalWord {s : State} {w : Word32} (h : ¬IllegalWord s w) :
    ∃ i, decode w = .ok i ∧ i.wellFormed s.sctx.length s.vctx.length = true := by
  cases hd : decode w with
  | illegal e => exact absurd (illegalWord_of_undecoded s hd) h
  | ok i =>
    refine ⟨i, rfl, ?_⟩
    obtain ⟨hopc, hctx, hrsv⟩ := fields_of_decode hd
    simp only [IllegalWord, hopc, hctx, hrsv] at h
    cases i <;> simp [Instr.opcode, Instr.ctxField, Instr.ctx?, Instr.wellFormed] at h ⊢ <;> exact h

/-! ## A context that is missing -/

section
variable {s : State} {c : Ctx}

theorem withScalar_missing (hc : s.sctx.length ≤ c.toNat) (k : ScalarCtx → State) :
    withScalar s c k = s.complete .illegalCommand := by
  rw [withScalar, State.scalar?, List.getElem?_eq_none hc]
  rfl

theorem withVector_missing (hc : s.vctx.length ≤ c.toNat) (k : VectorCtx → State) :
    withVector s c k = s.complete .illegalCommand := by
  rw [withVector, State.vector?, List.getElem?_eq_none hc]
  rfl

end

/-- A command whose context is missing ends at once (R57 (c), (d)). -/
theorem exec_of_missing_context {s : State} {i : Instr} (h : i.wellFormed s.sctx.length s.vctx.length = false) :
    exec i s = .next (s.complete .illegalCommand) := by
  cases i with
  | mix | debias | autocorr => cases h
  | init c | next c | bounded c | bias c | binomial c =>
    exact congrArg Host.Outcome.next (withScalar_missing (not_lt.1 (of_decide_eq_false h)) _)
  | vinit c | vnext c =>
    exact congrArg Host.Outcome.next (withVector_missing (not_lt.1 (of_decide_eq_false h)) _)

theorem step_undecoded {s : State} {e : DecodeError} (hturn : s.nextTurn = .engine) (hb : s.status.busy = true)
    (hr : s.inReset = false) (hd : decode s.cmd = .illegal e) :
    step s = .next (s.popTurn.complete .illegalCommand) := by
  rw [step, hturn]
  simp [engineTurn, hb, hr, hd]

/-- An illegal word is turned away by the decoder, or by the command for want of its context. -/
theorem step_illegalWord {s : State} (hturn : s.nextTurn = .engine) (hb : s.status.busy = true)
    (hr : s.inReset = false) (h : IllegalWord s s.cmd) : step s = .next (s.popTurn.complete .illegalCommand) := by
  cases hd : decode s.cmd with
  | illegal e => exact step_undecoded hturn hb hr hd
  | ok i =>
    rw [step_runs hturn hb hr hd]
    exact exec_of_missing_context (wellFormed_eq_false_of_illegal h hd)

/-- Settles O4: the step is the bare completion with ILLEGAL_COMMAND. -/
theorem illegalWordReported : Obligations.IllegalWordReported := fun s hturn hb hr h =>
  ⟨_, step_illegalWord hturn hb hr h, completedFrom_complete s.popTurn _, rfl, rfl, rfl, rfl, rfl, rfl⟩

/-! ## A context that exists -/

section
variable {s : State} {c : Ctx}

theorem withScalar_err_ne_illegal (hc : c.toNat < s.sctx.length) {k : ScalarCtx → State}
    (hk : ∀ x, (k x).status.err ≠ .illegalCommand) : (withScalar s c k).status.err ≠ .illegalCommand := by
  rw [withScalar_some k (List.getElem?_eq_getElem hc)]
  exact hk _

theorem withVector_err_ne_illegal (hc : c.toNat < s.vctx.length) {k : VectorCtx → State}
    (hk : ∀ x, (k x).status.err ≠ .illegalCommand) : (withVector s c k).status.err ≠ .illegalCommand := by
  rw [withVector_some k (List.getElem?_eq_getElem hc)]
  exact hk _

theorem withValidScalar_err_ne_illegal (hc : c.toNat < s.sctx.length) {k : ScalarCtx → State}
    (hk : ∀ x, (k x).status.err ≠ .illegalCommand) : (withValidScalar s c k).status.err ≠ .illegalCommand := by
  refine withScalar_err_ne_illegal hc fun x => ?_
  split
  · exact hk x
  · nofun

theorem requireOperands_err_ne_illegal {ok : Bool} {k : State} (hk : k.status.err ≠ .illegalCommand) :
    (requireOperands s ok k).status.err ≠ .illegalCommand := by
  obtain ⟨-, e⟩ | ⟨-, e⟩ := requireOperands_cases s k ok <;> rw [e]
  · nofun
  · exact hk

theorem initEffect_err_ne_illegal (hc : c.toNat < s.sctx.length) : (initEffect c s).status.err ≠ .illegalCommand := by
  refine withScalar_err_ne_illegal hc fun x => ?_
  split
  · nofun
  · obtain ⟨p, tr, -, e⟩ | ⟨y, p, tr, -, e⟩ := initFromEntropy_cases s c x <;> rw [e] <;> nofun

theorem vinitEffect_err_ne_illegal (hc : c.toNat < s.vctx.length) :
    (vinitEffect c s).status.err ≠ .illegalCommand := by
  refine withVector_err_ne_illegal hc fun x => ?_
  split
  · nofun
  · split
    · obtain ⟨p, tr, -, e⟩ | ⟨y, p, tr, -, e⟩ := vinitFromEntropy_cases s c x <;> rw [e] <;> nofun
    · nofun

theorem vnextEffect_err_ne_illegal (hc : c.toNat < s.vctx.length) :
    (vnextEffect c s).status.err ≠ .illegalCommand := by
  refine withVector_err_ne_illegal hc fun x => ?_
  split <;> nofun

/-- A BOUNDED that goes on for ever leaves ERR alone (R101). -/
theorem boundedEffect_err_ne_illegal (hc : c.toNat < s.sctx.length) (herr : s.status.err = .ok) :
    (boundedEffect c s).status.err ≠ .illegalCommand := by
  refine withValidScalar_err_ne_illegal hc fun x => requireOperands_err_ne_illegal ?_
  dsimp only
  split
  · nofun
  · rw [State.running_status, herr]
    nofun

theorem debiasEffect_err_ne_illegal : (debiasEffect s).status.err ≠ .illegalCommand := by
  refine requireOperands_err_ne_illegal ?_
  dsimp only
  split <;> nofun

theorem autocorrResult_code_ne_illegal (n x1 x2 : Nat) : (autocorrResult n x1 x2).2 ≠ .illegalCommand := by
  unfold autocorrResult
  dsimp only
  split
  · nofun
  · split <;> nofun

theorem autocorrEffect_err_ne_illegal : (autocorrEffect s).status.err ≠ .illegalCommand := by
  refine requireOperands_err_ne_illegal ?_
  dsimp only
  split
  · nofun
  · exact autocorrResult_code_ne_illegal _ _ _

/-- A command whose context exists does not report ILLEGAL_COMMAND. -/
theorem exec_err_ne_illegal {t : State} {i : Instr} (h : i.wellFormed s.sctx.length s.vctx.length = true)
    (herr : s.status.err = .ok) (he : exec i s = .next t) : t.status.err ≠ .illegalCommand := by
  cases i with
  | mix => obtain rfl := Host.Outcome.next.inj he; nofun
  | init c => obtain rfl := Host.Outcome.next.inj he; exact initEffect_err_ne_illegal (of_decide_eq_true h)
  | next c =>
    obtain rfl := Host.Outcome.next.inj he
    exact withValidScalar_err_ne_illegal (of_decide_eq_true h) fun _ => nofun
  | bounded c => obtain rfl := Host.Outcome.next.inj he; exact boundedEffect_err_ne_illegal (of_decide_eq_true h) herr
  | bias c | binomial c =>
    obtain rfl := Host.Outcome.next.inj he
    exact withValidScalar_err_ne_illegal (of_decide_eq_true h) fun _ => requireOperands_err_ne_illegal nofun
  | debias => obtain rfl := Host.Outcome.next.inj he; exact debiasEffect_err_ne_illegal
  | autocorr => obtain rfl := Host.Outcome.next.inj he; exact autocorrEffect_err_ne_illegal
  | vinit c => obtain rfl := Host.Outcome.next.inj he; exact vinitEffect_err_ne_illegal (of_decide_eq_true h)
  | vnext c => obtain rfl := Host.Outcome.next.inj he; exact vnextEffect_err_ne_illegal (of_decide_eq_true h)

end

/-- Settles O5: a word that is not illegal decodes to a command whose context exists. -/
theorem legalWordNotReportedIllegal : Obligations.LegalWordNotReportedIllegal := by
  intro s t hturn hb hr herr hlegal hstep
  obtain ⟨i, hd, hwf⟩ := decode_of_not_illegalWord hlegal
  rw [step_runs hturn hb hr hd] at hstep
  exact exec_err_ne_illegal (s := s.popTurn) hwf herr hstep

end Sys2Proof.Machine
end

section
/-! PROOFS. MIX, INIT and NEXT (40_mixer_scalar.md R68-R71), and the entropy draws of INIT and VINIT from listed
answers: a run of successful draws, and a draw that fails. -/

namespace Sys2Proof.Machine

/-! ## Draws from listed answers (R68) -/

section
variable {β : Type} {d e : List EntropyAnswer × Word64} {ds : List (List EntropyAnswer × Word64)}
  {fails : List EntropyAnswer}

theorem drawScript_nil : drawScript [] = [] := rfl

theorem drawScript_cons (d : List EntropyAnswer × Word64) (ds : List (List EntropyAnswer × Word64)) :
    drawScript (d :: ds) = d.1 ++ ⟨true, d.2⟩ :: drawScript ds := by
  simp [drawScript]

theorem drawScript_cons_length (d : List EntropyAnswer × Word64) (ds : List (List EntropyAnswer × Word64)) :
    (drawScript (d :: ds)).length = d.1.length + 1 + (drawScript ds).length := by
  rw [drawScript_cons, List.length_append, List.length_cons]
  omega

theorem withinAttempts_cons :
    WithinAttempts (d :: ds) ↔ (AllFail d.1 ∧ d.1.length < 10) ∧ WithinAttempts ds :=
  List.forall_mem_cons

/-- A listed draw that succeeds uses up its own answers, and what follows goes on with its value. -/
theorem afterDraw_success (hd : AllFail d.1 ∧ d.1.length < 10)
    (k : Word64 → EntropyPort → Option β × EntropyPort) (rest : List EntropyAnswer) (n : Nat) :
    afterDraw entropyDraw64 k ⟨drawScript (d :: ds) ++ rest, n⟩ =
      k d.2 ⟨drawScript ds ++ rest, n + (d.1.length + 1)⟩ := by
  rw [drawScript_cons, List.append_assoc, List.cons_append, afterDraw, entropyDraw64,
    entropyDrawIn_success entropyAttempts _ _ _ _ hd.1 hd.2]

/-- A draw whose ten attempts fail ends the whole. -/
theorem afterDraw_failure (hf : AllFail fails) (hlen : fails.length = 10)
    (k : Word64 → EntropyPort → Option β × EntropyPort) (rest : List EntropyAnswer) (n : Nat) :
    afterDraw entropyDraw64 k ⟨fails ++ rest, n⟩ = (none, ⟨rest, n + 10⟩) := by
  have hdraw := entropyDrawIn_failure fails rest n hf
  rw [hlen] at hdraw
  rw [afterDraw, entropyDraw64, entropyAttempts, hdraw]

theorem entropyScalar_success (h : WithinAttempts [d, e]) (rest : List EntropyAnswer) (n : Nat) :
    entropyScalar ⟨drawScript [d, e] ++ rest, n⟩ =
      (some ⟨d.2, e.2 ||| 1, true⟩, ⟨rest, n + (drawScript [d, e]).length⟩) := by
  obtain ⟨hd, h⟩ := withinAttempts_cons.1 h
  obtain ⟨he, -⟩ := withinAttempts_cons.1 h
  rw [entropyScalar, afterDraw_success hd, afterDraw_success he, drawScript_cons_length, drawScript_cons_length,
    Nat.add_assoc]
  rfl

/-- The first of INIT's two draws fails, or the second does. -/
theorem entropyScalar_failure (hds : ds.length < 2) (h : WithinAttempts ds) (hf : AllFail fails)
    (hlen : fails.length = 10) (rest : List EntropyAnswer) (n : Nat) :
    entropyScalar ⟨drawScript ds ++ fails ++ rest, n⟩ = (none, ⟨rest, n + ((drawScript ds).length + 10)⟩) := by
  rw [List.append_assoc, entropyScalar]
  match ds, hds with
  | [], _ =>
    rw [drawScript_nil, List.nil_append, afterDraw_failure hf hlen, List.length_nil, Nat.zero_add]
  | [d], _ =>
    obtain ⟨hd, -⟩ := withinAttempts_cons.1 h
    rw [afterDraw_success hd, drawScript_cons_length, drawScript_nil, List.nil_append, afterDraw_failure hf hlen,
      List.length_nil, Nat.add_zero, Nat.add_assoc]

/-- One lane takes two draws. -/
theorem afterDraw_lane_success (hd : AllFail d.1 ∧ d.1.length < 10) (he : AllFail e.1 ∧ e.1.length < 10)
    (k : Word32 × Word32 → EntropyPort → Option β × EntropyPort) (rest : List EntropyAnswer) (n : Nat) :
    afterDraw entropyLane k ⟨drawScript (d :: e :: ds) ++ rest, n⟩ =
      k (trunc32 d.2, trunc32 e.2 ||| 1)
        ⟨drawScript ds ++ rest, n + (d.1.length + 1) + (e.1.length + 1)⟩ := by
  rw [afterDraw, entropyLane, afterDraw_success hd, afterDraw_success he]

/-- The four lanes take two draws each, in the order of the lanes. -/
theorem entropyVector_success {d0 d1 d2 d3 d4 d5 d6 d7 : List EntropyAnswer × Word64}
    (h : WithinAttempts [d0, d1, d2, d3, d4, d5, d6, d7]) (rest : List EntropyAnswer) (n : Nat) :
    entropyVector ⟨drawScript [d0, d1, d2, d3, d4, d5, d6, d7] ++ rest, n⟩ =
      (some ⟨⟨trunc32 d0.2, trunc32 d2.2, trunc32 d4.2, trunc32 d6.2⟩,
        ⟨trunc32 d1.2 ||| 1, trunc32 d3.2 ||| 1, trunc32 d5.2 ||| 1, trunc32 d7.2 ||| 1⟩, true⟩,
        ⟨rest, n + (drawScript [d0, d1, d2, d3, d4, d5, d6, d7]).length⟩) := by
  simp only [withinAttempts_cons] at h
  obtain ⟨h0, h1, h2, h3, h4, h5, h6, h7, -⟩ := h
  rw [entropyVector, afterDraw_lane_success h0 h1, afterDraw_lane_success h2 h3, afterDraw_lane_success h4 h5,
    afterDraw_lane_success h6 h7]
  simp only [drawScript_cons_length, Nat.add_assoc]
  rfl

end

/-! ## Commands that write one context (R29) -/

/-- What INIT leaves behind: the new context, the port, and the command completed. -/
theorem completed_setScalar {s : State} {c : Ctx} {x : ScalarCtx} (hx : s.scalar? c = some x) (y : ScalarCtx)
    (p : EntropyPort) (tr : Transient) (e : StatusCode) :
    let t := (((s.setEntropy p).running tr).setScalar c y).complete e
    CompletedFrom s t e ∧ t.res = s.res ∧ t.scalar? c = some y ∧ KeepsButScalar c s t ∧ t.entropy = p :=
  ⟨.of_complete e rfl rfl rfl rfl rfl rfl rfl rfl rfl, rfl, State.setScalar_get s c x y hx,
    ⟨sameScalarBut_setScalar s c y, rfl, rfl, rfl⟩, rfl⟩

/-- What VINIT leaves behind: the new context, the port, and the command completed. -/
theorem completed_setVector {s : State} {c : Ctx} {x : VectorCtx} (hx : s.vector? c = some x) (y : VectorCtx)
    (p : EntropyPort) (tr : Transient) (e : StatusCode) :
    let t := (((s.setEntropy p).running tr).setVector c y).complete e
    CompletedFrom s t e ∧ t.res = s.res ∧ t.vector? c = some y ∧ KeepsButVector c s t ∧ t.entropy = p :=
  ⟨.of_complete e rfl rfl rfl rfl rfl rfl rfl rfl rfl, rfl, State.setVector_get s c x y hx,
    ⟨rfl, sameVectorBut_setVector s c y, rfl, rfl⟩, rfl⟩

/-! ## The entropy paths, by what the draws give (R70, R77) -/

section
variable {s : State} {c : Ctx} {p : EntropyPort}

theorem exec_init_drawn {x y : ScalarCtx} (hx : s.scalar? c = some x) (h0 : s.args.v0 = 0)
    (hp : entropyScalar s.entropy = (some y, p)) :
    ∃ tr, exec (.init c) s = .next ((((s.setEntropy p).running tr).setScalar c y).complete .ok) := by
  obtain ⟨q, tr, hq, -⟩ | ⟨z, q, tr, hq, e⟩ := initFromEntropy_cases s c x <;> cases hp.symm.trans hq
  exact ⟨tr, congrArg Host.Outcome.next ((initEffect_entropy hx h0).trans e)⟩

theorem exec_init_undrawn {x : ScalarCtx} (hx : s.scalar? c = some x) (h0 : s.args.v0 = 0)
    (hp : entropyScalar s.entropy = (none, p)) :
    ∃ tr, exec (.init c) s =
      .next ((((s.setEntropy p).running tr).setScalar c { x with valid := false }).complete .entropyUnavailable) := by
  obtain ⟨q, tr, hq, e⟩ | ⟨z, q, tr, hq, -⟩ := initFromEntropy_cases s c x <;> cases hp.symm.trans hq
  exact ⟨tr, congrArg Host.Outcome.next ((initEffect_entropy hx h0).trans e)⟩

theorem exec_vinit_drawn {x y : VectorCtx} (hx : s.vector? c = some x) (h0 : s.args = Quad.all 0)
    (hp : entropyVector s.entropy = (some y, p)) :
    ∃ tr, exec (.vinit c) s = .next ((((s.setEntropy p).running tr).setVector c y).complete .ok) := by
  obtain ⟨q, tr, hq, -⟩ | ⟨z, q, tr, hq, e⟩ := vinitFromEntropy_cases s c x <;> cases hp.symm.trans hq
  exact ⟨tr, congrArg Host.Outcome.next ((vinitEffect_entropy hx h0).trans e)⟩

end

/-- A port is its listed answers and its number of attempts. -/
theorem EntropyPort.eq_of_answers {p : EntropyPort} {l : List EntropyAnswer} (h : p.answers = l) :
    p = ⟨l, p.attempts⟩ := by
  rw [← h]

/-- Settles O31: the two draws of INIT's entropy path succeed, and the context is written. -/
theorem initFromEntropy_holds : Obligations.InitFromEntropy := by
  intro s c x d e rest hx h0 hds hans
  have hdraws := entropyScalar_success hds rest s.entropy.attempts
  rw [← EntropyPort.eq_of_answers hans] at hdraws
  obtain ⟨tr, hexec⟩ := exec_init_drawn hx h0 hdraws
  exact ⟨_, hexec, completed_setScalar hx _ _ tr _⟩

/-- Settles O32: the first draw that fails ends INIT's entropy path, and the old context becomes invalid. -/
theorem initEntropyFailure : Obligations.InitEntropyFailure := by
  intro s c x ds fails rest hx h0 hlt hds hf hlen hans
  have hdraws := entropyScalar_failure hlt hds hf hlen rest s.entropy.attempts
  rw [← EntropyPort.eq_of_answers hans] at hdraws
  obtain ⟨tr, hexec⟩ := exec_init_undrawn hx h0 hdraws
  exact ⟨_, hexec, completed_setScalar hx _ _ tr _⟩

/-- Settles O36: VINIT's entropy path takes its four lanes one after another. -/
theorem vinitFromEntropy_holds : Obligations.VinitFromEntropy := by
  intro s c x d0 d1 d2 d3 d4 d5 d6 d7 rest ds hx h0 hds hans
  have hdraws := entropyVector_success hds rest s.entropy.attempts
  rw [← EntropyPort.eq_of_answers hans] at hdraws
  obtain ⟨tr, hexec⟩ := exec_vinit_drawn hx h0 hdraws
  exact ⟨_, hexec, completed_setVector hx _ _ tr _⟩

/-! ## MIX, INIT from a seed, and NEXT (R69-R71) -/

/-- Settles O29: MIX touches no register but RES0. -/
theorem mixResult : Obligations.MixResult := fun _ =>
  ⟨_, rfl, .of_complete .ok rfl rfl rfl rfl rfl rfl rfl rfl rfl, rfl, rfl, rfl, rfl, rfl, rfl⟩

theorem exec_init_seed {s : State} {c : Ctx} {x : ScalarCtx} (hx : s.scalar? c = some x) (h : s.args.v0 ≠ 0) :
    exec (.init c) s = .next ((s.setScalar c (seedScalar s.params s.args.v0)).complete .ok) :=
  congrArg Host.Outcome.next (initEffect_seed hx h)

/-- Settles O30: INIT on its seeded path writes the context and goes past the port. -/
theorem initFromSeed : Obligations.InitFromSeed := fun s c _ hx h =>
  ⟨_, exec_init_seed hx h, .of_complete .ok rfl rfl rfl rfl rfl rfl rfl rfl rfl, rfl,
    State.setScalar_get s c _ _ hx, ⟨sameScalarBut_setScalar s c _, rfl, rfl, rfl⟩, rfl⟩

theorem exec_next_valid {s : State} {c : Ctx} {x : ScalarCtx} (hx : s.scalar? c = some x) (hv : x.valid = true) :
    exec (.next c) s = .next (((s.setScalar c x.advance).setRes 0 (x.out s.params)).complete .ok) :=
  congrArg Host.Outcome.next (nextEffect_valid hx hv)

/-- The context after one draw, as R63 writes the step. -/
theorem ScalarCtx.advance_eq {x : ScalarCtx} (hv : x.valid = true) :
    x.advance = ⟨x.cur * 0x5851F42D4C957F2D + x.inc, x.inc, true⟩ := by
  rw [ScalarCtx.advance, step64, mult64, BitVec.mul_comm, hv]

/-- Settles O33: NEXT writes back the advanced context, and to RES0 the permuted old CUR. -/
theorem nextDrawsOnce : Obligations.NextDrawsOnce := by
  intro s c x hx hv
  refine ⟨_, exec_next_valid hx hv, .of_complete .ok rfl rfl rfl rfl rfl rfl rfl rfl rfl, rfl, ?_,
    ⟨sameScalarBut_setScalar s c x.advance, rfl, rfl, rfl⟩, rfl⟩
  rw [← ScalarCtx.advance_eq hv]
  exact State.setScalar_get s c x x.advance hx

/-! ## Runs of NEXT (95_test_vectors.md S1) -/

/-- What a run of NEXTs needs of one NEXT. -/
theorem next_of_exec {s t : State} {c : Ctx} {x : ScalarCtx} (hx : s.scalar? c = some x) (hv : x.valid = true)
    (h : exec (.next c) s = .next t) :
    t.scalar? c = some x.advance ∧ t.res.v0 = x.out s.params ∧ t.params = s.params := by
  obtain rfl := Host.Outcome.next.inj ((exec_next_valid hx hv).symm.trans h)
  exact ⟨State.setScalar_get s c x x.advance hx, rfl, rfl⟩

/-- The context after `k` NEXTs in a row. -/
theorem scalar?_of_nexts {c : Ctx} {x : ScalarCtx} {a : Nat → State} (hx : (a 0).scalar? c = some x)
    (hv : x.valid = true) (hnext : ∀ k, exec (.next c) (a k) = .next (a (k + 1))) (k : Nat) :
    (a k).scalar? c = some (advanceBy k x) ∧ (a k).params = (a 0).params := by
  induction k with
  | zero => exact ⟨hx, rfl⟩
  | succ k ih =>
    obtain ⟨hctx, hparams⟩ := ih
    obtain ⟨hctx', -, hparams'⟩ := next_of_exec hctx ((advanceBy_valid k x).trans hv) (hnext k)
    rw [advanceBy_succ']
    exact ⟨hctx', hparams'.trans hparams⟩

/-- The result of NEXT number `k`, counted from 0, is draw `k`. -/
theorem res_of_nexts {c : Ctx} {x : ScalarCtx} {a : Nat → State} (hx : (a 0).scalar? c = some x)
    (hv : x.valid = true) (hnext : ∀ k, exec (.next c) (a k) = .next (a (k + 1))) (k : Nat) :
    (a (k + 1)).res.v0 = drawWord (a 0).params x k := by
  obtain ⟨hctx, hparams⟩ := scalar?_of_nexts hx hv hnext k
  obtain ⟨-, hres, -⟩ := next_of_exec hctx ((advanceBy_valid k x).trans hv) (hnext k)
  rw [hres, hparams, drawWord]

/-- NEXTs after an INIT with a non-zero seed return the draws of the stream of that seed. -/
theorem res_of_init_nexts {s : State} {c : Ctx} {a : Nat → State} (hc : c.toNat < s.sctx.length)
    (hseed : s.args.v0 ≠ 0) (hinit : exec (.init c) s = .next (a 0))
    (hnext : ∀ k, exec (.next c) (a k) = .next (a (k + 1))) (k : Nat) :
    (a (k + 1)).res.v0 = drawWord s.params (seedScalar s.params s.args.v0) k := by
  have hx : s.scalar? c = some s.sctx[c.toNat] := List.getElem?_eq_getElem hc
  have ha := Host.Outcome.next.inj (hinit.symm.trans (exec_init_seed hx hseed))
  have hctx : (a 0).scalar? c = some (seedScalar s.params s.args.v0) :=
    ha ▸ State.setScalar_get s c _ _ hx
  rw [res_of_nexts hctx rfl hnext k, ha, State.complete_params, State.setScalar_params]

/-- Settles O34: both sequences are the draws of the stream of the one seed. -/
theorem sameSeedSameSequence : Obligations.SameSeedSameSequence := by
  intro s s' c d a b hparams hseed hne hc hd hinit hinit' hnext hnext' k
  rw [res_of_init_nexts hc hne hinit hnext, res_of_init_nexts hd (hseed ▸ hne) hinit' hnext', hparams, hseed]

end Sys2Proof.Machine
end

section
/-! PROOFS. VINIT and VNEXT (41_vector.md R72-R79): a draw of the entropy path that fails, the seeded lanes, and
each lane as a 32-bit generator of its own. -/

namespace Sys2Proof.Machine

/-! ## A draw of the entropy path that fails (R68, R77) -/

/-- From listed answers where fewer than `m` draws succeed and the next one fails all its ten attempts, `k` yields
nothing and makes no further attempt. -/
def EndsOnFailedDraw {β : Type} (m : Nat) (k : EntropyPort → Option β × EntropyPort) : Prop :=
  ∀ (ds : List (List EntropyAnswer × Word64)) (fails rest : List EntropyAnswer) (n : Nat),
    ds.length < m → WithinAttempts ds → AllFail fails → fails.length = 10 →
    k ⟨drawScript ds ++ (fails ++ rest), n⟩ = (none, ⟨rest, n + ((drawScript ds).length + 10)⟩)

section
variable {β : Type}

theorem endsOnFailedDraw_zero (k : EntropyPort → Option β × EntropyPort) : EndsOnFailedDraw 0 k :=
  fun _ _ _ _ hds => absurd hds (Nat.not_lt_zero _)

/-- One more draw in front: it is the one that fails, or it succeeds and a later one fails. -/
theorem endsOnFailedDraw_afterDraw {m : Nat} {k : Word64 → EntropyPort → Option β × EntropyPort}
    (hk : ∀ v, EndsOnFailedDraw m (k v)) : EndsOnFailedDraw (m + 1) (afterDraw entropyDraw64 k) := by
  intro ds fails rest n hds hw hf hlen
  cases ds with
  | nil => rw [drawScript_nil, List.nil_append, afterDraw_failure hf hlen, List.length_nil, Nat.zero_add]
  | cons d ds =>
    obtain ⟨hd, hw⟩ := withinAttempts_cons.1 hw
    rw [afterDraw_success hd, hk _ ds fails rest _ (Nat.lt_of_succ_lt_succ hds) hw hf hlen,
      drawScript_cons_length]
    simp only [Nat.add_assoc]

theorem afterDraw_assoc {α γ : Type} (d : EntropyPort → Option α × EntropyPort)
    (f : α → EntropyPort → Option γ × EntropyPort) (k : γ → EntropyPort → Option β × EntropyPort) :
    afterDraw (afterDraw d f) k = afterDraw d (fun v => afterDraw (f v) k) := by
  funext p
  unfold afterDraw
  rcases d p with ⟨_ | v, q⟩ <;> rfl

/-- A lane is two draws, and what follows goes on with their low halves. -/
theorem afterDraw_lane (k : Word32 × Word32 → EntropyPort → Option β × EntropyPort) :
    afterDraw entropyLane k = afterDraw entropyDraw64 (fun cur =>
      afterDraw entropyDraw64 (fun inc => k (trunc32 cur, trunc32 inc ||| 1))) :=
  (afterDraw_assoc entropyDraw64 _ k).trans
    (congrArg (afterDraw entropyDraw64) (funext fun _ => afterDraw_assoc entropyDraw64 _ k))

theorem endsOnFailedDraw_lane {m : Nat} {k : Word32 × Word32 → EntropyPort → Option β × EntropyPort}
    (hk : ∀ l, EndsOnFailedDraw m (k l)) : EndsOnFailedDraw (m + 2) (afterDraw entropyLane k) := by
  rw [afterDraw_lane]
  exact endsOnFailedDraw_afterDraw fun _ => endsOnFailedDraw_afterDraw fun _ => hk _

end

/-- The four lanes are eight draws, and any of them can fail. -/
theorem endsOnFailedDraw_entropyVector : EndsOnFailedDraw 8 entropyVector :=
  endsOnFailedDraw_lane fun _ => endsOnFailedDraw_lane fun _ => endsOnFailedDraw_lane fun _ =>
    endsOnFailedDraw_lane fun _ => endsOnFailedDraw_zero _

theorem exec_vinit_undrawn {s : State} {c : Ctx} {x : VectorCtx} {p : EntropyPort} (hx : s.vector? c = some x)
    (h0 : s.args = Quad.all 0) (hp : entropyVector s.entropy = (none, p)) :
    ∃ tr, exec (.vinit c) s =
      .next ((((s.setEntropy p).running tr).setVector c { x with valid := false }).complete .entropyUnavailable) := by
  obtain ⟨q, tr, hq, e⟩ | ⟨z, q, tr, hq, -⟩ := vinitFromEntropy_cases s c x <;> cases hp.symm.trans hq
  exact ⟨tr, congrArg Host.Outcome.next ((vinitEffect_entropy hx h0).trans e)⟩

/-- Settles O37: the first draw that fails ends VINIT's entropy path, and the old context becomes invalid. -/
theorem vinitEntropyFailure : Obligations.VinitEntropyFailure := by
  intro s c x ds fails rest hx h0 hlt hds hf hlen hans
  have hdraws := endsOnFailedDraw_entropyVector ds fails rest s.entropy.attempts hlt hds hf hlen
  rw [← List.append_assoc, ← EntropyPort.eq_of_answers hans] at hdraws
  obtain ⟨tr, hexec⟩ := exec_vinit_undrawn hx h0 hdraws
  obtain ⟨hdone, hres, hctx, hkeeps, hport⟩ :=
    completed_setVector hx { x with valid := false } _ tr .entropyUnavailable
  exact ⟨_, hexec, hdone, hres, ⟨_, hctx, rfl⟩, hkeeps, hport⟩

/-! ## VINIT from four seeds (R75, R77) -/

theorem exec_vinit_seeds {s : State} {c : Ctx} {x : VectorCtx} (hx : s.vector? c = some x)
    (h : ∀ l, s.args.get l ≠ 0) :
    exec (.vinit c) s = .next ((s.setVector c (seedVector s.params s.args)).complete .ok) :=
  congrArg Host.Outcome.next (vinitEffect_seeds hx h)

@[simp] theorem seedVector_cur_get (p : Config.Params) (seeds : Quad Word64) (l : Fin 4) :
    (seedVector p seeds).cur.get l = seed32Cur p (seeds.get l) :=
  Quad.get_map _ seeds l

@[simp] theorem seedVector_inc_get (p : Config.Params) (seeds : Quad Word64) (l : Fin 4) :
    (seedVector p seeds).inc.get l = seed32Inc p (seeds.get l) :=
  Quad.get_map _ seeds l

/-- Settles O35: VINIT on its seeded path writes the lanes of the four seeds and goes past the port. -/
theorem vinitFromSeeds : Obligations.VinitFromSeeds := by
  intro s c x hx h
  refine ⟨_, seedVector s.params s.args, exec_vinit_seeds hx h, .of_complete .ok rfl rfl rfl rfl rfl rfl rfl rfl rfl,
    rfl, State.setVector_get s c x _ hx, rfl, fun l => ⟨?_, ?_⟩, ⟨rfl, sameVectorBut_setVector s c _, rfl, rfl⟩, rfl⟩
  · rw [seedVector_cur_get, seed32Cur, trunc32, BitVec.toNat_setWidth]
  · rw [seedVector_inc_get, seed32Inc, trunc32]

/-! ## One VNEXT (R72, R78) -/

theorem exec_vnext_valid {s : State} {c : Ctx} {x : VectorCtx} (hx : s.vector? c = some x) (hv : x.valid = true) :
    exec (.vnext c) s =
      .next (((s.setVector c (x.advance s.params)).setAllRes (x.out s.params)).complete .ok) :=
  congrArg Host.Outcome.next (vnextEffect_valid hx hv)

@[simp] theorem VectorCtx.advance_inc (p : Config.Params) (x : VectorCtx) : (x.advance p).inc = x.inc := rfl
@[simp] theorem VectorCtx.advance_valid (p : Config.Params) (x : VectorCtx) : (x.advance p).valid = x.valid := rfl

@[simp] theorem VectorCtx.advance_cur_get (p : Config.Params) (x : VectorCtx) (l : Fin 4) :
    (x.advance p).cur.get l = laneAdvance p (x.cur.get l) (x.inc.get l) :=
  Quad.get_zip _ x.cur x.inc l

@[simp] theorem VectorCtx.out_get (p : Config.Params) (x : VectorCtx) (l : Fin 4) :
    (x.out p).get l = laneOut p (x.cur.get l) (x.inc.get l) :=
  Quad.get_zip _ x.cur x.inc l

/-- The lane step as R72 writes it. -/
theorem step32_eq (p : Config.Params) (cur inc : Word32) : step32 p cur inc = cur * p.mult32 + inc := by
  rw [step32, BitVec.mul_comm]

/-- The second output stands above the first. -/
theorem laneOut_toNat (p : Config.Params) (cur inc : Word32) :
    (laneOut p cur inc).toNat = (perm32 p (step32 p cur inc)).toNat * 2 ^ 32 + (perm32 p cur).toNat := by
  rw [laneOut, BitVec.toNat_append, ← Nat.shiftLeft_add_eq_or_of_lt (BitVec.isLt _), Nat.shiftLeft_eq]

/-- Settles O38: VNEXT writes back the lanes two steps on, and to RES the outputs of both steps. -/
theorem vnextDrawsTwicePerLane : Obligations.VnextDrawsTwicePerLane := by
  intro s c x hx hv
  refine ⟨_, x.advance s.params, exec_vnext_valid hx hv, .of_complete .ok rfl rfl rfl rfl rfl rfl rfl rfl rfl,
    State.setVector_get s c x _ hx, hv, rfl, fun l => ⟨?_, ?_⟩,
    ⟨rfl, sameVectorBut_setVector s c _, rfl, rfl⟩, rfl⟩
  · rw [VectorCtx.advance_cur_get, laneAdvance, step32_eq, step32_eq]
  · rw [State.complete_res, State.setAllRes_res, VectorCtx.out_get, laneOut_toNat, step32_eq]

/-! ## Runs of VNEXT (R79, 95_test_vectors.md S7) -/

/-- The state of the 32-bit reference generator after `k` draws (R76). -/
def referenceState (p : Config.Params) (cur inc : Word32) (k : Nat) : Word32 :=
  (fun u => (draw32 p u inc).2)^[k] cur

theorem referenceState_succ (p : Config.Params) (cur inc : Word32) (k : Nat) :
    referenceState p cur inc (k + 1) = step32 p (referenceState p cur inc k) inc :=
  Function.iterate_succ_apply' _ k cur

theorem referenceOutput_eq (p : Config.Params) (cur inc : Word32) (k : Nat) :
    referenceOutput p cur inc k = perm32 p (referenceState p cur inc k) := rfl

/-- Two draws of the reference generator are one advance of a lane. -/
theorem laneAdvance_referenceState (p : Config.Params) (cur inc : Word32) (k : Nat) :
    laneAdvance p (referenceState p cur inc (2 * k)) inc = referenceState p cur inc (2 * (k + 1)) := by
  rw [laneAdvance, ← referenceState_succ, ← referenceState_succ, Nat.mul_succ]

/-- The halves a lane gives are two outputs in a row of the reference generator. -/
theorem laneOut_referenceState (p : Config.Params) (cur inc : Word32) (k : Nat) :
    (laneOut p (referenceState p cur inc (2 * k)) inc).toNat =
      (referenceOutput p cur inc (2 * k + 1)).toNat * 2 ^ 32 + (referenceOutput p cur inc (2 * k)).toNat := by
  rw [laneOut_toNat, ← referenceState_succ, referenceOutput_eq, referenceOutput_eq]

/-- What a run of VNEXTs needs of one VNEXT. -/
theorem vnext_of_exec {s t : State} {c : Ctx} {x : VectorCtx} (hx : s.vector? c = some x) (hv : x.valid = true)
    (h : exec (.vnext c) s = .next t) :
    t.vector? c = some (x.advance s.params) ∧ t.res = x.out s.params ∧ t.params = s.params := by
  obtain rfl := Host.Outcome.next.inj ((exec_vnext_valid hx hv).symm.trans h)
  exact ⟨State.setVector_get s c x _ hx, rfl, rfl⟩

section
variable {c : Ctx} {x : VectorCtx} {a : Nat → State}

/-- After `k` VNEXTs in a row each lane stands where its reference generator does after `2k` draws. -/
theorem vector?_of_vnexts (hx : (a 0).vector? c = some x) (hv : x.valid = true)
    (hnext : ∀ k, exec (.vnext c) (a k) = .next (a (k + 1))) (k : Nat) :
    (a k).params = (a 0).params ∧ ∃ y, (a k).vector? c = some y ∧ y.valid = true ∧ y.inc = x.inc ∧
      ∀ l, y.cur.get l = referenceState (a 0).params (x.cur.get l) (x.inc.get l) (2 * k) := by
  induction k with
  | zero => exact ⟨rfl, x, hx, hv, rfl, fun _ => rfl⟩
  | succ k ih =>
    obtain ⟨hparams, y, hy, hyv, hinc, hcur⟩ := ih
    obtain ⟨hctx, -, hparams'⟩ := vnext_of_exec hy hyv (hnext k)
    refine ⟨hparams'.trans hparams, _, hctx, hyv, hinc, fun l => ?_⟩
    rw [VectorCtx.advance_cur_get, hcur, hinc, hparams, laneAdvance_referenceState]

/-- The result of VNEXT number `k`, counted from 0, has outputs `2k` and `2k+1` of each lane's generator. -/
theorem res_of_vnexts (hx : (a 0).vector? c = some x) (hv : x.valid = true)
    (hnext : ∀ k, exec (.vnext c) (a k) = .next (a (k + 1))) (k : Nat) (l : Fin 4) :
    ((a (k + 1)).res.get l).toNat =
      (referenceOutput (a 0).params (x.cur.get l) (x.inc.get l) (2 * k + 1)).toNat * 2 ^ 32 +
        (referenceOutput (a 0).params (x.cur.get l) (x.inc.get l) (2 * k)).toNat := by
  obtain ⟨hparams, y, hy, hyv, hinc, hcur⟩ := vector?_of_vnexts hx hv hnext k
  obtain ⟨-, hres, -⟩ := vnext_of_exec hy hyv (hnext k)
  rw [hres, VectorCtx.out_get, hcur, hinc, hparams, laneOut_referenceState]

end

/-- Settles O39: VINIT leaves each lane at the first state of its seed's reference generator, and the VNEXTs follow
it. -/
theorem lanesEqualReferenceGenerator : Obligations.LanesEqualReferenceGenerator := by
  intro s c a hc hseeds hinit hnext k l
  have hx : s.vector? c = some s.vctx[c.toNat] := List.getElem?_eq_getElem hc
  have ha := Host.Outcome.next.inj (hinit.symm.trans (exec_vinit_seeds hx hseeds))
  have hctx : (a 0).vector? c = some (seedVector s.params s.args) := ha ▸ State.setVector_get s c _ _ hx
  rw [res_of_vnexts hctx rfl hnext k l, ha, State.complete_params, State.setVector_params, seedVector_cur_get,
    seedVector_inc_get]

end Sys2Proof.Machine
end

section
/-! PROOFS. BIAS (42_bias.md R80-R84): each bit column of the VM is the chain of R83, and a doubled probability
operand runs the same instructions one bit higher. -/

namespace Sys2Proof.Machine

/-! ## The probability operand (R80) -/

/-- `ValidNM(n, m)`, as bounds on the numbers. -/
theorem not_badNM_iff {n m : Word64} : ¬BadNM n m ↔
    0 < n.toNat ∧ 0 < m.toNat ∧ m.toNat ≤ 64 ∧ n.toNat < 2 ^ m.toNat := by
  have hfull : m.toNat = 64 → n.toNat < 2 ^ m.toNat := fun h => by rw [h]; exact n.isLt
  unfold BadNM
  omega

/-- The lowest set bit stands below any power of two that bounds the word. -/
theorem ctz_lt_of_toNat_lt {n : Word64} {m : Nat} (h0 : 0 < n.toNat) (h : n.toNat < 2 ^ m) : ctz n < m := by
  have hne : n ≠ 0 := by rintro rfl; exact absurd h0 (by decide)
  have hle : 2 ^ ctz n ≤ n.toNat :=
    Nat.ge_two_pow_of_testBit ((BitVec.testBit_toNat n).trans (getLsbD_ctz hne))
  exact (Nat.pow_lt_pow_iff_right Nat.one_lt_two).1 (hle.trans_lt h)

theorem ctz_eq_of_getLsbD {v : Word64} {k : Nat} (hbit : v.getLsbD k = true)
    (hlow : ∀ i < k, v.getLsbD i = false) : ctz v = k := by
  have hne : v ≠ 0 := by rintro rfl; simp at hbit
  refine le_antisymm (not_lt.1 fun h => ?_) (not_lt.1 fun h => ?_)
  · simp [getLsbD_of_lt_ctz h] at hbit
  · simpa [getLsbD_ctz hne] using hlow _ h

/-! ## The columns of the VM (R83) -/

/-- A chain looks at no more of `n` than its bits from `start` on. -/
theorem columnBit_congr {n n' : Word64} {start start' : Nat}
    (h : ∀ i, n'.getLsbD (start' + i) = n.getLsbD (start + i)) (draw : Nat → Bool) (k : Nat) :
    columnBit n' start' draw k = columnBit n start draw k := by
  induction k with
  | zero => rfl
  | succ k ih => rw [columnBit, columnBit, h, ih]

theorem getLsbD_biasStep_acc (p : Config.Params) (n : Word64) (r : BiasRun) (j : Nat) :
    (biasStep p n r).acc.getLsbD j = if n.getLsbD r.pc then r.acc.getLsbD j || (r.ctx.out p).getLsbD j
      else r.acc.getLsbD j && (r.ctx.out p).getLsbD j := by
  rw [biasStep, apply_ite (BitVec.getLsbD · j), BitVec.getLsbD_or, BitVec.getLsbD_and]

theorem getLsbD_biasStep_iterate_acc (p : Config.Params) (n : Word64) (start : Nat) (x : ScalarCtx) (j k : Nat) :
    ((biasStep p n)^[k] ⟨0, start, x⟩).acc.getLsbD j =
      columnBit n start (fun i => (drawWord p x i).getLsbD j) k := by
  induction k with
  | zero => exact BitVec.getLsbD_zero
  | succ k ih =>
    rw [Function.iterate_succ_apply', getLsbD_biasStep_acc, ih, biasStep_iterate_pc, biasStep_iterate_ctx]
    rfl

/-- Bit `j` of the VM's result is the chain over bit `j` of its draws. -/
theorem getLsbD_biasCore_acc (p : Config.Params) (n m : Word64) (x : ScalarCtx) (hm : m.toNat ≤ 64) (j : Nat) :
    (biasCore p n m x).acc.getLsbD j =
      columnBit n (ctz n) (fun i => (drawWord p x i).getLsbD j) (m.toNat - ctz n) := by
  rw [biasCore_eq_iterate p n m x hm, getLsbD_biasStep_iterate_acc]

/-! ## The command (R84) -/

theorem exec_bias_valid {s : State} {c : Ctx} {x : ScalarCtx} (hx : s.scalar? c = some x) (hv : x.valid = true)
    (hn : ¬BadNM s.args.v0 s.args.v1) : ∃ tr, exec (.bias c) s =
      .next ((((s.running tr).setScalar c (biasCore s.params s.args.v0 s.args.v1 x).ctx).setRes 0
        (biasCore s.params s.args.v0 s.args.v1 x).acc).complete .ok) :=
  ⟨_, congrArg Host.Outcome.next (biasEffect_valid hx hv hn)⟩

/-- Settles O40: BIAS writes back the VM's context, and to RES0 its accumulator, whose columns are the chains. -/
theorem biasIsColumnChain : Obligations.BiasIsColumnChain := by
  intro s c x hx hv hn draws
  obtain ⟨hn0, -, hm, hlt⟩ := not_badNM_iff.1 hn
  have hctz := ctz_lt_of_toNat_lt hn0 hlt
  obtain ⟨tr, hexec⟩ := exec_bias_valid hx hv hn
  refine ⟨Nat.sub_pos_of_lt hctz, Nat.sub_le _ _, _, hexec, .of_complete .ok rfl rfl rfl rfl rfl rfl rfl rfl rfl,
    fun j _ => getLsbD_biasCore_acc s.params _ _ x hm j, rfl, ?_,
    ⟨sameScalarBut_setScalar s c _, rfl, rfl, rfl⟩, rfl⟩
  rw [← biasCore_ctx s.params _ _ x hm]
  exact State.setScalar_get s c x _ hx

/-! ## The doubled probability (R84, corner cases) -/

section
variable {n m : Word64}

theorem toNat_two_mul (hn : n.toNat < 2 ^ 63) : (2 * n).toNat = 2 * n.toNat := by
  bv_omega

theorem getLsbD_two_mul_zero (hn : n.toNat < 2 ^ 63) : (2 * n).getLsbD 0 = false := by
  rw [← BitVec.testBit_toNat, toNat_two_mul hn, Nat.testBit_zero, Nat.mul_mod_right]
  rfl

/-- Doubling moves every bit up by one, where the top bit is free. -/
theorem getLsbD_two_mul_succ (hn : n.toNat < 2 ^ 63) (i : Nat) : (2 * n).getLsbD (i + 1) = n.getLsbD i := by
  rw [← BitVec.testBit_toNat, ← BitVec.testBit_toNat, toNat_two_mul hn, Nat.testBit_succ,
    Nat.mul_div_cancel_left _ two_pos]

theorem ctz_two_mul (h0 : 0 < n.toNat) (hn : n.toNat < 2 ^ 63) : ctz (2 * n) = ctz n + 1 := by
  have hne : n ≠ 0 := by rintro rfl; exact absurd h0 (by decide)
  refine ctz_eq_of_getLsbD ((getLsbD_two_mul_succ hn _).trans (getLsbD_ctz hne)) fun i hi => ?_
  cases i with
  | zero => exact getLsbD_two_mul_zero hn
  | succ i => rw [getLsbD_two_mul_succ hn, getLsbD_of_lt_ctz (Nat.lt_of_succ_lt_succ hi)]

theorem toNat_lt_of_not_badNM (hbad : ¬BadNM n m) (hm : m.toNat < 64) : n.toNat < 2 ^ 63 := by
  obtain ⟨-, -, -, hlt⟩ := not_badNM_iff.1 hbad
  exact hlt.trans_le (Nat.pow_le_pow_right two_pos (Nat.le_of_lt_succ hm))

theorem toNat_add_one (hm : m.toNat < 64) : (m + 1).toNat = m.toNat + 1 := by
  bv_omega

/-- `(2n, m+1)` passes the checks `(n, m)` passes, `m` being below 64. -/
theorem not_badNM_double (hbad : ¬BadNM n m) (hm : m.toNat < 64) : ¬BadNM (2 * n) (m + 1) := by
  obtain ⟨hn0, -, -, hlt⟩ := not_badNM_iff.1 hbad
  rw [not_badNM_iff, toNat_two_mul (toNat_lt_of_not_badNM hbad hm), toNat_add_one hm, pow_succ]
  omega

/-- The VM runs the same instructions on `(2n, m+1)`, so it ends with the same accumulator and context. -/
theorem biasCore_double (p : Config.Params) (x : ScalarCtx) (hbad : ¬BadNM n m) (hm : m.toNat < 64) :
    (biasCore p (2 * n) (m + 1) x).acc = (biasCore p n m x).acc ∧
    (biasCore p (2 * n) (m + 1) x).ctx = (biasCore p n m x).ctx := by
  obtain ⟨hn0, -, -, -⟩ := not_badNM_iff.1 hbad
  have hn := toNat_lt_of_not_badNM hbad hm
  have hm1 := toNat_add_one hm
  have hm1le : (m + 1).toNat ≤ 64 := hm1.trans_le hm
  have hctz := ctz_two_mul hn0 hn
  have hdraws : (m + 1).toNat - ctz (2 * n) = m.toNat - ctz n := by rw [hm1, hctz, Nat.add_sub_add_right]
  have hbits : ∀ i, (2 * n).getLsbD (ctz (2 * n) + i) = n.getLsbD (ctz n + i) := fun i => by
    rw [hctz, Nat.add_right_comm, getLsbD_two_mul_succ hn]
  constructor
  · refine BitVec.eq_of_getLsbD_eq fun j _ => ?_
    rw [getLsbD_biasCore_acc p _ _ x hm1le, getLsbD_biasCore_acc p n m x hm.le, hdraws, columnBit_congr hbits]
  · rw [biasCore_ctx p _ _ x hm1le, biasCore_ctx p n m x hm.le, hdraws]

end

/-- Settles O41: both commands write back what the VM ends with, which is the same. -/
theorem biasDoubledProbabilitySame : Obligations.BiasDoubledProbabilitySame := by
  intro s c x hx hv hn hm
  obtain ⟨tr, hexec⟩ := exec_bias_valid hx hv hn
  obtain ⟨tr', hexec'⟩ := exec_bias_valid
    (s := { s with args := { s.args with v0 := 2 * s.args.v0, v1 := s.args.v1 + 1 } }) hx hv (not_badNM_double hn hm)
  obtain ⟨hacc, hctx⟩ := biasCore_double s.params x hn hm
  exact ⟨_, _, hexec, hexec', rfl, rfl, congrArg (s.res.set 0) hacc,
    congrArg (fun y => (s.setScalar c y).sctx) hctx⟩

end Sys2Proof.Machine
end

section
/-! PROOFS. DEBIAS (43_debias.md R87-R89): the pass reads the pairs of the source in order and stops as R88 says, and
the command completes with its cursors, leaving memory outside the destination words alone. -/

namespace Sys2Proof.Machine

/-! ## The pass reads a number of pairs (R87, R88) -/

/-- A loop with fuel is an iteration: of the rounds before the fuel is spent or the condition fails. -/
theorem repeatWhile_eq_iterate {α : Type} (cond : α → Bool) (body : α → α) (fuel : Nat) (a : α) :
    ∃ p, repeatWhile cond body fuel a = body^[p] a ∧ (∀ i, i < p → cond (body^[i] a) = true) ∧
      (p = fuel ∨ cond (body^[p] a) = false) := by
  induction fuel generalizing a with
  | zero => exact ⟨0, rfl, fun i hi => absurd hi (Nat.not_lt_zero i), .inl rfl⟩
  | succ fuel ih =>
    cases hc : cond a with
    | false => exact ⟨0, repeatWhile_done _ a hc, fun i hi => absurd hi (Nat.not_lt_zero i), .inr hc⟩
    | true =>
      obtain ⟨p, hp, hbefore, hend⟩ := ih (body a)
      refine ⟨p + 1, by rw [repeatWhile_succ, if_pos hc, hp]; rfl, fun i hi => ?_, hend.imp_left (congrArg (· + 1))⟩
      cases i with
      | zero => exact hc
      | succ i => exact hbefore i (Nat.lt_of_succ_lt_succ hi)

theorem emittedBits_length_le (bit : Nat → Bool) (p : Nat) : (emittedBits bit p).length ≤ p :=
  (List.length_filterMap_le _ _).trans_eq List.length_range

/-- Where a pass over `n` source bits into `m` destination bits stops: after at least one pair, at the pair that fills
the destination or at the end of the source (R88). -/
structure PassStopsAt (bit : Nat → Bool) (n m pairs : Nat) : Prop where
  nonempty : 1 ≤ pairs
  inSource : 2 * pairs ≤ n
  inDest : (emittedBits bit pairs).length ≤ m
  roomBefore : (emittedBits bit (pairs - 1)).length < m
  sourceEnds : (emittedBits bit pairs).length < m → 2 * pairs = n

/-- Before its last pair the loop had room and source left; after it, one of the two is gone. The fuel is not spent
first, since each round reads two bits. -/
theorem debiasPass_stops (bit : Nat → Bool) {n m : Nat} (hn : n ≠ 0) (heven : n % 2 ≠ 1) (hm : m ≠ 0) :
    ∃ pairs, debiasPass bit n m = (debiasPair bit)^[pairs] ⟨0, 0, []⟩ ∧ PassStopsAt bit n m pairs := by
  obtain ⟨p, hpass, hbefore, hend⟩ := repeatWhile_eq_iterate
    (fun r : DebiasRun => decide (r.used < n) && decide (r.filled < m)) (debiasPair bit) n ⟨0, 0, []⟩
  simp only [debiasPair_iterate bit, Bool.and_eq_true, Bool.and_eq_false_iff, decide_eq_true_eq,
    decide_eq_false_iff_not] at hbefore hend
  have hstop : n ≤ 2 * p ∨ m ≤ (emittedBits bit p).length := by omega
  cases p with
  | zero => exact absurd hstop (by simp [emittedBits, hn, hm])
  | succ p =>
    obtain ⟨hsource, hroom⟩ := hbefore p (Nat.lt_succ_self p)
    have hatMostOne : (emittedBits bit (p + 1)).length ≤ (emittedBits bit p).length + 1 := by
      rw [emittedBits_succ, List.length_append]
      cases bit (2 * p) <;> cases bit (2 * p + 1) <;> simp
    exact ⟨p + 1, hpass, by omega, by omega, by omega, hroom, by omega⟩

/-- Where the 1s are once a bit is appended: those there were, and the new bit if it is one. -/
theorem getD_append_bit_iff (l : List Bool) (b : Bool) (w : Nat) :
    (l ++ [b]).getD w false = true ↔ (b = true ∧ w = l.length) ∨ l.getD w false = true := by
  obtain hlt | rfl | hgt := lt_trichotomy w l.length
  · rw [List.getD_append _ _ _ _ hlt]
    simp [hlt.ne]
  · simp
  · rw [List.getD_eq_default _ _ (by simp; omega), List.getD_eq_default _ _ hgt.le]
    simp [hgt.ne']

/-- The ones of the pass are the positions of the 1s among the bits its pairs emit. -/
theorem mem_ones_iterate_iff (bit : Nat → Bool) (p w : Nat) :
    w ∈ ((debiasPair bit)^[p] ⟨0, 0, []⟩).ones ↔ (emittedBits bit p).getD w false = true := by
  induction p with
  | zero => simp [emittedBits]
  | succ p ih =>
    obtain ⟨hused, hfilled⟩ := debiasPair_iterate bit p
    rw [Function.iterate_succ_apply', emittedBits_succ]
    have hpair := debiasPair_cases bit ((debiasPair bit)^[p] ⟨0, 0, []⟩)
    rw [hused] at hpair
    obtain ⟨heq, e⟩ | ⟨h0, h1, e⟩ | ⟨h0, h1, e⟩ := hpair <;> rw [e]
    · rw [heq]
      cases bit (2 * p + 1) <;> simpa using ih
    · simp only [h0, h1, hfilled, List.mem_cons, getD_append_bit_iff, ih, true_and]
    · simp only [h0, h1, getD_append_bit_iff, ih, Bool.false_eq_true, false_and, false_or]

/-- What the pass reads counts only where it reads: bits that agree on the source give the same stop. -/
theorem PassStopsAt.congr {bit bit' : Nat → Bool} {n m pairs : Nat} (h : PassStopsAt bit n m pairs)
    (hbit : ∀ i, i < n → bit i = bit' i) :
    emittedBits bit pairs = emittedBits bit' pairs ∧ PassStopsAt bit' n m pairs := by
  obtain ⟨hone, hsource, hdest, hroom, hends⟩ := h
  have hall := emittedBits_congr fun i (hi : i < 2 * pairs) => hbit i (by omega)
  have hlast := emittedBits_congr fun i (hi : i < 2 * (pairs - 1)) => hbit i (by omega)
  exact ⟨hall, hone, hsource, hall ▸ hdest, hlast ▸ hroom, hall ▸ hends⟩

section
variable {s : State} (hn : ¬PreconditionFails s .debias)

include hn in
/-- The cursors and the ones of a DEBIAS in range, whatever its source bits are. -/
theorem State.debiasPass_stops : ∃ pairs,
    s.debiasPass.used = 2 * pairs ∧
    s.debiasPass.filled = (emittedBits (sourceBit s s.args.v0.toNat 0) pairs).length ∧
    (∀ w, w ∈ s.debiasPass.ones ↔ (emittedBits (sourceBit s s.args.v0.toNat 0) pairs).getD w false = true) ∧
    PassStopsAt (sourceBit s s.args.v0.toNat 0) s.args.v1.toNat s.args.v3.toNat pairs := by
  obtain ⟨hsrc, heven, hdest⟩ := debias_counts hn
  obtain ⟨pairs, hpass, hstops⟩ := Machine.debiasPass_stops (sourceBit s s.args.v0.toNat 0) hsrc heven hdest
  have hpass : s.debiasPass = _ := hpass
  obtain ⟨hused, hfilled⟩ := debiasPair_iterate (sourceBit s s.args.v0.toNat 0) pairs
  rw [hpass]
  exact ⟨pairs, hused, hfilled, mem_ones_iterate_iff _ pairs, hstops⟩

/-! ## Both ways a DEBIAS in range ends -/

/-- Contexts, the entropy port, and memory outside the destination words are as before. -/
structure DebiasFrame (s t : State) : Prop where
  sctx : t.sctx = s.sctx
  vctx : t.vctx = s.vctx
  entropy : t.entropy = s.entropy
  mem : SameBytesOutside s.args.v2.toNat (8 * wordCount s.args.v3.toNat) s t

theorem readByte_debias_outside (s : State) (a : Nat)
    (ha : ¬(s.args.v2.toNat ≤ a ∧ a < s.args.v2.toNat + 8 * wordCount s.args.v3.toNat)) :
    readByte (s.destAnyValue (unsteady s) (orOnes s.args.v2.toNat s.debiasPass.ones s.destSettled)) a =
      readByte s.mem a := by
  rw [readByte_destAnyValue_outside s _ _ a ha,
    readByte_orOnes_outside _ _ _ _ _ (debiasPass_ones_lt s) (by omega), readByte_destSettled_outside ha]

include hn in
theorem debias_ends_ok
    (hb : debiasBusError s s.debiasPass (orOnes s.args.v2.toNat s.debiasPass.ones s.destSettled) = false) :
    ∃ t, exec .debias s = .next t ∧ CompletedFrom s t .ok ∧ DebiasFrame s t ∧
      t.res = ⟨BitVec.ofNat 64 s.debiasPass.used, BitVec.ofNat 64 s.debiasPass.filled, s.res.v2, s.res.v3⟩ :=
  ⟨_, congrArg Host.Outcome.next ((debiasEffect_ok hn).trans (if_neg (Bool.not_eq_true _ ▸ hb))),
    .of_complete _ rfl rfl rfl rfl rfl rfl rfl rfl rfl, ⟨rfl, rfl, rfl, readByte_debias_outside s⟩, rfl⟩

include hn in
theorem debias_ends_busError
    (hb : debiasBusError s s.debiasPass (orOnes s.args.v2.toNat s.debiasPass.ones s.destSettled) = true) :
    ∃ t, exec .debias s = .next t ∧ CompletedFrom s t .busError ∧ DebiasFrame s t ∧ t.res = s.res := by
  obtain ⟨tr, hexec⟩ := debias_busError hn hb
  exact ⟨_, hexec, .of_complete _ rfl rfl rfl rfl rfl rfl rfl rfl rfl,
    ⟨rfl, rfl, rfl, readByte_destAnyValue_outside s (fun _ => true) s.mem⟩, rfl⟩

end

/-! ## Buffers without error responses (R45) -/

theorem meetsKind_eq_false_of_within {rs : List Region} {p : RegionKind → Bool} {a len b len' : Nat}
    (h : meetsKind rs p b len' = false) (hstart : b ≤ a) (hend : a + len ≤ b + len') :
    meetsKind rs p a len = false :=
  Bool.eq_false_iff.2 fun ha => Bool.false_ne_true (h.symm.trans (meetsKind_mono ha hstart hend))

/-- On a readable source and an error-free destination no access meets an error response, whether the result needs it
or R44 merely allows it. -/
theorem debiasBusError_eq_false {s : State} {r : DebiasRun} (hsrc : ReadableBuffer s s.args.v0.toNat s.args.v1.toNat)
    (hdest : ErrorFreeBuffer s s.args.v2.toNat s.args.v3.toNat) (hused : r.used ≤ s.args.v1.toNat)
    (hones : ∀ w ∈ r.ones, w < 64 * wordCount s.args.v3.toNat) (after : Memory) :
    debiasBusError s r after = false := by
  obtain ⟨hread, hwrite⟩ := hdest
  have hmay : debiasMayMakeBadAccess s = false := Bool.or_eq_false_iff.2 ⟨hsrc, hwrite⟩
  have hsource : readErrs s.regions s.args.v0.toNat (8 * wordCount r.used) = false :=
    meetsKind_eq_false_of_within hsrc le_rfl (by unfold wordCount; omega)
  have hneeded : debiasNeedsBadAccess s r after = false := by
    refine Bool.or_eq_false_iff.2 ⟨hsource, List.any_eq_false.2 fun w hw => ?_⟩
    have hin : s.args.v2.toNat ≤ bitWord s.args.v2.toNat w ∧
        bitWord s.args.v2.toNat w + 8 ≤ s.args.v2.toNat + 8 * wordCount s.args.v3.toNat := by
      have := hones w hw
      unfold bitWord
      omega
    have hreadOne : readErrs s.regions (bitWord s.args.v2.toNat w) 8 = false :=
      meetsKind_eq_false_of_within hread hin.1 hin.2
    have hwriteOne : writeErrs s.regions (bitWord s.args.v2.toNat w) 8 = false :=
      meetsKind_eq_false_of_within hwrite hin.1 hin.2
    simp [hreadOne, hwriteOne]
  rw [debiasBusError, hneeded, hmay]
  rfl

/-! ## The obligations -/

/-- Settles O50: the cursors are twice the number of pairs read and the number of bits those emit, and a bus error
leaves RES alone. -/
theorem debiasBookkeeping : Obligations.DebiasBookkeeping := by
  intro s hn
  cases hb : debiasBusError s s.debiasPass (orOnes s.args.v2.toNat s.debiasPass.ones s.destSettled) with
  | true =>
    obtain ⟨t, hexec, hdone, ⟨hsctx, hvctx, hentropy, hmem⟩, hres⟩ := debias_ends_busError hn hb
    exact ⟨t, hexec, hsctx, hvctx, hentropy, hmem, .inr ⟨hdone, hres⟩⟩
  | false =>
    obtain ⟨t, hexec, hdone, ⟨hsctx, hvctx, hentropy, hmem⟩, hres⟩ := debias_ends_ok hn hb
    obtain ⟨pairs, hused, hfilled, -, hone, hsource, hdest, -, hends⟩ := State.debiasPass_stops hn
    have hle := emittedBits_length_le (sourceBit s s.args.v0.toNat 0) pairs
    have hlt := s.args.v1.isLt
    have h0 : t.res.v0.toNat = s.debiasPass.used := by
      rw [hres, hused]
      exact Nat.mod_eq_of_lt (by omega)
    have h1 : t.res.v1.toNat = s.debiasPass.filled := by
      rw [hres, hfilled]
      exact Nat.mod_eq_of_lt (by omega)
    refine ⟨t, hexec, hsctx, hvctx, hentropy, hmem, .inl ⟨hdone, h0, h1, ?_⟩⟩
    rw [h0, h1, hused, hfilled, hres]
    exact ⟨by omega, by omega, hsource, hdest, by omega, hends, rfl, rfl⟩

/-- Settles O49: on a steady source the pass emits the bits of the pairs in memory, and on a steady destination its
ones are ORed into what is there. -/
theorem debiasPassResult : Obligations.DebiasPassResult := by
  intro s hm hn hsrc hdest hreadable herrorFree bit
  obtain ⟨pairs, hused, hfilled, hones, hstops⟩ := State.debiasPass_stops hn
  obtain ⟨hbits, hone, hsource, hcapacity, hroom, hends⟩ := hstops.congr fun i hi => sourceBit_steady 0 hsrc hi
  rw [hbits] at hfilled hones
  obtain ⟨t, hexec, hdone, ⟨hsctx, hvctx, hentropy, hmem⟩, hres⟩ := debias_ends_ok hn
    (debiasBusError_eq_false hreadable herrorFree (hused.trans_le hsource) (debiasPass_ones_lt s) _)
  rw [hused, hfilled] at hres
  refine ⟨t, pairs, hexec, hdone, hone, hsource, hcapacity, hroom, hends, hres, hsctx, hvctx, hentropy, hmem,
    fun w _ => ?_⟩
  have hset : decide (w ∈ s.debiasPass.ones) = (emittedBits bit pairs).getD w false := by
    rw [Bool.eq_iff_iff, decide_eq_true_eq]
    exact hones w
  rw [debias_steady_mem hexec hdone.err hdest.1, destSettled_steady hdest, bitRead_orOnes hm, hset]

end Sys2Proof.Machine
end

section
/-! PROOFS. The rounding of AUTOCORR (44_autocorr.md R95, log 24): a quotient of magnitude at most 1 is scaled to an
integer significand, and every binary64 value either is an integer at that scale or lies below all significands. -/

namespace Sys2Proof.Machine

/-! ## Rounding to an integer -/

theorem divRoundEven_cases (x y : Nat) :
    (divRoundEven x y = x / y + 1 ∧ (y < 2 * (x % y) ∨ 2 * (x % y) = y ∧ (x / y + 1) % 2 = 0)) ∨
    (divRoundEven x y = x / y ∧ (2 * (x % y) < y ∨ 2 * (x % y) = y ∧ x / y % 2 = 0)) := by
  unfold divRoundEven
  dsimp only
  split
  · next hup => exact .inl ⟨rfl, by omega⟩
  · next hdown => exact .inr ⟨rfl, by omega⟩

theorem le_divRoundEven {x y k : Nat} (hy : 0 < y) (h : k * y ≤ x) : k ≤ divRoundEven x y := by
  have hle := (Nat.le_div_iff_mul_le hy).2 h
  obtain ⟨e, -⟩ | ⟨e, -⟩ := divRoundEven_cases x y <;> omega

theorem divRoundEven_le {x y k : Nat} (hy : 0 < y) (h : x ≤ k * y) : divRoundEven x y ≤ k := by
  obtain hlt | rfl := h.lt_or_eq
  · have hdiv := (Nat.div_lt_iff_lt_mul hy).2 hlt
    obtain ⟨e, -⟩ | ⟨e, -⟩ := divRoundEven_cases x y <;> omega
  · have hdiv := Nat.mul_div_cancel k hy
    have hmod := Nat.mul_mod_left k y
    obtain ⟨e, hup⟩ | ⟨e, -⟩ := divRoundEven_cases (k * y) y <;> omega

/-- `v` is at least as near to `t` as `u` is, and where both are equally near, they are the same or `even` holds. -/
def NearestOrEven (v u t : Int) (even : Prop) : Prop :=
  |v - t| < |u - t| ∨ (|v - t| = |u - t| ∧ (u = v ∨ even))

theorem NearestOrEven.scale {v u t f : Int} {even : Prop} (hf : 0 < f) (h : NearestOrEven v u t even) :
    NearestOrEven (v * f) (u * f) (t * f) even := by
  simp only [NearestOrEven, ← sub_mul, abs_mul, abs_of_pos hf]
  exact h.imp (mul_lt_mul_of_pos_right · hf) (And.imp (congrArg (· * f)) (Or.imp_left (congrArg (· * f))))

/-- Negation moves a candidate and its target alike. -/
theorem NearestOrEven.neg {v u t : Int} {even : Prop} (h : NearestOrEven v u t even) :
    NearestOrEven (-v) (-u) (-t) even := by
  have hdist : ∀ a b : Int, |-a - -b| = |a - b| := fun a b => by rw [neg_sub_neg, abs_sub_comm]
  rwa [NearestOrEven, hdist, hdist, neg_inj]

theorem NearestOrEven.le {v u t : Int} {even : Prop} (h : NearestOrEven v u t even) : |v - t| ≤ |u - t| :=
  h.elim le_of_lt fun ⟨heq, _⟩ => heq.le

/-- What lies beyond a candidate, seen from `t`, is farther away than the nearest. -/
theorem NearestOrEven.of_lt {v w u t : Int} {even : Prop} (h : NearestOrEven v w t even) (hw : w ≤ t) (hu : u < w) :
    NearestOrEven v u t even := by
  refine .inl (h.le.trans_lt ?_)
  rw [abs_of_nonpos (sub_nonpos.2 hw), abs_of_neg (sub_neg.2 (hu.trans_le hw))]
  omega

/-- The multiples of `y` on either side of `x`, and how far they are. -/
theorem dist_quotient (x y : Nat) : |((x / y : Nat) : Int) * y - x| = (x % y : Nat) := by
  have hx : (x : Int) = (x / y : Nat) * y + (x % y : Nat) := by exact_mod_cast (Nat.div_add_mod' x y).symm
  rw [abs_sub_comm, hx, add_sub_cancel_left, Nat.abs_cast]

theorem dist_quotient_succ {x y : Nat} (hy : 0 < y) :
    |((x / y + 1 : Nat) : Int) * y - x| = y - (x % y : Nat) := by
  have hx : (x : Int) = (x / y : Nat) * y + (x % y : Nat) := by exact_mod_cast (Nat.div_add_mod' x y).symm
  have hr : ((x % y : Nat) : Int) < y := by exact_mod_cast Nat.mod_lt x hy
  rw [← abs_of_pos (sub_pos.2 hr)]
  congr 1
  push_cast at hx ⊢
  linear_combination -hx

/-- All other multiples are at least `y` away. -/
theorem le_dist_of_ne_quotient {x y : Nat} (hy : 0 < y) {k : Int} (hk : k ≠ (x / y : Nat))
    (hk' : k ≠ (x / y + 1 : Nat)) : y ≤ |k * y - x| := by
  have hx : (x : Int) = (x / y : Nat) * y + (x % y : Nat) := by exact_mod_cast (Nat.div_add_mod' x y).symm
  have hr : ((x % y : Nat) : Int) < y := by exact_mod_cast Nat.mod_lt x hy
  obtain hbelow | habove : k ≤ (x / y : Nat) - 1 ∨ (x / y : Nat) + 2 ≤ k := by
    generalize x / y = q at *
    omega
  · have hmul := mul_le_mul_of_nonneg_right hbelow y.cast_nonneg
    exact le_abs.2 (.inr (by linarith [(x % y).cast_nonneg (α := Int)]))
  · have hmul := mul_le_mul_of_nonneg_right habove y.cast_nonneg
    exact le_abs.2 (.inl (by linarith))

/-- Rounding up happens past the half, or at it from an odd quotient; rounding down is the other side of it. -/
theorem divRoundEven_nearest {x y : Nat} (hy : 0 < y) (k : Int) :
    NearestOrEven (divRoundEven x y * y) (k * y) x (divRoundEven x y % 2 = 0) := by
  have hr : x % y < y := Nat.mod_lt x hy
  have hdown := dist_quotient x y
  have hup := dist_quotient_succ (x := x) hy
  have hfar := le_dist_of_ne_quotient (x := x) hy (k := k)
  have hround := divRoundEven_cases x y
  generalize x / y = q at *
  generalize x % y = r at *
  unfold NearestOrEven
  obtain rfl | rfl | ⟨hq, hq'⟩ : k = q ∨ k = (q + 1 : Nat) ∨ (k ≠ q ∧ k ≠ (q + 1 : Nat)) := by omega
  · obtain ⟨e, h⟩ | ⟨e, h⟩ := hround <;> rw [e]
    · omega
    · exact .inr ⟨rfl, .inl rfl⟩
  · obtain ⟨e, h⟩ | ⟨e, h⟩ := hround <;> rw [e]
    · exact .inr ⟨rfl, .inl rfl⟩
    · omega
  · have hle := hfar hq hq'
    obtain ⟨e, h⟩ | ⟨e, h⟩ := hround <;> rw [e] <;> omega

/-! ## The exponent -/

section
variable {a d : Nat} (ha : 0 < a) (hd : 0 < d)

include ha hd in
theorem two_pow_mul_le_iff (k c : Nat) :
    2 ^ k * d ≤ a * 2 ^ c ↔ (k : Int) - c ≤ Int.log 2 ((a : Rat) / d) := by
  have hd' : (0 : Rat) < d := Nat.cast_pos.2 hd
  rw [← Int.zpow_le_iff_le_log one_lt_two (div_pos (Nat.cast_pos.2 ha) hd'), Nat.cast_ofNat, zpow_sub₀ two_ne_zero,
    zpow_natCast, zpow_natCast, div_le_div_iff₀ (pow_pos two_pos c) hd']
  exact_mod_cast Iff.rfl

include ha hd in
theorem powLeRatio_iff (e : Int) : powLeRatio e a d = true ↔ e ≤ Int.log 2 ((a : Rat) / d) := by
  rw [powLeRatio, decide_eq_true_iff, mul_comm d, two_pow_mul_le_iff ha hd,
    show (e.toNat : Int) - (-e).toNat = e by omega]

include ha hd in
/-- The binary logarithms of `a` and `d` give that of the quotient up to one. -/
theorem ratioExponent_eq_log : ratioExponent a d = Int.log 2 ((a : Rat) / d) := by
  have hlow : 2 ^ a.log2 * d ≤ a * 2 ^ (d.log2 + 1) :=
    Nat.mul_le_mul (Nat.log2_self_le ha.ne') Nat.lt_log2_self.le
  have hhigh : ¬2 ^ (a.log2 + 1) * d ≤ a * 2 ^ d.log2 := by
    rw [not_le]
    exact Nat.mul_lt_mul_of_lt_of_le' Nat.lt_log2_self (Nat.log2_self_le hd.ne') (pow_pos two_pos _)
  rw [two_pow_mul_le_iff ha hd] at hlow hhigh
  unfold ratioExponent
  dsimp only
  split
  · next h => rw [powLeRatio_iff ha hd] at h; omega
  · next h => rw [powLeRatio_iff ha hd] at h; omega

end

/-! ## The significand -/

/-- `a / d` is rounded to a multiple of `2^(b-1074)`: the quotient in these units is below `2^53`, and, but at the
least scale, at least `2^52`. -/
structure RoundsAt (a d b : Nat) : Prop where
  le : b ≤ 1022
  eq : roundMagnitude a d = b * 2 ^ 52 + divRoundEven (a * 2 ^ (1074 - b)) d
  lt : a * 2 ^ (1074 - b) < 2 ^ 53 * d
  normal : b ≠ 0 → 2 ^ 52 * d ≤ a * 2 ^ (1074 - b)

theorem exists_roundsAt {a d : Nat} (ha : 0 < a) (had : a ≤ d) : ∃ b, RoundsAt a d b := by
  have hd := ha.trans_le had
  have hexp := ratioExponent_eq_log ha hd
  have hneg : ¬2 ^ 1 * d ≤ a * 2 ^ 0 := by omega
  rw [two_pow_mul_le_iff ha hd, ← hexp] at hneg
  obtain ⟨b, hb⟩ : ∃ b : Nat, max (ratioExponent a d) (-1022) = b - 1022 :=
    ⟨(max (ratioExponent a d) (-1022) + 1022).toNat, by omega⟩
  have hle : b ≤ 1022 := by omega
  have hlt : a * 2 ^ (1074 - b) < 2 ^ 53 * d := by
    rw [← not_le, two_pow_mul_le_iff ha hd, ← hexp]
    omega
  refine ⟨b, hle, ?_, hlt, fun h => ?_⟩
  · have hround := divRoundEven_le hd hlt.le
    unfold roundMagnitude
    dsimp only
    rw [hb, show (52 - ((b : Int) - 1022)).toNat = 1074 - b by omega,
      show ((b : Int) - 1022 - 52).toNat = 0 by omega, pow_zero, mul_one,
      show ((b : Int) - 1022 + 1022).toNat = b by omega]
    omega
  · rw [two_pow_mul_le_iff ha hd, ← hexp]
    omega

theorem RoundsAt.significand_le {a d b : Nat} (h : RoundsAt a d b) (hd : 0 < d) :
    divRoundEven (a * 2 ^ (1074 - b)) d ≤ 2 ^ 53 := divRoundEven_le hd h.lt.le

theorem RoundsAt.le_significand {a d b : Nat} (h : RoundsAt a d b) (hd : 0 < d) (hb : b ≠ 0) :
    2 ^ 52 ≤ divRoundEven (a * 2 ^ (1074 - b)) d := le_divRoundEven hd (h.normal hb)

/-- No quotient up to 1 rounds past 1. -/
theorem roundMagnitude_le {a d : Nat} (ha : 0 < a) (had : a ≤ d) : roundMagnitude a d ≤ 1023 * 2 ^ 52 := by
  obtain ⟨b, h⟩ := exists_roundsAt ha had
  have hd := ha.trans_le had
  rw [h.eq]
  obtain hlt | rfl := h.le.lt_or_eq
  · have hle := h.significand_le hd
    omega
  · have hle : divRoundEven (a * 2 ^ (1074 - 1022)) d ≤ 2 ^ 52 := by
      refine divRoundEven_le hd ?_
      rw [mul_comm]
      exact Nat.mul_le_mul_left _ had
    omega

theorem roundMagnitude_self {d : Nat} (hd : 0 < d) : roundMagnitude d d = 1023 * 2 ^ 52 := by
  refine le_antisymm (roundMagnitude_le hd le_rfl) ?_
  obtain ⟨b, h⟩ := exists_roundsAt hd le_rfl
  have hb : b = 1022 := by
    have hlt : 2 ^ (1074 - b) < 2 ^ 53 := Nat.lt_of_mul_lt_mul_left ((mul_comm _ d).subst h.lt)
    have := (Nat.pow_lt_pow_iff_right one_lt_two).1 hlt
    have := h.le
    omega
  subst hb
  rw [h.eq]
  have hle : 2 ^ 52 ≤ divRoundEven (d * 2 ^ (1074 - 1022)) d := le_divRoundEven hd (mul_comm d _).ge
  omega

/-! ## The values of encodings -/

/-- The number the magnitude `N` stands for, in units of `2^-1074`, the least positive value. -/
def magnitudeUnits (N : Nat) : Nat :=
  if N / 2 ^ 52 = 0 then N % 2 ^ 52 else (2 ^ 52 + N % 2 ^ 52) * 2 ^ (N / 2 ^ 52 - 1)

/-- A carry out of the significand runs into the exponent field. -/
theorem magnitudeUnits_add {b m : Nat} (hle : m ≤ 2 ^ 53) (hb : b ≠ 0 → 2 ^ 52 ≤ m) :
    magnitudeUnits (b * 2 ^ 52 + m) = m * 2 ^ b := by
  unfold magnitudeUnits
  obtain hsub | ⟨hlow, hhigh⟩ | rfl : m < 2 ^ 52 ∨ (2 ^ 52 ≤ m ∧ m < 2 ^ 53) ∨ m = 2 ^ 53 := by omega
  · obtain rfl : b = 0 := by by_contra h; have := hb h; omega
    rw [if_pos (by omega)]
    omega
  · rw [show (b * 2 ^ 52 + m) / 2 ^ 52 = b + 1 by omega, if_neg (Nat.succ_ne_zero b),
      show (b * 2 ^ 52 + m) % 2 ^ 52 = m - 2 ^ 52 by omega, Nat.add_sub_cancel' hlow, Nat.add_sub_cancel]
  · rw [show (b * 2 ^ 52 + 2 ^ 53) / 2 ^ 52 = b + 1 + 1 by omega, if_neg (Nat.succ_ne_zero _),
      show (b * 2 ^ 52 + 2 ^ 53) % 2 ^ 52 = 0 by omega, add_zero, Nat.add_sub_cancel, pow_succ' 2 b, ← mul_assoc,
      ← pow_succ]

/-- Every value is a multiple of `2^b` or, where `b` is not the least scale, below all significands at scale `b`. -/
theorem magnitudeUnits_grid (N b : Nat) :
    2 ^ b ∣ magnitudeUnits N ∨ (b ≠ 0 ∧ magnitudeUnits N < 2 ^ 52 * 2 ^ b) := by
  have hfrac : N % 2 ^ 52 < 2 ^ 52 := Nat.mod_lt N (pow_pos two_pos 52)
  unfold magnitudeUnits
  generalize N / 2 ^ 52 = e at *
  generalize N % 2 ^ 52 = f at *
  by_cases hb : b = 0
  · exact .inl (by rw [hb, pow_zero]; exact one_dvd _)
  split
  · exact .inr ⟨hb, hfrac.trans_le (Nat.le_mul_of_pos_right _ (pow_pos two_pos b))⟩
  · next he =>
    obtain habove | hbelow : b ≤ e - 1 ∨ e - 1 + 1 ≤ b := by omega
    · exact .inl (Dvd.dvd.mul_left (pow_dvd_pow 2 habove) _)
    · refine .inr ⟨hb, ?_⟩
      calc (2 ^ 52 + f) * 2 ^ (e - 1) < (2 ^ 52 * 2) * 2 ^ (e - 1) :=
            Nat.mul_lt_mul_of_pos_right (by omega) (pow_pos two_pos _)
        _ = 2 ^ 52 * 2 ^ (e - 1 + 1) := by ring
        _ ≤ 2 ^ 52 * 2 ^ b := Nat.mul_le_mul_left _ (Nat.pow_le_pow_right two_pos hbelow)

/-- The number an encoding stands for, in units of `2^-1074`. -/
def units64 (w : Word64) : Int :=
  if w.getLsbD 63 then -magnitudeUnits (magnitude64 w) else magnitudeUnits (magnitude64 w)

theorem natAbs_units64 (w : Word64) : (units64 w).natAbs = magnitudeUnits (magnitude64 w) := by
  unfold units64
  split
  · rw [Int.natAbs_neg, Int.natAbs_natCast]
  · rw [Int.natAbs_natCast]

theorem exponentField_eq (w : Word64) : (w.extractLsb' 52 11).toNat = magnitude64 w / 2 ^ 52 := by
  unfold magnitude64
  rw [BitVec.extractLsb'_toNat, BitVec.toNat_setWidth, Nat.shiftRight_eq_div_pow]
  omega

theorem fractionField_eq (w : Word64) : (w.extractLsb' 0 52).toNat = magnitude64 w % 2 ^ 52 := by
  unfold magnitude64
  rw [BitVec.extractLsb'_toNat, BitVec.toNat_setWidth, Nat.shiftRight_zero]
  omega

/-- `value64` is scaled by `2^-1075` in the normal range; `2^-1074` serves both ranges. -/
theorem value64_magnitude (e f : Nat) :
    (if e = 0 then (f : Rat) / 2 ^ 1074 else ((2 ^ 52 + f : Nat) : Rat) * 2 ^ e / 2 ^ 1075) =
      ((if e = 0 then f else (2 ^ 52 + f) * 2 ^ (e - 1) : Nat) : Rat) / 2 ^ 1074 := by
  cases e with
  | zero => rfl
  | succ e =>
    rw [if_neg e.succ_ne_zero, if_neg e.succ_ne_zero, Nat.add_sub_cancel, pow_succ _ 1074, pow_succ _ e, ← mul_assoc,
      mul_div_mul_right _ _ two_ne_zero]
    norm_cast

theorem value64_eq (w : Word64) : value64 w = (units64 w : Rat) / 2 ^ 1074 := by
  unfold value64 units64 magnitudeUnits
  dsimp only
  rw [exponentField_eq, fractionField_eq, value64_magnitude]
  split
  · rw [← neg_div, Int.cast_neg, Int.cast_natCast]
  · rw [Int.cast_natCast]

theorem finite64_of_magnitude_le {w : Word64} (h : magnitude64 w ≤ 1023 * 2 ^ 52) : finite64 w = true := by
  rw [finite64, exponentField_eq, decide_eq_true_iff]
  omega

/-! ## The rounded encoding -/

theorem rne64_zero (den : Nat) : rne64 0 den = 0 := if_pos rfl

section
variable {num : Int} {den : Nat} (hnum : num ≠ 0) (hle : num.natAbs ≤ den)

include hnum hle

theorem toNat_rne64 : (rne64 num den).toNat =
    (decide (num < 0)).toNat * 2 ^ 63 + roundMagnitude num.natAbs den := by
  have hround := roundMagnitude_le (Int.natAbs_pos.2 hnum) hle
  rw [rne64, if_neg hnum, BitVec.toNat_append, BitVec.toNat_ofNat, BitVec.toNat_ofBool,
    Nat.mod_eq_of_lt (by omega), ← Nat.shiftLeft_add_eq_or_of_lt (by omega), Nat.shiftLeft_eq]

theorem magnitude64_rne64 : magnitude64 (rne64 num den) = roundMagnitude num.natAbs den := by
  have hround := roundMagnitude_le (Int.natAbs_pos.2 hnum) hle
  rw [magnitude64, BitVec.toNat_setWidth, toNat_rne64 hnum hle]
  omega

theorem getLsbD_63_rne64 : (rne64 num den).getLsbD 63 = decide (num < 0) := by
  have hround := roundMagnitude_le (Int.natAbs_pos.2 hnum) hle
  rw [← BitVec.testBit_toNat, toNat_rne64 hnum hle, Nat.testBit_eq_decide_div_mod_eq]
  cases decide (num < 0) <;> simp <;> omega

theorem getLsbD_0_rne64 : (rne64 num den).getLsbD 0 = decide (roundMagnitude num.natAbs den % 2 = 1) := by
  rw [← BitVec.testBit_toNat, toNat_rne64 hnum hle, Nat.testBit_eq_decide_div_mod_eq, pow_zero, Nat.div_one,
    decide_eq_decide]
  omega

end

theorem magnitude64_rne64_le {num : Int} {den : Nat} (hle : num.natAbs ≤ den) :
    magnitude64 (rne64 num den) ≤ 1023 * 2 ^ 52 := by
  by_cases hnum : num = 0
  · subst hnum
    rw [rne64_zero]
    decide
  · rw [magnitude64_rne64 hnum hle]
    exact roundMagnitude_le (Int.natAbs_pos.2 hnum) hle

/-- R96's check after the rounding passes on every quotient in [-1, 1] (R94). -/
theorem outsideUnit_rne64 {num : Int} {den : Nat} (hle : num.natAbs ≤ den) : outsideUnit (rne64 num den) = false :=
  decide_eq_false (not_lt.2 (magnitude64_rne64_le hle))

/-- The quotients 1 and -1 differ in the sign bit alone. -/
theorem toNat_rne64_unit {num : Int} {den : Nat} (hden : 0 < den) (h : num.natAbs = den) :
    (rne64 num den).toNat = (decide (num < 0)).toNat * 2 ^ 63 + 1023 * 2 ^ 52 := by
  rw [toNat_rne64 (by omega) h.le, h, roundMagnitude_self hden]

/-! ## The nearest value -/

section
variable {a d b : Nat} (h : RoundsAt a d b)

include h

theorem RoundsAt.target_eq : (a : Int) * 2 ^ 1074 = (a * 2 ^ (1074 - b) : Nat) * 2 ^ b := by
  have hle := h.le
  rw [Nat.cast_mul, Nat.cast_pow, Nat.cast_ofNat, mul_assoc, ← pow_add, Nat.sub_add_cancel (by omega)]

theorem RoundsAt.units_eq (hd : 0 < d) : (magnitudeUnits (roundMagnitude a d) : Int) * d =
    divRoundEven (a * 2 ^ (1074 - b)) d * d * 2 ^ b := by
  rw [h.eq, magnitudeUnits_add (h.significand_le hd) (h.le_significand hd), mul_right_comm]
  norm_cast

theorem RoundsAt.mod_two_eq : roundMagnitude a d % 2 = divRoundEven (a * 2 ^ (1074 - b)) d % 2 := by
  rw [h.eq]
  omega

end

/-- Of the values, those at the scale of the significand are no nearer than it is, and the others are too small. -/
theorem roundMagnitude_nearest {a d : Nat} (ha : 0 < a) (had : a ≤ d) {u : Int} {N : Nat}
    (hu : u.natAbs = magnitudeUnits N) :
    NearestOrEven (magnitudeUnits (roundMagnitude a d) * d) (u * d) (a * 2 ^ 1074) (roundMagnitude a d % 2 = 0) := by
  obtain ⟨b, h⟩ := exists_roundsAt ha had
  have hd := ha.trans_le had
  have hscale : (0 : Int) < 2 ^ b := pow_pos two_pos b
  have hnearest := fun k => (divRoundEven_nearest (x := a * 2 ^ (1074 - b)) hd k).scale hscale
  rw [h.target_eq, h.units_eq hd, h.mod_two_eq]
  obtain hdvd | ⟨hb, hsmall⟩ := magnitudeUnits_grid N b
  · rw [← hu] at hdvd
    obtain ⟨k, rfl⟩ : (2 ^ b : Int) ∣ u := by exact_mod_cast Int.natCast_dvd.2 hdvd
    rw [mul_comm (2 ^ b) k, mul_right_comm k]
    exact hnearest k
  · have hbelow : u < 2 ^ 52 * 2 ^ b := by
      refine Int.le_natAbs.trans_lt ?_
      rw [hu]
      exact_mod_cast hsmall
    refine (hnearest (2 ^ 52)).of_lt ?_ ?_
    · exact mul_le_mul_of_nonneg_right (by exact_mod_cast h.normal hb) hscale.le
    · rw [mul_right_comm]
      exact mul_lt_mul_of_pos_right hbelow (by exact_mod_cast hd)

theorem units64_rne64 {num : Int} {den : Nat} (hnum : num ≠ 0) (hle : num.natAbs ≤ den) :
    units64 (rne64 num den) = num.sign * magnitudeUnits (roundMagnitude num.natAbs den) := by
  rw [units64, magnitude64_rne64 hnum hle, getLsbD_63_rne64 hnum hle]
  obtain hneg | hpos := lt_or_gt_of_ne hnum
  · rw [Int.sign_eq_neg_one_of_neg hneg, neg_one_mul, if_pos (decide_eq_true hneg)]
  · rw [Int.sign_eq_one_of_pos hpos, one_mul, if_neg (by simpa using hpos.le)]

/-- The sign of `num` is the sign of the result, so both signs come down to magnitudes; +0.0 is exact. -/
theorem rne64_nearest {num : Int} {den : Nat} (hle : num.natAbs ≤ den) (y : Word64) :
    NearestOrEven (units64 (rne64 num den) * den) (units64 y * den) (num * 2 ^ 1074)
      ((rne64 num den).getLsbD 0 = false) := by
  by_cases hnum : num = 0
  · subst hnum
    rw [rne64_zero, show units64 0 = 0 by decide, zero_mul, zero_mul, NearestOrEven, sub_zero, sub_zero, abs_zero]
    exact (abs_nonneg _).lt_or_eq.imp_right (⟨·, .inr rfl⟩)
  have hpos := Int.natAbs_pos.2 hnum
  have heven : (rne64 num den).getLsbD 0 = false ↔ roundMagnitude num.natAbs den % 2 = 0 := by
    rw [getLsbD_0_rne64 hnum hle, decide_eq_false_iff_not, ← ne_eq, Nat.mod_two_ne_one]
  rw [units64_rne64 hnum hle, heven]
  obtain hneg | hpos' := lt_or_gt_of_ne hnum
  · have h := (roundMagnitude_nearest hpos hle (u := -units64 y) (Int.natAbs_neg _ ▸ natAbs_units64 y)).neg
    rw [Int.ofNat_natAbs_of_nonpos hneg.le] at h
    rw [Int.sign_eq_neg_one_of_neg hneg]
    simpa only [neg_mul, neg_neg, one_mul] using h
  · have h := roundMagnitude_nearest hpos hle (natAbs_units64 y)
    rw [Int.natAbs_of_nonneg hpos'.le] at h
    rwa [Int.sign_eq_one_of_pos hpos', one_mul]

theorem abs_value64_sub (w : Word64) (num : Int) {den : Nat} (hden : 0 < den) :
    |value64 w - num / den| = (|units64 w * den - num * 2 ^ 1074| : Int) / (2 ^ 1074 * den) := by
  have hunit : (0 : Rat) < 2 ^ 1074 := pow_pos two_pos _
  have hden' : (0 : Rat) < den := Nat.cast_pos.2 hden
  rw [value64_eq, div_sub_div _ _ hunit.ne' hden'.ne', abs_div, abs_of_pos (mul_pos hunit hden'),
    mul_comm _ (num : Rat), Int.cast_abs, Int.cast_sub, Int.cast_mul, Int.cast_mul, Int.cast_pow, Int.cast_natCast,
    Int.cast_ofNat]

/-- Settles O56: what is rounded is the significand, at a scale at which all values but smaller ones are integers. -/
theorem roundsToNearestEven : Obligations.RoundsToNearestEven := by
  intro num den hden hle r q
  have hdist := fun w => abs_value64_sub w num hden
  have hunit : (0 : Rat) < 2 ^ 1074 * den := mul_pos (pow_pos two_pos _) (Nat.cast_pos.2 hden)
  refine ⟨finite64_of_magnitude_le (magnitude64_rne64_le hle), fun y _ => ?_, fun y _ htie hne => ?_, fun h => ?_,
    fun h => BitVec.eq_of_toNat_eq ?_, fun h => BitVec.eq_of_toNat_eq ?_⟩
  · rw [hdist, hdist, div_le_div_iff_of_pos_right hunit]
    exact_mod_cast (rne64_nearest hle y).le
  · rw [hdist, hdist, div_left_inj' hunit.ne', Int.cast_inj] at htie
    obtain hlt | ⟨-, hsame | heven⟩ := rne64_nearest hle y
    · exact absurd htie hlt.ne'
    · refine absurd ?_ hne
      rw [value64_eq, value64_eq, mul_right_cancel₀ (Nat.cast_ne_zero.2 hden.ne') hsame]
    · exact heven
  · exact (congrArg (rne64 · den) h).trans (rne64_zero den)
  · rw [toNat_rne64_unit hden (by omega), decide_eq_false (by omega)]
    rfl
  · rw [toNat_rne64_unit hden (by omega), decide_eq_true (by omega)]
    rfl

end Sys2Proof.Machine
end

section
/-! PROOFS. AUTOCORR (44_autocorr.md R91-R97): the counts of its loop as cardinalities, the bounds R94 derives from
them, and the command on a steady source. -/

namespace Sys2Proof.Machine

/-! ## Cyclic shifts (R92) -/

theorem shift_back {n k i : Nat} (hk : k ≤ n) (hi : i < n) : ((i + k) % n + (n - k)) % n = i := by
  rw [Nat.mod_add_mod, show i + k + (n - k) = i + n by omega, Nat.add_mod_right, Nat.mod_eq_of_lt hi]

/-- A cyclic shift permutes the positions. -/
theorem card_filter_shift (p : Nat → Prop) [DecidablePred p] {n k : Nat} (hk : k ≤ n) :
    ((Finset.range n).filter (fun i => p ((i + k) % n))).card = ((Finset.range n).filter p).card := by
  have hforth : ∀ {j}, j < n → ((j + (n - k)) % n + k) % n = j := fun {j} hj => by
    simpa [Nat.sub_sub_self hk] using shift_back (Nat.sub_le n k) hj
  refine Finset.card_nbij' (fun i => (i + k) % n) (fun j => (j + (n - k)) % n) ?_ ?_ ?_ ?_ <;> intro i hi <;>
    simp only [Finset.coe_filter, Finset.mem_range, Set.mem_ofPred_eq] at hi ⊢ <;> obtain ⟨hlt, hp⟩ := hi
  · exact ⟨Nat.mod_lt _ (by omega), hp⟩
  · exact ⟨Nat.mod_lt _ (by omega), by rwa [hforth hlt]⟩
  · exact shift_back hk hlt
  · exact hforth hlt

section
variable (bit : Nat → Bool) {n k : Nat}

theorem oneCount_le : oneCount bit n ≤ n :=
  (Finset.card_filter_le _ _).trans_eq (Finset.card_range n)

theorem pairCount_le_oneCount : pairCount bit n k ≤ oneCount bit n :=
  Finset.card_le_card (Finset.monotone_filter_right _ fun _ _ h => h.1)

/-- Inclusion and exclusion over the ones and the shifted ones (R94). -/
theorem two_mul_oneCount_le (hk : k ≤ n) : 2 * oneCount bit n ≤ n + pairCount bit n k := by
  have hshift := card_filter_shift (fun i => bit i = true) hk
  have hunion : ((Finset.range n).filter (fun i => bit i = true) ∪
      (Finset.range n).filter (fun i => bit ((i + k) % n) = true)).card ≤ n := by
    rw [← Finset.filter_or]
    exact (Finset.card_filter_le _ _).trans_eq (Finset.card_range n)
  have hincl := Finset.card_union_add_card_inter ((Finset.range n).filter (fun i => bit i = true))
    ((Finset.range n).filter (fun i => bit ((i + k) % n) = true))
  rw [← Finset.filter_and, hshift] at hincl
  unfold oneCount pairCount
  omega

/-- The pairs of lag `n - k` are those of lag `k`, read from their second position (R97). -/
theorem pairCount_sub (hk : k ≤ n) : pairCount bit n (n - k) = pairCount bit n k := by
  rw [pairCount, pairCount, ← card_filter_shift _ hk]
  refine congrArg _ (Finset.filter_congr fun i hi => ?_)
  rw [shift_back hk (Finset.mem_range.1 hi), and_comm]

end

/-! ## The loop (R92) -/

theorem countPosition_iterate (one shifted : Nat → Bool) (n k m : Nat) :
    (countPosition one shifted n k)^[m] ⟨0, 0, 0⟩ =
      ⟨m, Nat.count (fun i => one i = true ∧ shifted ((i + k) % n) = true) m, Nat.count (fun i => one i = true) m⟩ := by
  induction m with
  | zero => rfl
  | succ m ih =>
    rw [Function.iterate_succ_apply', ih, countPosition, Nat.count_succ, Nat.count_succ]
    cases one m <;> cases shifted ((m + k) % n) <;> rfl

/-- `x1` and `x2` of R92 for the source in memory. -/
def State.memoryPairs (s : State) : Nat :=
  pairCount (bitRead s.mem s.args.v0.toNat) s.args.v1.toNat s.args.v2.toNat

def State.memoryOnes (s : State) : Nat := oneCount (bitRead s.mem s.args.v0.toNat) s.args.v1.toNat

/-- On a steady source both readings of a bit are the bit in memory. -/
theorem State.autocorrCounts_steady {s : State} (hsrc : SteadyBuffer s s.args.v0.toNat s.args.v1.toNat) :
    s.autocorrCounts = ⟨s.args.v1.toNat, s.memoryPairs, s.memoryOnes⟩ := by
  have hloop : s.autocorrCounts = (countPosition (sourceBit s s.args.v0.toNat 0) (sourceBit s s.args.v0.toNat 1)
      s.args.v1.toNat s.args.v2.toNat)^[s.args.v1.toNat] ⟨0, 0, 0⟩ :=
    repeatWhile_count CountRun.pos _ (fun _ => rfl) (fun _ => rfl) _ _ le_rfl
  rw [hloop, countPosition_iterate, Nat.count_eq_card_filter_range, Nat.count_eq_card_filter_range,
    State.memoryPairs, State.memoryOnes, pairCount, oneCount]
  congr 2 <;> refine Finset.filter_congr fun i hi => ?_
  · have hi := Finset.mem_range.1 hi
    rw [sourceBit_steady 0 hsrc hi, sourceBit_steady 1 hsrc (Nat.mod_lt _ (by omega))]
  · rw [sourceBit_steady 0 hsrc (Finset.mem_range.1 hi)]

/-! ## The estimate (R93, R94, R96) -/

theorem autocorrDen_eq_zero_iff {n x2 : Nat} (hle : x2 ≤ n) : autocorrDen n x2 = 0 ↔ x2 = 0 ∨ x2 = n := by
  rw [autocorrDen, Nat.mul_eq_zero]
  omega

/-- R94: the quotient lies in [-1, 1], for counts with `x1 <= x2 <= n` and `2*x2 - n <= x1`. -/
theorem natAbs_autocorrNum_le {n x1 x2 : Nat} (hpairs : x1 ≤ x2) (hones : x2 ≤ n) (hincl : 2 * x2 ≤ n + x1) :
    (autocorrNum n x1 x2).natAbs ≤ autocorrDen n x2 := by
  obtain ⟨z, rfl⟩ := Nat.exists_eq_add_of_le hones
  rw [autocorrDen, Nat.add_sub_cancel_left, autocorrNum]
  have hupper : (x2 + z) * x1 ≤ (x2 + z) * x2 := Nat.mul_le_mul_left _ hpairs
  have hlower : x2 * x2 ≤ (x2 + z) * x1 + x2 * z :=
    calc x2 * x2 ≤ x2 * (x1 + z) := Nat.mul_le_mul_left x2 (by omega)
      _ = x2 * x1 + x2 * z := Nat.mul_add ..
      _ ≤ (x2 + z) * x1 + x2 * z := Nat.add_le_add_right (Nat.mul_le_mul_right _ (Nat.le_add_right ..)) _
  zify at hupper hlower ⊢
  rw [abs_le]
  constructor <;> linarith

section
variable {n x1 x2 : Nat}

theorem autocorrResult_degenerate (h : x2 = 0 ∨ x2 = n) :
    autocorrResult n x1 x2 = (0, .degenerateAutocorrelation) :=
  if_pos ((autocorrDen_eq_zero_iff (by omega)).2 h)

/-- A source with ones and zeros gives a quotient, and the check of R96 passes. -/
theorem autocorrResult_ordinary (hpairs : x1 ≤ x2) (hones : x2 ≤ n) (hincl : 2 * x2 ≤ n + x1)
    (h : ¬(x2 = 0 ∨ x2 = n)) :
    autocorrResult n x1 x2 = (rne64 (autocorrNum n x1 x2) (autocorrDen n x2), .ok) := by
  have hinside := outsideUnit_rne64 (natAbs_autocorrNum_le hpairs hones hincl)
  rw [autocorrResult, if_neg (mt (autocorrDen_eq_zero_iff hones).1 h)]
  exact if_neg (Bool.not_eq_true _ ▸ hinside)

end

/-! ## The command on a steady source (R97) -/

/-- What R96 makes of the counts of the source in memory. -/
def State.steadyResult (s : State) : Word64 × StatusCode :=
  autocorrResult s.args.v1.toNat s.memoryPairs s.memoryOnes

theorem State.steadyResult_degenerate {s : State} (h : s.memoryOnes = 0 ∨ s.memoryOnes = s.args.v1.toNat) :
    s.steadyResult = (0, .degenerateAutocorrelation) :=
  autocorrResult_degenerate h

section
variable {s : State} (hn : ¬PreconditionFails s .autocorr)

include hn

theorem autocorr_lag_lt : s.args.v2.toNat < s.args.v1.toNat := by
  simp only [PreconditionFails, not_or, not_le] at hn
  obtain ⟨-, hlag, -⟩ := hn
  exact hlag

theorem State.steadyResult_ordinary (h : ¬(s.memoryOnes = 0 ∨ s.memoryOnes = s.args.v1.toNat)) :
    s.steadyResult = (rne64 (autocorrNum s.args.v1.toNat s.memoryPairs s.memoryOnes)
      (autocorrDen s.args.v1.toNat s.memoryOnes), .ok) :=
  autocorrResult_ordinary (pairCount_le_oneCount _) (oneCount_le _) (two_mul_oneCount_le _ (autocorr_lag_lt hn).le) h

theorem State.steadyResult_code_ne_internalConsistency : s.steadyResult.2 ≠ .internalConsistency := by
  by_cases h : s.memoryOnes = 0 ∨ s.memoryOnes = s.args.v1.toNat
  · rw [State.steadyResult_degenerate h]
    nofun
  · rw [State.steadyResult_ordinary hn h]
    nofun

theorem exec_autocorr_steady (hsrc : SteadyBuffer s s.args.v0.toNat s.args.v1.toNat) :
    ∃ tr, exec .autocorr s = .next (
      if autocorrBusError s then ((s.running tr).countDraw).complete .busError
      else (((s.running tr).countDraw).setRes 0 s.steadyResult.1).complete s.steadyResult.2) := by
  have heffect := autocorrEffect_ok hn
  rw [State.autocorrCounts_steady hsrc] at heffect
  exact ⟨_, congrArg Host.Outcome.next heffect⟩

end

/-! ## The other lag (R97) -/

/-- The state with lag `n - k` in place of lag `k`. -/
def State.otherLag (s : State) : State := { s with args := { s.args with v2 := s.args.v1 - s.args.v2 } }

section
variable {s : State} (hn : ¬PreconditionFails s .autocorr)

include hn

theorem State.otherLag_toNat : s.otherLag.args.v2.toNat = s.args.v1.toNat - s.args.v2.toNat :=
  BitVec.toNat_sub_of_le (BitVec.le_def.2 (autocorr_lag_lt hn).le)

theorem State.otherLag_inRange (hk : s.args.v2 ≠ 0) : ¬PreconditionFails s.otherLag .autocorr := by
  have hlag := State.otherLag_toNat hn
  have hpos := (word_ne_zero_iff _).1 hk
  simp only [PreconditionFails, not_or, not_le] at hn ⊢
  obtain ⟨hbits, -, hbuffer⟩ := hn
  exact ⟨hbits, by rw [hlag]; exact Nat.sub_lt (Nat.pos_of_ne_zero hbits) (Nat.pos_of_ne_zero hpos), hbuffer⟩

theorem State.steadyResult_otherLag : s.otherLag.steadyResult = s.steadyResult := by
  have hpairs : s.otherLag.memoryPairs = s.memoryPairs := by
    rw [State.memoryPairs, State.otherLag_toNat hn]
    exact pairCount_sub _ (autocorr_lag_lt hn).le
  rw [State.steadyResult, hpairs]
  rfl

end

/-! ## The obligations -/

/-- Settles O53: on a steady source the counts meet the bounds of R94, whatever the operands are. -/
theorem internalConsistencyUnreachable : Obligations.InternalConsistencyUnreachable := by
  intro s t _ hsrc hexec
  cases exec_executed hexec with
  | rejected _ e _ he => obtain rfl | rfl | rfl := he <;> nofun
  | autocorr tr e v hn hb he =>
    rw [State.autocorrCounts_steady hsrc] at he
    have hcode : e = s.steadyResult.2 := congrArg Prod.snd he
    exact hcode.trans_ne (State.steadyResult_code_ne_internalConsistency hn)
  | autocorrFails => nofun

/-- Settles O54: both lags count the same pairs. -/
theorem autocorrLagSymmetry : Obligations.AutocorrLagSymmetry := by
  intro s hn hsrc hk
  obtain ⟨tr, hexec⟩ := exec_autocorr_steady hn hsrc
  obtain ⟨tr', hexec'⟩ := exec_autocorr_steady (State.otherLag_inRange hn hk) hsrc
  refine ⟨_, _, hexec, hexec', ?_⟩
  rw [State.steadyResult_otherLag hn, show autocorrBusError s.otherLag = autocorrBusError s from rfl]
  split <;> exact ⟨rfl, rfl⟩

end Sys2Proof.Machine

namespace Sys2Proof

open Machine

/-- Settles O52: the counts of a steady source are cardinalities, and its estimate passes the check of R96. -/
theorem autocorrResult : Obligations.AutocorrResult := by
  intro s hn hsrc hread n x1 x2
  obtain ⟨tr, hexec⟩ := exec_autocorr_steady hn hsrc
  have hb : ¬autocorrBusError s = true := by rw [Bool.not_eq_true]; exact hread
  rw [if_neg hb] at hexec
  refine ⟨_, hexec, rfl, rfl, rfl, rfl, fun h => ?_, fun ⟨h0, h1⟩ => ?_⟩
  · rw [State.steadyResult_degenerate h]
    exact ⟨.of_complete _ rfl rfl rfl rfl rfl rfl rfl rfl rfl, rfl⟩
  · rw [State.steadyResult_ordinary hn (not_or.2 ⟨h0, h1⟩), autocorrDen, Nat.mul_sub, mul_comm _ s.args.v1.toNat]
    exact ⟨.of_complete _ rfl rfl rfl rfl rfl rfl rfl rfl rfl, rfl⟩

end Sys2Proof
end

section
/-! PROOFS. The period of the scalar step (40_mixer_scalar.md R63, R67): an odd increment takes CUR through every value
before it comes back to one. -/

namespace Sys2Proof.Machine

/-! ## The context after a number of draws (R66) -/

/-- Draws change CUR alone. -/
theorem advanceBy_eq (n : Nat) (x : ScalarCtx) : advanceBy n x = ⟨(advanceBy n x).cur, x.inc, x.valid⟩ := by
  rw [← advanceBy_inc n x, ← advanceBy_valid n x]

/-- CUR after `n` draws, in closed form. -/
theorem advanceBy_cur_eq (n : Nat) (x : ScalarCtx) :
    (advanceBy n x).cur = x.cur + (∑ i ∈ Finset.range n, mult64 ^ i) * ((mult64 - 1) * x.cur + x.inc) := by
  induction n with
  | zero => simp
  | succ n ih =>
    rw [advanceBy_succ', ScalarCtx.advance_cur, step64, advanceBy_inc, ih, geom_sum_succ]
    ring

/-- Among `2^64 + 1` contexts of a stream two are the same, CUR being a word. -/
theorem exists_advanceBy_repeats (x : ScalarCtx) :
    ∃ i k, i < k ∧ k ≤ 2 ^ 64 ∧ advanceBy i x = advanceBy k x := by
  obtain ⟨i, k, hne, hcur⟩ := Fintype.exists_ne_map_eq_of_card_lt
    (fun i : Fin (2 ^ 64 + 1) => (advanceBy i x).cur.toFin) (by simp only [Fintype.card_fin]; exact Nat.lt_succ_self _)
  have hctx : advanceBy i x = advanceBy k x := by
    rw [advanceBy_eq i, advanceBy_eq k, BitVec.toFin_inj.1 hcur]
  obtain hlt | hlt := lt_or_gt_of_ne hne
  · exact ⟨i, k, hlt, Nat.le_of_lt_succ k.isLt, hctx⟩
  · exact ⟨k, i, hlt, Nat.le_of_lt_succ i.isLt, hctx.symm⟩

/-! ## The period (R67) -/

/-- A geometric sum whose ratio is 1 modulo 4 has as many factors 2 as its number of terms. -/
theorem two_pow_dvd_of_dvd_geomSum {a : Int} (ha : 4 ∣ a - 1) (hne : a ≠ 1) {w n : Nat}
    (h : 2 ^ w ∣ ∑ i ∈ Finset.range n, a ^ i) : (2 : Int) ^ w ∣ n := by
  have hodd : ¬2 ∣ a := by omega
  have hlift : emultiplicity 2 (∑ i ∈ Finset.range n, a ^ i) + emultiplicity 2 (a - 1) =
      emultiplicity 2 (n : Int) + emultiplicity 2 (a - 1) := by
    rw [← emultiplicity_mul Int.prime_two, geom_sum_mul, add_comm, ← Int.two_pow_sub_pow' n ha hodd, one_pow]
  have hfin : emultiplicity 2 (a - 1) ≠ ⊤ := finiteMultiplicity_iff_emultiplicity_ne_top.1
    (Int.finiteMultiplicity_iff.2 ⟨by decide, sub_ne_zero.2 hne⟩)
  rw [pow_dvd_iff_le_emultiplicity] at h ⊢
  rwa [← WithTop.add_right_cancel hfin hlift]

theorem two_pow_dvd_of_geomSum_mult64 {n : Nat} (h : ∑ i ∈ Finset.range n, mult64 ^ i = 0) : 2 ^ 64 ∣ n := by
  have hcast : ((∑ i ∈ Finset.range n, mult64.toNat ^ i : Nat) : Word64) = 0 := by
    rw [← h]
    push_cast
    rfl
  have hdvd : 2 ^ 64 ∣ ∑ i ∈ Finset.range n, mult64.toNat ^ i := Nat.dvd_of_mod_eq_zero (congrArg BitVec.toNat hcast)
  have hint := two_pow_dvd_of_dvd_geomSum (a := mult64.toNat) (by decide) (by decide) (w := 64) (n := n)
    (by exact_mod_cast hdvd)
  exact_mod_cast hint

/-- An odd word is no zero divisor. -/
theorem eq_zero_of_mul_odd {v u : Word64} (hu : u.toNat % 2 = 1) (h : v * u = 0) : v = 0 := by
  have hdvd : 2 ^ 64 ∣ v.toNat * u.toNat := Nat.dvd_of_mod_eq_zero (congrArg BitVec.toNat h)
  have hcop : Nat.Coprime (2 ^ 64) u.toNat := Nat.Coprime.pow_left 64 (Nat.coprime_two_left.2 (Nat.odd_iff.2 hu))
  exact BitVec.eq_of_toNat_eq (Nat.eq_zero_of_dvd_of_lt (hcop.dvd_of_dvd_mul_right hdvd) v.isLt)

/-- What the step adds to CUR is odd, where the increment is. -/
theorem step_difference_odd {x : ScalarCtx} (hinc : x.inc.getLsbD 0 = true) :
    ((mult64 - 1) * x.cur + x.inc).toNat % 2 = 1 := by
  have hodd : x.inc.toNat % 2 = 1 := by
    rwa [← BitVec.testBit_toNat, Nat.testBit_zero, decide_eq_true_eq] at hinc
  have hmult : (mult64 - 1).toNat = 0x5851F42D4C957F2C := by decide
  rw [BitVec.toNat_add, BitVec.toNat_mul, hmult]
  omega

/-- CUR does not come back within fewer than `2^64` draws. -/
theorem advanceBy_cur_ne {x : ScalarCtx} (hinc : x.inc.getLsbD 0 = true) {n : Nat} (h0 : 0 < n) (hn : n < 2 ^ 64) :
    (advanceBy n x).cur ≠ x.cur := by
  rw [advanceBy_cur_eq, Ne, add_eq_left]
  intro h
  have hdvd := two_pow_dvd_of_geomSum_mult64 (eq_zero_of_mul_odd (step_difference_odd hinc) h)
  exact absurd (Nat.le_of_dvd h0 hdvd) (not_le.2 hn)

/-- Every value is CUR within `2^64` draws: they are all different. -/
theorem exists_advanceBy_cur {x : ScalarCtx} (hinc : x.inc.getLsbD 0 = true) (v : Word64) :
    ∃ i, (advanceBy i x).cur = v := by
  have hdiff : ∀ i k : Fin (2 ^ 64), i < k → (advanceBy i x).cur ≠ (advanceBy k x).cur := fun i k hik => by
    have hne := advanceBy_cur_ne (x := advanceBy i x) (by rwa [advanceBy_inc]) (Nat.sub_pos_of_lt hik)
      ((Nat.sub_le _ _).trans_lt k.isLt)
    rw [← advanceBy_add, Nat.sub_add_cancel hik.le] at hne
    exact hne.symm
  have hinj : Function.Injective fun i : Fin (2 ^ 64) => (advanceBy i x).cur.toFin := fun i k h => by
    have hcur := BitVec.toFin_inj.1 h
    exact le_antisymm (not_lt.1 fun hlt => hdiff k i hlt hcur.symm) (not_lt.1 fun hlt => hdiff i k hlt hcur)
  obtain ⟨i, hi⟩ := Finite.surjective_of_injective hinj v.toFin
  exact ⟨i, BitVec.toFin_inj.1 hi⟩

end Sys2Proof.Machine
end

section
/-! PROOFS. BOUNDED (45_bounded_binomial.md R98-R102): the mask, the first accepted draw, and when there is one. -/

namespace Sys2Proof.Machine

/-! ## The mask (R99) -/

section
variable {v : Word64}

theorem bitlen_pos (hv : v ≠ 0) : 1 ≤ bitlen v := by
  rw [bitlen_of_ne_zero hv]
  exact Nat.le_add_left 1 _

theorem toNat_maskOf (hv : v ≠ 0) : (maskOf v).toNat = 2 ^ bitlen v - 1 := by
  have hle : 2 ^ bitlen v ≤ 2 ^ 64 := Nat.pow_le_pow_right two_pos (bitlen_le hv)
  rw [maskOf, BitVec.toNat_ofNat, Nat.mod_eq_of_lt (by omega)]

/-- No fewer bits hold the word. -/
theorem bitlen_le_of_lt_two_pow (hv : v ≠ 0) {i : Nat} (h : v.toNat < 2 ^ i) : bitlen v ≤ i := by
  rw [bitlen_of_ne_zero hv]
  exact (Nat.log2_lt (BitVec.toNat_ne_iff_ne.mpr hv)).2 h

end

theorem toNat_span {lo hi : Word64} (h : lo.toNat < hi.toNat) : (hi - lo).toNat = hi.toNat - lo.toNat := by
  bv_omega

/-- Settles O42: the mask has the span's bit length. -/
theorem maskIsSmallestAllOnes : Obligations.MaskIsSmallestAllOnes := by
  intro lo hi h
  have hspan := toNat_span h
  have hne : hi - lo ≠ 0 := (word_ne_zero_iff _).2 (by omega)
  refine ⟨hspan, bitlen (hi - lo), bitlen_pos hne, bitlen_le hne, toNat_maskOf hne,
    Nat.le_pred_of_lt (toNat_lt_two_pow_bitlen _), fun i hi => bitlen_le_of_lt_two_pow hne ?_⟩
  exact (Nat.le_sub_one_iff_lt (Nat.two_pow_pos i)).1 hi

/-! ## The first accepted draw (R100) -/

/-- Draw `j` is accepted, and none before it is. -/
structure FirstAccepted (p : Config.Params) (x : ScalarCtx) (span mask : Word64) (j : Nat) : Prop where
  accepted : (maskedDraw p x mask j).toNat ≤ span.toNat
  before : ∀ i, i < j → ¬(maskedDraw p x mask i).toNat ≤ span.toNat

section
variable {p : Config.Params} {x : ScalarCtx} {span mask : Word64} {j : Nat}

theorem exists_firstAccepted (h : (maskedDraw p x mask j).toNat ≤ span.toNat) :
    ∃ j, FirstAccepted p x span mask j := by
  have hex : ∃ j, (maskedDraw p x mask j).toNat ≤ span.toNat := ⟨j, h⟩
  exact ⟨Nat.find hex, Nat.find_spec hex, fun _ => Nat.find_min hex⟩

theorem FirstAccepted.unique {k : Nat} (hj : FirstAccepted p x span mask j) (hk : FirstAccepted p x span mask k) :
    j = k :=
  le_antisymm (not_lt.1 fun h => hj.before k h hk.accepted) (not_lt.1 fun h => hk.before j h hj.accepted)

/-- The first accepted draw is among the first `2^64`: a later one would have come up already, the stream having
repeated itself. -/
theorem FirstAccepted.lt (h : FirstAccepted p x span mask j) : j < drawsBeforeRepeat := by
  by_contra hj
  obtain ⟨i, k, hik, hk, hrepeat⟩ := exists_advanceBy_repeats x
  have hkj : k ≤ j := hk.trans (not_lt.1 hj)
  have hearlier : maskedDraw p x mask (j - k + i) = maskedDraw p x mask j := by
    rw [maskedDraw, maskedDraw, drawWord, drawWord, advanceBy_add, hrepeat, ← advanceBy_add, Nat.sub_add_cancel hkj]
  exact h.before (j - k + i) (by omega) (hearlier ▸ h.accepted)

theorem FirstAccepted.rejectionLoop_eq (h : FirstAccepted p x span mask j) :
    rejectionLoop p span mask drawsBeforeRepeat x = some (maskedDraw p x mask j, advanceBy (j + 1) x) := by
  obtain ⟨-, hnone⟩ | ⟨k, -, haccepted, hbefore, hloop⟩ := rejectionLoop_cases p span mask drawsBeforeRepeat x
  · exact absurd h.accepted (hnone j h.lt)
  · rw [hloop, h.unique ⟨haccepted, hbefore⟩]

end

/-! ## The command (R100-R102) -/

/-- What a drawing command leaves behind: the advanced context, its result in RES0, and the command completed. -/
theorem completed_setScalar_setRes {s : State} {c : Ctx} {x : ScalarCtx} (hx : s.scalar? c = some x) (y : ScalarCtx)
    (v : Word64) (tr : Transient) :
    let t := (((s.running tr).setScalar c y).setRes 0 v).complete .ok
    CompletedFrom s t .ok ∧ t.res = ⟨v, s.res.v1, s.res.v2, s.res.v3⟩ ∧ t.scalar? c = some y ∧
      KeepsButScalar c s t ∧ t.entropy = s.entropy :=
  ⟨.of_complete .ok rfl rfl rfl rfl rfl rfl rfl rfl rfl, rfl, State.setScalar_get s c x y hx,
    ⟨sameScalarBut_setScalar s c y, rfl, rfl, rfl⟩, rfl⟩

section
variable {s : State} {c : Ctx} {x : ScalarCtx} (hx : s.scalar? c = some x) (hv : x.valid = true)
  (hlt : s.args.v0.toNat < s.args.v1.toNat)
include hx hv hlt

theorem exec_bounded_accepted {j : Nat}
    (hj : FirstAccepted s.params x (s.args.v1 - s.args.v0) (maskOf (s.args.v1 - s.args.v0)) j) :
    ∃ tr, exec (.bounded c) s = .next ((((s.running tr).setScalar c (advanceBy (j + 1) x)).setRes 0
      (maskedDraw s.params x (maskOf (s.args.v1 - s.args.v0)) j + s.args.v0)).complete .ok) := by
  obtain ⟨tr, hloop, -⟩ | ⟨v, y, tr, hloop, heffect⟩ := boundedEffect_valid hx hv (not_le.2 hlt)
  · exact absurd (hj.rejectionLoop_eq.symm.trans hloop) (by simp)
  · obtain ⟨rfl, rfl⟩ := Prod.mk.inj (Option.some.inj (hloop.symm.trans hj.rejectionLoop_eq))
    exact ⟨tr, congrArg Host.Outcome.next heffect⟩

theorem exec_bounded_runs
    (hnone : ∀ i, ¬(maskedDraw s.params x (maskOf (s.args.v1 - s.args.v0)) i).toNat ≤ (s.args.v1 - s.args.v0).toNat) :
    ∃ tr, exec (.bounded c) s = .next (s.running tr) := by
  obtain ⟨tr, -, heffect⟩ | ⟨v, y, tr, hloop, -⟩ := boundedEffect_valid hx hv (not_le.2 hlt)
  · exact ⟨tr, congrArg Host.Outcome.next heffect⟩
  · obtain ⟨hfail, -⟩ | ⟨j, -, haccepted, -⟩ := rejectionLoop_cases s.params (s.args.v1 - s.args.v0)
      (maskOf (s.args.v1 - s.args.v0)) drawsBeforeRepeat x
    · exact absurd (hloop.symm.trans hfail) (by simp)
    · exact absurd haccepted (hnone j)

end

/-- Settles O43: the first accepted draw comes before the loop gives up. -/
theorem boundedReturnsFirstAccepted : Obligations.BoundedReturnsFirstAccepted := by
  intro s c x j hx hv hlt span haccepted hbefore
  obtain ⟨tr, hexec⟩ := exec_bounded_accepted hx hv hlt ⟨haccepted, hbefore⟩
  exact ⟨_, hexec, completed_setScalar_setRes hx _ _ tr⟩

/-- Settles O44: a loop that finds nothing leaves the command running. -/
theorem boundedMayNeverComplete : Obligations.BoundedMayNeverComplete := fun _ _ _ hx hv hlt hnone =>
  exec_bounded_runs hx hv hlt hnone

/-- With the reference PERM64, a CUR of 0 is drawn as 0, which any mask and any span accept. -/
theorem maskedDraw_of_cur_zero {p : Config.Params} {x : ScalarCtx} {i : Nat} (hp : p.perm64 = .reference)
    (hcur : (advanceBy i x).cur = 0) (mask : Word64) : maskedDraw p x mask i = 0 := by
  have hdraw : drawWord p x i = 0 := by
    rw [drawWord, ScalarCtx.out, hcur, perm64, hp]
    decide
  rw [maskedDraw, hdraw]
  exact BitVec.zero_and

/-- Settles O45: the period takes CUR through 0, whose draw is accepted. -/
theorem boundedCompletesForReference : Obligations.BoundedCompletesForReference := by
  intro s c x hp hx hv hinc hlt
  obtain ⟨i, hcur⟩ := exists_advanceBy_cur hinc 0
  have haccepted : (maskedDraw s.params x (maskOf (s.args.v1 - s.args.v0)) i).toNat ≤
      (s.args.v1 - s.args.v0).toNat := by
    rw [maskedDraw_of_cur_zero hp hcur]
    exact Nat.zero_le _
  obtain ⟨j, hj⟩ := exists_firstAccepted haccepted
  obtain ⟨tr, hexec⟩ := exec_bounded_accepted hx hv hlt hj
  exact ⟨_, hexec, (completed_setScalar_setRes hx _ _ tr).1⟩

/-- Any value the loop answers is within the span. -/
theorem rejectionLoop_le {p : Config.Params} {span mask v : Word64} {n : Nat} {x y : ScalarCtx}
    (h : rejectionLoop p span mask n x = some (v, y)) : v.toNat ≤ span.toNat := by
  obtain ⟨hnone, -⟩ | ⟨j, -, haccepted, -, hloop⟩ := rejectionLoop_cases p span mask n x
  · exact absurd (hnone.symm.trans h) (by simp)
  · obtain ⟨rfl, -⟩ := Prod.mk.inj (Option.some.inj (hloop.symm.trans h))
    exact haccepted

/-- Settles O46: a value within the span, added to the minimum, does not wrap. -/
theorem boundedResultInRange : Obligations.BoundedResultInRange := by
  intro s t c hbusy hexec
  cases exec_executed hexec with
  | rejected _ e _ he => obtain rfl | rfl | rfl := he <;> nofun
  | boundedRuns c x tr => exact fun hidle => absurd (hbusy.symm.trans hidle) (by simp)
  | bounded c x y v tr hx hv hn hl =>
    have hlt : s.args.v0.toNat < s.args.v1.toNat := not_le.1 hn
    have hle := rejectionLoop_le hl
    rw [toNat_span hlt] at hle
    have hsum : (v + s.args.v0).toNat = v.toNat + s.args.v0.toNat := by
      rw [BitVec.toNat_add, Nat.mod_eq_of_lt (by omega)]
    have hres : ((((s.running tr).setScalar c y).setRes 0 (v + s.args.v0)).complete .ok).res.v0 = v + s.args.v0 := rfl
    rw [hres, hsum]
    omega

end Sys2Proof.Machine
end

section
/-! PROOFS. BINOMIAL (45_bounded_binomial.md R103-R105): the sum of its blocks, the draws it makes, and the bound on its
result. -/

namespace Sys2Proof.Machine

/-! ## Counting the bits of a word -/

theorem setBits_le (v : Word64) : setBits v ≤ 64 :=
  (Finset.card_filter_le _ _).trans_eq (Finset.card_range 64)

/-- The top `r` bits of a word hold at most `r` ones. -/
theorem setBits_shiftRight_le (v : Word64) {r : Nat} (hr : r ≤ 64) : setBits (v >>> (64 - r)) ≤ r := by
  have hsub : (Finset.range 64).filter (fun i => (v >>> (64 - r)).getLsbD i = true) ⊆ Finset.range r := fun i hi => by
    obtain ⟨-, hbit⟩ := Finset.mem_filter.1 hi
    rw [BitVec.getLsbD_ushiftRight] at hbit
    have hlt := BitVec.lt_of_getLsbD hbit
    exact Finset.mem_range.2 (by omega)
  exact (Finset.card_le_card hsub).trans_eq (Finset.card_range r)

/-! ## The sum and the context of the block loop (R104) -/

/-- The BIAS word of block `b`, the stream of which starts at `x`. -/
def blockWord (p : Config.Params) (n m : Word64) (x : ScalarCtx) (b : Nat) : Word64 :=
  (biasCore p n m (advanceBy (b * (m.toNat - ctz n)) x)).acc

/-- The successes of `k` trials: those of the full blocks, and of the top bits of the block left unfinished. -/
def successes (p : Config.Params) (k : Nat) (n m : Word64) (x : ScalarCtx) : Nat :=
  ((List.range (k / 64)).map (fun b => setBits (blockWord p n m x b))).sum +
    if k % 64 = 0 then 0 else setBits (blockWord p n m x (k / 64) >>> (64 - k % 64))

theorem successes_le (p : Config.Params) (k : Nat) (n m : Word64) (x : ScalarCtx) : successes p k n m x ≤ k := by
  have hfull : ((List.range (k / 64)).map (fun b => setBits (blockWord p n m x b))).sum ≤ k / 64 * 64 := by
    have h := List.sum_le_card_nsmul ((List.range (k / 64)).map (fun b => setBits (blockWord p n m x b))) 64
      (List.forall_mem_map.2 fun b _ => setBits_le _)
    rwa [List.length_map, List.length_range] at h
  have hpart := setBits_shiftRight_le (blockWord p n m x (k / 64)) (Nat.mod_lt k (by decide : 0 < 64)).le
  unfold successes
  split <;> omega

section
variable (p : Config.Params) (k n m : Word64) (x : ScalarCtx) (hm : m.toNat ≤ 64)
include hm

/-- One more BIAS word, one more row of draws. -/
theorem biasCore_block_ctx (b : Nat) : (biasCore p n m (advanceBy (b * (m.toNat - ctz n)) x)).ctx =
    advanceBy ((b + 1) * (m.toNat - ctz n)) x := by
  rw [biasCore_ctx p n m _ hm, ← advanceBy_add, Nat.succ_mul, Nat.add_comm]

/-- After `b` full blocks the context has made the draws of `b` BIAS words. -/
theorem binomialBlock_iterate_ctx (b : Nat) :
    ((binomialBlock p n m)^[b] ⟨0, 0, ⟨0, 0, x⟩⟩).last.ctx = advanceBy (b * (m.toNat - ctz n)) x := by
  induction b with
  | zero => rw [Nat.zero_mul]; rfl
  | succ b ih =>
    rw [Function.iterate_succ_apply', binomialBlock, ih]
    exact biasCore_block_ctx p n m x hm b

theorem binomialBlock_iterate_sum (b : Nat) :
    ((binomialBlock p n m)^[b] ⟨0, 0, ⟨0, 0, x⟩⟩).sum =
      ((List.range b).map (fun b => setBits (blockWord p n m x b))).sum := by
  induction b with
  | zero => rfl
  | succ b ih =>
    rw [Function.iterate_succ_apply', binomialBlock, ih, binomialBlock_iterate_ctx p n m x hm, popcount_eq_setBits,
      List.range_succ, List.map_append, List.sum_append, List.map_singleton, List.sum_singleton]
    rfl

/-- What BINOMIAL counts, and where its context stands afterwards. -/
theorem binomialCore_result : (binomialCore p k n m x).sum = successes p k.toNat n m x ∧
    (binomialCore p k n m x).last.ctx = advanceBy ((k.toNat + 63) / 64 * (m.toNat - ctz n)) x := by
  have hctx := binomialBlock_iterate_ctx p n m x hm (k.toNat / 64)
  have hsum := binomialBlock_iterate_sum p n m x hm (k.toNat / 64)
  rw [binomialCore, binomialBlocks_eq_iterate, binomialTail, successes]
  by_cases hpart : k.toNat % 64 = 0
  · have hblocks : (k.toNat + 63) / 64 = k.toNat / 64 := by omega
    rw [if_pos hpart, if_pos hpart, hblocks]
    exact ⟨hsum, hctx⟩
  · have hblocks : (k.toNat + 63) / 64 = k.toNat / 64 + 1 := by omega
    rw [if_neg hpart, if_neg hpart, hblocks, hctx, hsum]
    exact ⟨congrArg (_ + ·) (popcount_eq_setBits _), biasCore_block_ctx p n m x hm _⟩

end

/-! ## The command (R105) -/

/-- The result register holds the whole count: it is at most `k`, which is a word. -/
theorem toNat_binomialCore_sum (p : Config.Params) (k n m : Word64) (x : ScalarCtx) (hm : m.toNat ≤ 64) :
    (BitVec.ofNat 64 (binomialCore p k n m x).sum).toNat = successes p k.toNat n m x := by
  rw [(binomialCore_result p k n m x hm).1, BitVec.toNat_ofNat,
    Nat.mod_eq_of_lt ((successes_le p k.toNat n m x).trans_lt k.isLt)]

theorem binomial_m_le {s : State} {c : Ctx} (hn : ¬PreconditionFails s (.binomial c)) : s.args.v2.toNat ≤ 64 := by
  obtain ⟨-, hbad⟩ := not_or.1 hn
  obtain ⟨-, -, hm, -⟩ := not_badNM_iff.1 hbad
  exact hm

theorem exec_binomial_valid {s : State} {c : Ctx} {x : ScalarCtx} (hx : s.scalar? c = some x) (hv : x.valid = true)
    (hn : ¬PreconditionFails s (.binomial c)) : ∃ tr, exec (.binomial c) s =
      .next ((((s.running tr).setScalar c (binomialCore s.params s.args.v0 s.args.v1 s.args.v2 x).last.ctx).setRes 0
        (BitVec.ofNat 64 (binomialCore s.params s.args.v0 s.args.v1 s.args.v2 x).sum)).complete .ok) :=
  ⟨_, congrArg Host.Outcome.next (binomialEffect_valid hx hv hn)⟩

/-- Settles O47: BINOMIAL writes back the context after its draws, and to RES0 the sum of its blocks. -/
theorem binomialCountsTrials : Obligations.BinomialCountsTrials := by
  intro s c x hx hv hn k draws word
  have hm := binomial_m_le hn
  obtain ⟨tr, hexec⟩ := exec_binomial_valid hx hv hn
  obtain ⟨hdone, hres, hctx, hframe⟩ := completed_setScalar_setRes hx
    (binomialCore s.params s.args.v0 s.args.v1 s.args.v2 x).last.ctx
    (BitVec.ofNat 64 (binomialCore s.params s.args.v0 s.args.v1 s.args.v2 x).sum) tr
  have hdraws := (binomialCore_result s.params s.args.v0 s.args.v1 s.args.v2 x hm).2
  exact ⟨_, hexec, hdone, toNat_binomialCore_sum s.params _ _ _ x hm, hres, hctx.trans (congrArg some hdraws), hframe⟩

/-- Settles O48: each block counts at most its trials. -/
theorem binomialAtMostTrials : Obligations.BinomialAtMostTrials := by
  intro s t c hexec
  cases exec_executed hexec with
  | rejected _ e _ he => obtain rfl | rfl | rfl := he <;> nofun
  | binomial c x tr hx hv hn =>
    intro _
    exact (toNat_binomialCore_sum s.params _ _ _ x (binomial_m_le hn)).trans_le (successes_le _ _ _ _ x)

end Sys2Proof.Machine
end

section
/-! PROOFS. Completion and errors of commands (60_exceptions.md R107-R115): every command ends with one code, each error
has the side effects R115 gives it, and PRECONDITION_VIOLATION is reported by the checks of R109 alone. -/

namespace Sys2Proof.Machine

/-! ## Completion (R107) -/

/-- Every way a command can go completes it, but for the BOUNDED whose loop accepts no draw (R101). -/
theorem Executed.completed {i : Instr} {s t : State} (h : Executed s i t) :
    CompletedFrom s t t.status.err ∨ ∃ c tr, i = .bounded c ∧ t = s.running tr := by
  cases h with
  | boundedRuns c x tr => exact .inr ⟨c, tr, rfl, rfl⟩
  | rejected | mix | initSeed | initEntropy | initFails | next | bounded | bias | binomial | debias | debiasFails
  | autocorr | autocorrFails | vinitSeeds | vinitEntropy | vinitFails | vnext =>
    exact .inl (.of_complete _ rfl rfl rfl rfl rfl rfl rfl rfl rfl)

/-- Settles O21, by the ways a command can go. -/
theorem commandEndsWithOneCode : Obligations.CommandEndsWithOneCode := fun _ _ _ h => (exec_executed h).completed

/-- A command that reports an error is not still running. -/
theorem Executed.completed_of_error {i : Instr} {s t : State} (h : Executed s i t) (herr : s.status.err = .ok)
    (hcode : t.status.err ≠ .ok) : CompletedFrom s t t.status.err := by
  refine h.completed.resolve_right ?_
  rintro ⟨c, tr, -, rfl⟩
  exact hcode herr

/-- A command that ends at once changes only `STATUS`. -/
theorem complete_changes_only_status (s : State) (e : StatusCode) :
    CompletedFrom s (s.complete e) e ∧ (s.complete e).res = s.res ∧ KeepsRest s (s.complete e) :=
  ⟨completedFrom_complete s e, rfl, keepsRest_complete s e⟩

/-! ## Contexts that are not valid (R111) -/

theorem withValidScalar_invalid {s : State} {c : Ctx} {x : ScalarCtx} (k : ScalarCtx → State)
    (hx : s.scalar? c = some x) (hv : x.valid = false) : withValidScalar s c k = s.complete .contextInvalid := by
  rw [withValidScalar, withScalar_some _ hx, hv]
  rfl

theorem withValidVector_invalid {s : State} {c : Ctx} {x : VectorCtx} (k : VectorCtx → State)
    (hx : s.vector? c = some x) (hv : x.valid = false) : withValidVector s c k = s.complete .contextInvalid := by
  rw [withValidVector, withVector_some _ hx, hv]
  rfl

/-- Settles O22: these commands look at the context before anything else. -/
theorem invalidContextReported : Obligations.InvalidContextReported := by
  refine fun s c => ⟨fun ⟨x, hx, hv⟩ i hi => ?_, fun ⟨x, hx, hv⟩ => ?_⟩
  · have hexec : exec i s = .next (s.complete .contextInvalid) := by
      obtain rfl | rfl | rfl | rfl := hi <;> exact congrArg Host.Outcome.next (withValidScalar_invalid _ hx hv)
    exact ⟨_, hexec, complete_changes_only_status s _⟩
  · exact ⟨_, congrArg Host.Outcome.next (withValidVector_invalid _ hx hv), complete_changes_only_status s _⟩

/-! ## Side effects, code by code (R115) -/

/-- What a command that ends in `t` with the given code has done, `OK` apart. -/
def ErrorEffects (s : State) (i : Instr) (t : State) : StatusCode → Prop
  | .ok => True
  | .illegalCommand | .contextInvalid | .preconditionViolation => t = s.complete t.status.err
  | .entropyUnavailable => t.res = s.res ∧
      ((∃ c, i = .init c ∧ KeepsButScalar c s t ∧ ∃ x, t.scalar? c = some x ∧ x.valid = false) ∨
       ∃ c, i = .vinit c ∧ KeepsButVector c s t ∧ ∃ x, t.vector? c = some x ∧ x.valid = false)
  | .busError => t.res = s.res ∧ t.sctx = s.sctx ∧ t.vctx = s.vctx ∧ t.entropy = s.entropy ∧
      ((i = .debias ∧ SameBytesOutside s.args.v2.toNat (8 * wordCount s.args.v3.toNat) s t) ∨
       (i = .autocorr ∧ t.mem = s.mem))
  | .degenerateAutocorrelation | .internalConsistency =>
      t.res = ⟨0, s.res.v1, s.res.v2, s.res.v3⟩ ∧ t.sctx = s.sctx ∧ t.vctx = s.vctx ∧ t.entropy = s.entropy ∧
        t.mem = s.mem

/-- Where AUTOCORR has no estimate its result is 0 (R96). -/
theorem autocorrResult_cases (n x1 x2 : Nat) : autocorrResult n x1 x2 = (0, .degenerateAutocorrelation) ∨
    autocorrResult n x1 x2 = (0, .internalConsistency) ∨ ∃ f, autocorrResult n x1 x2 = (f, .ok) := by
  unfold autocorrResult
  dsimp only
  split
  · exact .inl rfl
  · split
    · exact .inr (.inl rfl)
    · exact .inr (.inr ⟨_, rfl⟩)

theorem Executed.errorEffects {i : Instr} {s t : State} (h : Executed s i t) (herr : s.status.err = .ok) :
    ErrorEffects s i t t.status.err := by
  cases h with
  | rejected _ e _ he => obtain rfl | rfl | rfl := he <;> exact rfl
  | initFails c x p tr hx =>
    obtain ⟨-, hres, hctx, hframe, -⟩ := completed_setScalar hx { x with valid := false } p tr .entropyUnavailable
    exact ⟨hres, .inl ⟨c, rfl, hframe, _, hctx, rfl⟩⟩
  | vinitFails c x p tr hx =>
    obtain ⟨-, hres, hctx, hframe, -⟩ := completed_setVector hx { x with valid := false } p tr .entropyUnavailable
    exact ⟨hres, .inr ⟨c, rfl, hframe, _, hctx, rfl⟩⟩
  | debiasFails => exact ⟨rfl, rfl, rfl, rfl, .inl ⟨rfl, readByte_destAnyValue_outside s (fun _ => true) s.mem⟩⟩
  | autocorrFails => exact ⟨rfl, rfl, rfl, rfl, .inr ⟨rfl, rfl⟩⟩
  | autocorr tr e v _ _ he =>
    obtain hr | hr | ⟨f, hr⟩ := autocorrResult_cases s.args.v1.toNat s.autocorrCounts.x1 s.autocorrCounts.x2 <;>
      obtain ⟨rfl, rfl⟩ := Prod.mk.inj (he.trans hr)
    · exact ⟨rfl, rfl, rfl, rfl, rfl⟩
    · exact ⟨rfl, rfl, rfl, rfl, rfl⟩
    · trivial
  | boundedRuns c x tr =>
    rw [State.running_status, herr]
    trivial
  | mix | initSeed | initEntropy | next | bounded | bias | binomial | debias | vinitSeeds | vinitEntropy | vnext =>
    trivial

/-- A command that is turned away ends at once. -/
theorem Executed.eq_complete_of_rejected {i : Instr} {s t : State} (h : Executed s i t) (herr : s.status.err = .ok)
    (hcode : t.status.err = .illegalCommand ∨ t.status.err = .contextInvalid ∨
      t.status.err = .preconditionViolation) : t = s.complete t.status.err := by
  have heffects := h.errorEffects herr
  obtain e | e | e := hcode <;> rw [e] at heffects <;> exact heffects

/-- Settles O24: what each code comes with, on a command that has completed. -/
theorem errorSideEffects : Obligations.ErrorSideEffects := by
  intro i s t herr hexec
  have h := exec_executed hexec
  have heffects := h.errorEffects herr
  have hdone := h.completed_of_error herr
  refine ⟨fun hcode => ?_, fun hcode => ?_, fun hcode => ?_, fun hcode => ?_⟩
  · rw [h.eq_complete_of_rejected herr hcode]
    exact complete_changes_only_status s _
  · rw [hcode] at heffects hdone
    exact ⟨hdone nofun, heffects⟩
  · rw [hcode] at heffects hdone
    exact ⟨hdone nofun, heffects⟩
  · obtain e | e := hcode <;> rw [e] at heffects hdone ⊢ <;> exact ⟨hdone nofun, heffects⟩

/-! ## Who reports PRECONDITION_VIOLATION (R109) -/

section
variable {s : State} {c : Ctx}

theorem withScalar_precondition_iff (k : ScalarCtx → State) :
    (withScalar s c k).status.err = .preconditionViolation ↔
      ∃ x, s.scalar? c = some x ∧ (k x).status.err = .preconditionViolation := by
  obtain ⟨hx, e⟩ | ⟨x, hx, e⟩ := withScalar_cases s c k <;> rw [e, hx] <;> simp

theorem withVector_precondition_iff (k : VectorCtx → State) :
    (withVector s c k).status.err = .preconditionViolation ↔
      ∃ x, s.vector? c = some x ∧ (k x).status.err = .preconditionViolation := by
  obtain ⟨hx, e⟩ | ⟨x, hx, e⟩ := withVector_cases s c k <;> rw [e, hx] <;> simp

theorem withValidScalar_precondition_iff (k : ScalarCtx → State) :
    (withValidScalar s c k).status.err = .preconditionViolation ↔
      ∃ x, s.scalar? c = some x ∧ x.valid = true ∧ (k x).status.err = .preconditionViolation := by
  obtain ⟨hx, e⟩ | ⟨x, hx, hv, e⟩ | ⟨x, hx, hv, e⟩ := withValidScalar_cases s c k <;> rw [e, hx] <;> simp [*]

theorem withValidVector_precondition_iff (k : VectorCtx → State) :
    (withValidVector s c k).status.err = .preconditionViolation ↔
      ∃ x, s.vector? c = some x ∧ x.valid = true ∧ (k x).status.err = .preconditionViolation := by
  obtain ⟨hx, e⟩ | ⟨x, hx, hv, e⟩ | ⟨x, hx, hv, e⟩ := withValidVector_cases s c k <;> rw [e, hx] <;> simp [*]

/-- The check of a command that does not report the code itself. -/
theorem requireOperands_precondition_iff {ok : Bool} {k : State} {P : Prop} (hok : ok = true ↔ ¬P)
    (hk : k.status.err ≠ .preconditionViolation) :
    (requireOperands s ok k).status.err = .preconditionViolation ↔ P := by
  obtain ⟨hf, e⟩ | ⟨ht, e⟩ := requireOperands_cases s k ok <;> rw [e]
  · exact iff_of_true rfl (by simpa [hf] using hok)
  · exact iff_of_false hk (hok.1 ht)

/-- Context and operands are checked one after the other (R114). -/
theorem checkedScalar_precondition_iff {ok : Bool} {k : ScalarCtx → State} {P : Prop} (hok : ok = true ↔ ¬P)
    (hk : ∀ x, (k x).status.err ≠ .preconditionViolation) :
    (withValidScalar s c (fun x => requireOperands s ok (k x))).status.err = .preconditionViolation ↔
      (∃ x, s.scalar? c = some x ∧ x.valid = true) ∧ P := by
  simp only [withValidScalar_precondition_iff, fun x => requireOperands_precondition_iff (s := s) hok (hk x),
    ← and_assoc, exists_and_right]

theorem initEffect_err_ne_precondition : (initEffect c s).status.err ≠ .preconditionViolation := by
  rw [initEffect, ne_eq, withScalar_precondition_iff]
  rintro ⟨x, -, h⟩
  split at h
  · cases h
  · obtain ⟨p, tr, -, e⟩ | ⟨y, p, tr, -, e⟩ := initFromEntropy_cases s c x <;> rw [e] at h <;> cases h

theorem seedsZero_iff_get (q : Quad Word64) : seedsZero q = true ↔ ∀ l, q.get l = 0 := by
  simp only [seedsZero, Bool.and_eq_true, decide_eq_true_eq]
  exact ⟨fun ⟨⟨⟨h0, h1⟩, h2⟩, h3⟩ => Quad.forall_fin4 h0 h1 h2 h3, fun h => ⟨⟨⟨h 0, h 1⟩, h 2⟩, h 3⟩⟩

/-- VINIT wants four seeds or none (R77). -/
theorem vinitEffect_precondition_iff : (vinitEffect c s).status.err = .preconditionViolation ↔
    (∃ x, s.vector? c = some x) ∧ (∃ i, s.args.get i = 0) ∧ ∃ i, s.args.get i ≠ 0 := by
  rw [vinitEffect, withVector_precondition_iff, ← exists_and_right]
  refine exists_congr fun x => and_congr_right fun _ => ?_
  split
  · next hall => exact iff_of_false nofun fun ⟨⟨i, hi⟩, _⟩ => (seedsNonzero_iff _).1 hall i hi
  · next hsome =>
    split
    · next hnone =>
      refine iff_of_false ?_ fun ⟨_, i, hi⟩ => hi ((seedsZero_iff_get _).1 hnone i)
      obtain ⟨p, tr, -, e⟩ | ⟨y, p, tr, -, e⟩ := vinitFromEntropy_cases s c x <;> rw [e] <;> nofun
    · next hmixed =>
      rw [seedsNonzero_iff] at hsome
      rw [seedsZero_iff_get] at hmixed
      push Not at hsome hmixed
      exact iff_of_true rfl ⟨hsome, hmixed⟩

theorem boundedEffect_precondition_iff (herr : s.status.err = .ok) :
    (boundedEffect c s).status.err = .preconditionViolation ↔
      (∃ x, s.scalar? c = some x ∧ x.valid = true) ∧ PreconditionFails s (.bounded c) := by
  refine checkedScalar_precondition_iff (boundedOK_iff s c) fun x => ?_
  dsimp only
  split
  · nofun
  · rw [State.running_status, herr]
    nofun

theorem debiasEffect_precondition_iff :
    (debiasEffect s).status.err = .preconditionViolation ↔ PreconditionFails s .debias := by
  refine requireOperands_precondition_iff (debiasOK_iff s) ?_
  dsimp only
  split <;> nofun

theorem autocorrEffect_precondition_iff :
    (autocorrEffect s).status.err = .preconditionViolation ↔ PreconditionFails s .autocorr := by
  refine requireOperands_precondition_iff (autocorrOK_iff s) ?_
  dsimp only
  split
  · nofun
  · show (autocorrResult _ _ _).2 ≠ _
    obtain e | e | ⟨f, e⟩ := autocorrResult_cases s.arg1.toNat s.autocorrCounts.x1 s.autocorrCounts.x2 <;> rw [e] <;>
      nofun

/-- The code is reported where the context is there and a check of R109 fails. -/
theorem exec_precondition_iff {i : Instr} {t : State} (herr : s.status.err = .ok) (h : exec i s = .next t) :
    t.status.err = .preconditionViolation ↔ ContextReady s i ∧ PreconditionFails s i := by
  cases i with
  | mix => obtain rfl := Host.Outcome.next.inj h; exact iff_of_false nofun And.right
  | init c => obtain rfl := Host.Outcome.next.inj h; exact iff_of_false initEffect_err_ne_precondition And.right
  | next c =>
    obtain rfl := Host.Outcome.next.inj h
    exact iff_of_false (fun hcode => nomatch (withValidScalar_precondition_iff _).1 hcode) And.right
  | bounded c => obtain rfl := Host.Outcome.next.inj h; exact boundedEffect_precondition_iff herr
  | bias c =>
    obtain rfl := Host.Outcome.next.inj h
    exact checkedScalar_precondition_iff (validNM_iff _ _) fun _ => nofun
  | binomial c =>
    obtain rfl := Host.Outcome.next.inj h
    exact checkedScalar_precondition_iff (binomialOK_iff s c) fun _ => nofun
  | debias =>
    obtain rfl := Host.Outcome.next.inj h
    exact debiasEffect_precondition_iff.trans (and_iff_right trivial).symm
  | autocorr =>
    obtain rfl := Host.Outcome.next.inj h
    exact autocorrEffect_precondition_iff.trans (and_iff_right trivial).symm
  | vinit c => obtain rfl := Host.Outcome.next.inj h; exact vinitEffect_precondition_iff
  | vnext c =>
    obtain rfl := Host.Outcome.next.inj h
    exact iff_of_false (fun hcode => nomatch (withValidVector_precondition_iff _).1 hcode) And.right

end

/-- Settles O23: a command that reports the code has been turned away, so it ends at once. -/
theorem preconditionsExactly : Obligations.PreconditionsExactly := by
  intro i s herr
  obtain ⟨t, hexec⟩ := exec_answers_next i s
  have hiff := exec_precondition_iff herr hexec
  refine ⟨t, hexec, hiff, fun hready hfails => ?_⟩
  have hcode := hiff.2 ⟨hready, hfails⟩
  rw [(exec_executed hexec).eq_complete_of_rejected herr (.inr (.inr hcode)), hcode]
  exact complete_changes_only_status s _

end Sys2Proof.Machine
end

section
/-! PROOFS. An engine that runs no command, and what the assertion of reset leaves of host memory
(70_reset_and_hazards.md R122-R124). -/

namespace Sys2Proof.Machine

/-! ## The engine's turn without a command (R122, R124) -/

theorem engineTurn_idle {s : State} (h : s.status.busy = false ∨ s.inReset = true) : engineTurn s = .next s := by
  have hguard : (s.status.busy && !s.inReset) = false := by
    rw [Bool.and_eq_false_iff, Bool.not_eq_false']
    exact h
  rw [engineTurn, hguard]
  rfl

/-- Settles O7: what makes the engine idle does not depend on the turns. -/
theorem idleEngineDoesNothing : Obligations.IdleEngineDoesNothing := by
  intro s hturn h
  rw [step, hturn]
  exact engineTurn_idle h

/-! ## Memory after an abort (R123) -/

/-- An aborted command leaves memory alone, or it is a DEBIAS in range, and its destination words take any value. -/
theorem abortEffect_mem (i : Instr) (s : State) : (abortEffect i s).mem = s.mem ∨
    (i = .debias ∧ ¬PreconditionFails s .debias ∧ (abortEffect i s).mem = s.destAnyValue (fun _ => true) s.mem) := by
  cases i with
  | init | vinit => rw [abortEffect]; split <;> exact .inl rfl
  | debias =>
    rw [abortEffect]
    split
    · next hok => exact .inr ⟨rfl, (debiasOK_iff s).1 hok, rfl⟩
    · exact .inl rfl
  | mix | next | bounded | bias | binomial | autocorr | vnext => exact .inl rfl

theorem abort_mem (s : State) : s.abort.mem = s.mem ∨
    ((s.status.busy = true ∧ decode s.cmd = .ok .debias ∧ ¬PreconditionFails s .debias) ∧
      s.abort.mem = s.destAnyValue (fun _ => true) s.mem) := by
  cases hb : s.status.busy with
  | false => exact .inl (by rw [abort_idle hb])
  | true =>
    cases hd : decode s.cmd with
    | illegal e => exact .inl (by rw [abort_undecoded hd])
    | ok i =>
      rw [abort_ok hb hd]
      obtain hsame | ⟨rfl, hn, hmem⟩ := abortEffect_mem i s
      · exact .inl hsame
      · exact .inr ⟨⟨rfl, rfl, hn⟩, hmem⟩

/-- Settles O10: asserting reset closes the gate of the window and leaves memory as the abort does. -/
theorem assertedResetEndsCommand : Obligations.AssertedResetEndsCommand := by
  intro s hturn
  have hstep : step s = .next s.popTurn.assertReset := by rw [step, hturn]
  have hmem : s.popTurn.assertReset.mem = s.abort.mem := by
    show s.popTurn.abort.mem = _
    rw [abort_popTurn, State.popTurn_mem]
  have hgate (w : Width) (off : Nat) : (accessAllowed w off && !s.popTurn.assertReset.inReset) = false :=
    (accessGate_eq_false_iff _ w off).2 (.inl rfl)
  refine ⟨_, hstep, rfl, rfl, rfl, fun w off v => ⟨(windowRead_eq_none_iff _ w off).2 (hgate w off),
    (windowWrite_eq_none_iff _ w off v).2 (hgate w off)⟩, ?_⟩
  rw [SameBytesOutside, hmem]
  obtain hsame | ⟨hdebias, hany⟩ := abort_mem s
  · exact ⟨fun _ => hsame, fun a _ => by rw [hsame]⟩
  · refine ⟨fun hother => absurd hdebias hother, fun a ha => ?_⟩
    rw [hany, readByte_destAnyValue_outside s _ _ a ha]

end Sys2Proof.Machine
end

section
/-! PROOFS. How many entropy attempts a command makes (10_state.md R31, 70_reset_and_hazards.md R132). -/

namespace Sys2Proof.Machine

/-! ## Attempts of a draw, and of draws one after another (R68) -/

theorem entropyDraw64_attempts_le (p : EntropyPort) : (entropyDraw64 p).2.attempts ≤ p.attempts + 10 := by
  rw [entropyDraw64, entropyAttempts]
  obtain ⟨-, e⟩ | ⟨v, j, hj, -, e⟩ := entropyDrawIn_cases 10 p <;> rw [e]
  exact Nat.add_le_add_left hj _

theorem afterDraw_attempts_le {α β : Type} {d : EntropyPort → Option α × EntropyPort}
    {k : α → EntropyPort → Option β × EntropyPort} {a b : Nat} (hd : ∀ p, (d p).2.attempts ≤ p.attempts + a)
    (hk : ∀ v p, (k v p).2.attempts ≤ p.attempts + b) (p : EntropyPort) :
    (afterDraw d k p).2.attempts ≤ p.attempts + (a + b) := by
  have hfirst := hd p
  obtain ⟨-, e⟩ | ⟨v, -, e⟩ := afterDraw_cases d k p <;> rw [e]
  · exact hfirst.trans (by omega)
  · exact (hk v _).trans (by omega)

theorem twoDraws_attempts_le {β : Type} (f : Word64 → Word64 → β) : ∀ p,
    (afterDraw entropyDraw64 (fun v => afterDraw entropyDraw64 (fun w q => (some (f v w), q))) p).2.attempts ≤
      p.attempts + 20 :=
  afterDraw_attempts_le (b := 10) entropyDraw64_attempts_le fun _ =>
    afterDraw_attempts_le (b := 0) entropyDraw64_attempts_le fun _ _ => le_rfl

theorem entropyScalar_attempts_le (p : EntropyPort) : (entropyScalar p).2.attempts ≤ p.attempts + 20 :=
  twoDraws_attempts_le (fun cur inc => (⟨cur, inc ||| 1, true⟩ : ScalarCtx)) p

theorem entropyLane_attempts_le (p : EntropyPort) : (entropyLane p).2.attempts ≤ p.attempts + 20 :=
  twoDraws_attempts_le (fun cur inc => (trunc32 cur, trunc32 inc ||| 1)) p

theorem entropyVector_attempts_le : ∀ p, (entropyVector p).2.attempts ≤ p.attempts + 80 :=
  afterDraw_attempts_le (b := 60) entropyLane_attempts_le fun _ =>
    afterDraw_attempts_le (b := 40) entropyLane_attempts_le fun _ =>
      afterDraw_attempts_le (b := 20) entropyLane_attempts_le fun _ =>
        afterDraw_attempts_le (b := 0) entropyLane_attempts_le fun _ _ => le_rfl

/-! ## Commands that use the port -/

/-- A command leaves the port alone, or it is a seedless INIT or VINIT, and leaves it as its draws do. -/
theorem Executed.entropy_cases {i : Instr} {s t : State} (h : Executed s i t) : t.entropy = s.entropy ∨
    (∃ c, i = .init c ∧ s.args.v0 = 0 ∧ t.entropy = (entropyScalar s.entropy).2) ∨
    ∃ c, i = .vinit c ∧ s.args = Quad.all 0 ∧ t.entropy = (entropyVector s.entropy).2 := by
  cases h with
  | initEntropy c x y p tr hx h0 hp | initFails c x p tr hx h0 hp =>
    exact .inr (.inl ⟨c, rfl, h0, (congrArg Prod.snd hp).symm⟩)
  | vinitEntropy c x y p tr hx h0 hp | vinitFails c x p tr hx h0 hp =>
    exact .inr (.inr ⟨c, rfl, h0, (congrArg Prod.snd hp).symm⟩)
  | rejected | mix | initSeed | next | bounded | boundedRuns | bias | binomial | debias | debiasFails | autocorr
  | autocorrFails | vinitSeeds | vnext => exact .inl rfl

/-- Settles O28: two draws of INIT, eight of VINIT, of at most ten attempts each. -/
theorem entropyAttemptsBounded : Obligations.EntropyAttemptsBounded := by
  intro i s t hexec
  obtain hsame | ⟨c, rfl, h0, hport⟩ | ⟨c, rfl, h0, hport⟩ := (exec_executed hexec).entropy_cases
  · rw [hsame]
    exact ⟨.inl rfl, fun _ _ => Nat.le_add_right _ _, fun _ _ => Nat.le_add_right _ _⟩
  · rw [hport]
    exact ⟨.inr ⟨c, .inl ⟨rfl, h0⟩⟩, fun _ _ => entropyScalar_attempts_le _, nofun⟩
  · rw [hport]
    exact ⟨.inr ⟨c, .inr ⟨rfl, h0⟩⟩, nofun, fun _ _ => entropyVector_attempts_le _⟩

end Sys2Proof.Machine
end

section
/-! PROOFS. AUTOCORR on the alternating pattern (95_test_vectors.md S5): half of its bits are ones, and a lag maps all
of them or none to ones. -/

namespace Sys2Proof.Machine

/-! ## Counts of the pattern -/

section
variable {bit : Nat → Bool} {n : Nat} (heven : n % 2 = 0) (hbit : ∀ i, i < n → bit i = decide (i % 2 = 0))

include heven hbit

theorem oneCount_alternating : oneCount bit n = n / 2 := by
  have hcount := Nat.count_modEq_card n two_pos 0
  rw [heven, if_neg (by decide), Nat.add_zero, Nat.count_eq_card_filter_range] at hcount
  rw [oneCount, ← hcount]
  refine congrArg _ (Finset.filter_congr fun i hi => ?_)
  rw [hbit i (Finset.mem_range.1 hi), decide_eq_true_eq]
  rfl

/-- The length is even, so a shift round its end keeps the parity of positions and lag. -/
theorem bit_shift_alternating {i : Nat} (k : Nat) (hi : i < n) :
    bit ((i + k) % n) = true ↔ (i + k) % 2 = 0 := by
  rw [hbit _ (Nat.mod_lt _ (by omega)), decide_eq_true_eq, Nat.mod_mod_of_dvd _ (Nat.dvd_of_mod_eq_zero heven)]

theorem pairCount_alternating (k : Nat) : pairCount bit n k = if k % 2 = 0 then n / 2 else 0 := by
  split
  · next hk =>
    rw [← oneCount_alternating heven hbit]
    refine congrArg _ (Finset.filter_congr fun i hi => and_iff_left_of_imp fun hone => ?_)
    have hi := Finset.mem_range.1 hi
    rw [hbit i hi, decide_eq_true_eq] at hone
    rw [bit_shift_alternating heven hbit k hi]
    omega
  · next hk =>
    refine Finset.card_eq_zero.2 (Finset.filter_eq_empty_iff.2 fun {i} hi ⟨hone, hshift⟩ => ?_)
    have hi := Finset.mem_range.1 hi
    rw [hbit i hi, decide_eq_true_eq] at hone
    rw [bit_shift_alternating heven hbit k hi] at hshift
    omega

end

/-! ## The estimate -/

theorem rne64_self {den : Nat} (h : 0 < den) :
    rne64 den den = 0x3FF0000000000000 ∧ rne64 (-den) den = 0xBFF0000000000000 := by
  obtain ⟨-, -, -, -, hone, -⟩ := roundsToNearestEven den den h le_rfl
  obtain ⟨-, -, -, -, -, hneg⟩ := roundsToNearestEven (-den) den h (by omega)
  exact ⟨hone rfl, hneg rfl⟩

/-- The quotient of R93 for `m` ones among `2*m` bits, `m` of them in pairs or none. -/
theorem rne64_alternating {m : Nat} (hm : 0 < m) (k : Nat) :
    rne64 (((2 * m : Nat) : Int) * ((if k % 2 = 0 then m else 0 : Nat) : Int) - (m : Int) * m) (2 * m * m - m * m) =
      if k % 2 = 0 then 0x3FF0000000000000 else 0xBFF0000000000000 := by
  obtain ⟨hone, hneg⟩ := rne64_self (Nat.mul_pos hm hm)
  have hden : 2 * m * m - m * m = m * m := by rw [Nat.mul_assoc, Nat.two_mul, Nat.add_sub_cancel]
  rw [hden]
  split
  · exact (congrArg (rne64 · (m * m)) (by push_cast; ring)).trans hone
  · exact (congrArg (rne64 · (m * m)) (by push_cast; ring)).trans hneg

/-- Settles O55: the pattern is neither all zeros nor all ones, and its quotient is 1 or -1. -/
theorem autocorrOfAlternatingPattern : Obligations.AutocorrOfAlternatingPattern := by
  intro s hn hsrc hread heven hbit
  have hlag := autocorr_lag_lt hn
  obtain ⟨m, hm⟩ : ∃ m, s.args.v1.toNat = 2 * m := ⟨_, (Nat.two_mul_div_two_of_even (Nat.even_iff.2 heven)).symm⟩
  have hones := oneCount_alternating heven hbit
  have hpairs := pairCount_alternating heven hbit s.args.v2.toNat
  rw [show s.args.v1.toNat / 2 = m by omega] at hones hpairs
  obtain ⟨t, hexec, -, -, -, -, -, hordinary⟩ := Sys2Proof.autocorrResult s hn hsrc hread
  rw [hones, hpairs] at hordinary
  obtain ⟨hdone, hres⟩ := hordinary ⟨by omega, by omega⟩
  refine ⟨t, hexec, hdone, ?_⟩
  rw [hres, hm]
  exact rne64_alternating (by omega) _

end Sys2Proof.Machine
end
